-- ==== Sys2Proof/Word.lean ====
section
/-! DEFINITION. The word types of NBPHY: the 32-bit command word (30_encoding.md R81), the 24-bit CRC shift register
(47_arithmetic.md R320), the 32-bit word a host writes to a register (40_control.md R105), and the bit. -/

namespace Sys2Proof

/-- A command word, the value written to `CMD` (30_encoding.md R80, R81). -/
abbrev CmdWord := BitVec 32

/-- The CRC shift register, "the only fixed-width integer in the block" (47_arithmetic.md R320). -/
abbrev CrcReg := BitVec 24

/-- One bit of a bit buffer (00_scope.md R12): `true` is 1. -/
abbrev Bit := Bool

end Sys2Proof
end

