-- ==== Sys2Proof/Syntax.lean ====
section
/-! DEFINITION. The commands of NBPHY, one constructor per row of the table of 30_encoding.md R84. -/

namespace Sys2Proof

/-- The 30 commands (30_encoding.md R84). Only `CONST_BUILD` and `GRID_EXTRACT` have an operand, the unsigned immediate of
R82, taken as the natural number it stands for. -/
inductive Instr where
  | nop
  | txReset
  | runReset
  | crcGen
  | crcVerify
  | tbAppend
  | tbSplit
  | repeatBits
  | majority
  | interleave
  | deinterleave
  | tbBuild
  | tbProcess
  | constBuild (b : Nat)
  | modulate
  | demodulate
  | gridInit
  | gridMap
  | gridExtract (n : Nat)
  | grid2td
  | td2grid
  | preGen
  | cpAdd
  | cpRemove
  | frameBuild
  | frameDetect
  | frameExtract
  | cfoTrack
  | cpeTrack
  | scoTrack
deriving DecidableEq, Repr

end Sys2Proof
end

