-- ==== Sys2Proof/WellFormed.lean ====
section
/-! DEFINITION. Which terms of `Instr` are commands of the block: an immediate is a 24-bit natural (30_encoding.md R81, R82). -/

namespace Sys2Proof

/-- The immediate fits its 24-bit field (30_encoding.md R82: "0 to 16 777 215"). -/
abbrev Instr.immFits (imm : Nat) : Prop := imm < 2 ^ 24

/-- The operand of every command is one its encoding can hold. Every value of `imm` is a legal encoding of `CONST_BUILD` and
`GRID_EXTRACT` (30_encoding.md R85); the other commands have no operand. -/
abbrev Instr.WellFormed : Instr → Prop
  | .nop => True
  | .txReset => True
  | .runReset => True
  | .crcGen => True
  | .crcVerify => True
  | .tbAppend => True
  | .tbSplit => True
  | .repeatBits => True
  | .majority => True
  | .interleave => True
  | .deinterleave => True
  | .tbBuild => True
  | .tbProcess => True
  | .constBuild b => Instr.immFits b
  | .modulate => True
  | .demodulate => True
  | .gridInit => True
  | .gridMap => True
  | .gridExtract n => Instr.immFits n
  | .grid2td => True
  | .td2grid => True
  | .preGen => True
  | .cpAdd => True
  | .cpRemove => True
  | .frameBuild => True
  | .frameDetect => True
  | .frameExtract => True
  | .cfoTrack => True
  | .cpeTrack => True
  | .scoTrack => True

end Sys2Proof
end

