-- ==== Sys2Proof/Decode.lean ====
section
/-! DEFINITION. The command decoder, total on every 32-bit word and rejecting by name (30_encoding.md R81 to R85), and after it
the encoder, written from the same table. -/

namespace Sys2Proof

/-- Why a word is not one of the 30 patterns (30_encoding.md R85). Both are the illegal word of R85. -/
inductive Illegal where
  /-- The table lists no command with this opcode. -/
  | unassignedOpcode (op : Nat)
  /-- The opcode is listed, takes no immediate, and the word's immediate is not 0. -/
  | nonzeroImmediate (op imm : Nat)
deriving DecidableEq, Repr

/-- `op = cmd[31:24]` (30_encoding.md R81). -/
def CmdWord.op (w : CmdWord) : Nat := (w.extractLsb' 24 8).toNat

/-- `imm = zext_24(cmd[23:0])` (30_encoding.md R81, R82). -/
def CmdWord.imm (w : CmdWord) : Nat := (w.extractLsb' 0 24).toNat

/-- A command that takes no immediate: its word is legal only with `imm = 0` (30_encoding.md R85). -/
def decodePlain (i : Instr) (op imm : Nat) : Except Illegal Instr :=
  if imm = 0 then .ok i else .error (.nonzeroImmediate op imm)

/-- The opcode map of 30_encoding.md R84, on the two fields of a word. -/
def decodeFields (op imm : Nat) : Except Illegal Instr :=
  match op with
  | 0x00 => decodePlain .nop op imm
  | 0x01 => decodePlain .txReset op imm
  | 0x02 => decodePlain .runReset op imm
  | 0x10 => decodePlain .crcGen op imm
  | 0x11 => decodePlain .crcVerify op imm
  | 0x12 => decodePlain .tbAppend op imm
  | 0x13 => decodePlain .tbSplit op imm
  | 0x14 => decodePlain .repeatBits op imm
  | 0x15 => decodePlain .majority op imm
  | 0x16 => decodePlain .interleave op imm
  | 0x17 => decodePlain .deinterleave op imm
  | 0x18 => decodePlain .tbBuild op imm
  | 0x19 => decodePlain .tbProcess op imm
  | 0x20 => .ok (.constBuild imm)
  | 0x21 => decodePlain .modulate op imm
  | 0x22 => decodePlain .demodulate op imm
  | 0x30 => decodePlain .gridInit op imm
  | 0x31 => decodePlain .gridMap op imm
  | 0x32 => .ok (.gridExtract imm)
  | 0x33 => decodePlain .grid2td op imm
  | 0x34 => decodePlain .td2grid op imm
  | 0x40 => decodePlain .preGen op imm
  | 0x41 => decodePlain .cpAdd op imm
  | 0x42 => decodePlain .cpRemove op imm
  | 0x43 => decodePlain .frameBuild op imm
  | 0x44 => decodePlain .frameDetect op imm
  | 0x45 => decodePlain .frameExtract op imm
  | 0x50 => decodePlain .cfoTrack op imm
  | 0x51 => decodePlain .cpeTrack op imm
  | 0x52 => decodePlain .scoTrack op imm
  | _ => .error (.unassignedOpcode op)

/-- The decoder: a word to its command, or the reason it is illegal (30_encoding.md R81, R84, R85). -/
def decode (w : CmdWord) : Except Illegal Instr := decodeFields w.op w.imm

/-- The opcode of a command (30_encoding.md R84, column `op`). -/
def Instr.opcode : Instr → Nat
  | .nop => 0x00
  | .txReset => 0x01
  | .runReset => 0x02
  | .crcGen => 0x10
  | .crcVerify => 0x11
  | .tbAppend => 0x12
  | .tbSplit => 0x13
  | .repeatBits => 0x14
  | .majority => 0x15
  | .interleave => 0x16
  | .deinterleave => 0x17
  | .tbBuild => 0x18
  | .tbProcess => 0x19
  | .constBuild _ => 0x20
  | .modulate => 0x21
  | .demodulate => 0x22
  | .gridInit => 0x30
  | .gridMap => 0x31
  | .gridExtract _ => 0x32
  | .grid2td => 0x33
  | .td2grid => 0x34
  | .preGen => 0x40
  | .cpAdd => 0x41
  | .cpRemove => 0x42
  | .frameBuild => 0x43
  | .frameDetect => 0x44
  | .frameExtract => 0x45
  | .cfoTrack => 0x50
  | .cpeTrack => 0x51
  | .scoTrack => 0x52

/-- The immediate of a command: its operand where it has one, else 0 (30_encoding.md R82, R84). -/
def Instr.immediate : Instr → Nat
  | .constBuild b => b
  | .gridExtract n => n
  | .nop | .txReset | .runReset | .crcGen | .crcVerify | .tbAppend | .tbSplit | .repeatBits | .majority | .interleave
  | .deinterleave | .tbBuild | .tbProcess | .modulate | .demodulate | .gridInit | .gridMap | .grid2td | .td2grid | .preGen
  | .cpAdd | .cpRemove | .frameBuild | .frameDetect | .frameExtract | .cfoTrack | .cpeTrack | .scoTrack => 0

/-- The encoder: the word of a command, `op << 24` with the immediate in bits 23:0 (30_encoding.md R81, R84). -/
def encode (i : Instr) : CmdWord := BitVec.ofNat 8 i.opcode ++ BitVec.ofNat 24 i.immediate

/-- The command the decoder reads from a table row's bits (opcode_table.json: one 32-bit word, bit 0 its least significant;
the bits above `nbits` are 0). A command is one whole word written to `CMD`, so there is no byte order (20_memory.md R65). -/
def decodeTableWord (nbits w : Nat) : Option Instr :=
  match decode (BitVec.ofNat 32 (w % 2 ^ nbits)) with
  | .ok i => some i
  | .error _ => none

end Sys2Proof
end

