-- ==== Sys2Proof/Machine/Num.lean ====
section
/-! DEFINITION. The real and complex numbers of the rules (00_scope.md R14, 47_arithmetic.md R323). The reference arithmetic is
exact, so a number is a TERM over the operations the rules use: rationals, signed square roots of rationals, rational multiples
of π, and `+`, `−`, `·`, `1/x`, `sqrt`, `|x|`, `cos`, `sin`, `arg`; every other real enters as an atom, whose value is free. Each
operation below returns a term whose value (`Num.val`) is exactly the operation's real result; where the result is again a
rational, a root or a multiple of π, the term is that number itself. -/

namespace Sys2Proof

/-- FREE VALUE (DESIGN CHOICE, log entry 1): the real number that atom `k` stands for. No body: it may be any real, such as a
noise sample of 45_channel_environment.md R217, which is no term over the operations of the rules. -/
opaque Config.freeReal : Nat → ℝ

/-- An exact real number as plain data. WHICH REALS A SAMPLE CAN BE is the model's choice while `NUMFMT` is open (DESIGN CHOICE,
log entry 1): the reals that a term over the rules' operations denotes, and, through `free`, any other real (a statement about
a state that holds an atom holds for every value of it). -/
inductive Num where
  /-- Atom `k`: a real given from outside the block, of any value (`Config.freeReal`). -/
  | free (k : Nat)
  /-- A rational. -/
  | rat (q : Rat)
  /-- The signed root of a rational: `√q` for `q ≥ 0`, `−√(−q)` for `q < 0`. -/
  | root (q : Rat)
  /-- The rational multiple `q·π`. -/
  | piMul (q : Rat)
  | add (a b : Num)
  | neg (a : Num)
  | mul (a b : Num)
  | inv (a : Num)
  | sqrt (a : Num)
  | abs (a : Num)
  | cos (a : Num)
  | sin (a : Num)
  /-- `arg(re + j·im)`, the principal argument in (−π, π], with `arg(0) = 0` (00_scope.md R14). -/
  | arg (re im : Num)
deriving DecidableEq, Repr, Inhabited

/-- The real number a term stands for (00_scope.md R14, 47_arithmetic.md R323). -/
noncomputable def Num.val : Num → ℝ
  | .free k => Config.freeReal k
  | .rat q => (q : ℝ)
  | .root q => if 0 ≤ q then Real.sqrt q else -Real.sqrt (-q)
  | .piMul q => (q : ℝ) * Real.pi
  | .add a b => a.val + b.val
  | .neg a => -a.val
  | .mul a b => a.val * b.val
  | .inv a => (a.val)⁻¹
  | .sqrt a => Real.sqrt a.val
  | .abs a => |a.val|
  | .cos a => Real.cos a.val
  | .sin a => Real.sin a.val
  | .arg re im => Complex.arg ⟨re.val, im.val⟩

/-- A complex number, the pair of its real and imaginary part (00_scope.md R14). -/
structure Cplx where
  re : Num
  im : Num
deriving DecidableEq, Repr, Inhabited

namespace Num

def zero : Num := .rat 0
def one : Num := .rat 1

/-- A natural number as a real. -/
def ofNat (n : Nat) : Num := .rat n

/-- `q·π`, the rational 0 when `q = 0`. -/
def pi (q : Rat) : Num := if q = 0 then zero else .piMul q

/-- The rational square root of a rational that is a perfect square. -/
def ratSqrt? (q : Rat) : Option Rat :=
  let n := Nat.sqrt q.num.natAbs
  let d := Nat.sqrt q.den
  if q = (n : Rat) * n / ((d : Rat) * d) then some ((n : Rat) / d) else none

/-- The signed root of `q`, as a rational where it is one. -/
def mkRoot (q : Rat) : Num :=
  if 0 ≤ q then
    match ratSqrt? q with
    | some r => .rat r
    | none => .root q
  else
    match ratSqrt? (-q) with
    | some r => .rat (-r)
    | none => .root q

/-- For a rational or a signed root: the number's square with the number's sign (`x·|x|`). -/
def signedSq? : Num → Option Rat
  | .rat q => some (q * |q|)
  | .root q => some q
  | _ => none

/-- `−a`. -/
def negate : Num → Num
  | .rat q => .rat (-q)
  | .root q => .root (-q)
  | .piMul q => .piMul (-q)
  | .neg a => a
  | a => .neg a

/-- `a + b`. -/
def plus : Num → Num → Num
  | .rat p, .rat q => .rat (p + q)
  | .piMul p, .piMul q => pi (p + q)
  | .root p, .root q => if p = q then mkRoot (4 * p) else if p = -q then zero else .add (.root p) (.root q)
  | a, b => if a = zero then b else if b = zero then a else .add a b

/-- `a − b`, the rational 0 for two equal terms. -/
def minus (a b : Num) : Num := if a = b then zero else plus a (negate b)

/-- A rational times a number. -/
def scale (q : Rat) (b : Num) : Num :=
  if q = 0 then zero else if q = 1 then b else if q = -1 then negate b else
    match b with
    | .rat p => .rat (q * p)
    | .root p => mkRoot (q * |q| * p)
    | .piMul p => .piMul (q * p)
    | b => .mul (.rat q) b

/-- `a · b`. -/
def times : Num → Num → Num
  | .rat p, b => scale p b
  | a, .rat q => scale q a
  | .root p, .root q => mkRoot (p * q)
  | a, b => .mul a b

/-- `1 / a` (no rule divides by 0, 47_arithmetic.md R321, R323). -/
def recip : Num → Num
  | .rat q => .rat q⁻¹
  | .root q => mkRoot q⁻¹
  | a => .inv a

/-- `a / b`. -/
def div (a b : Num) : Num := times a (recip b)

/-- `sqrt(a)` for `a ≥ 0`. -/
def root2 : Num → Num
  | .rat q => if 0 ≤ q then mkRoot q else zero
  | a => .sqrt a

/-- `|a|`. -/
def magnitude : Num → Num
  | .rat q => .rat |q|
  | .root q => .root |q|
  | .piMul q => .piMul |q|
  | a => .abs a

/-- `cos(r·π)` for `r` in [0, 1/2], where it is a rational or a signed root. -/
def cosTable (r : Rat) : Option Num :=
  if r = 0 then some one
  else if r = 1 / 6 then some (.root (3 / 4))
  else if r = 1 / 4 then some (.root (1 / 2))
  else if r = 1 / 3 then some (.rat (1 / 2))
  else if r = 1 / 2 then some zero
  else none

/-- `cos(q·π)` where it is a rational or a signed root: reduced by the period 2 and the symmetries of the cosine. -/
def cosPi? (q : Rat) : Option Num :=
  let r := q - 2 * (q / 2).floor
  let r := if 1 < r then 2 - r else r
  if 1 / 2 < r then (cosTable (1 - r)).map negate else cosTable r

/-- `cos(a)`. -/
def cosine (a : Num) : Num :=
  match a with
  | .rat q => if q = 0 then one else .cos a
  | .piMul q => (cosPi? q).getD (.cos a)
  | _ => .cos a

/-- `sin(a)`. -/
def sine (a : Num) : Num :=
  match a with
  | .rat q => if q = 0 then zero else .sin a
  | .piMul q => (cosPi? (1 / 2 - q)).getD (.sin a)
  | _ => .sin a

/-- The argument of `re + j·im` from the signed squares of the two parts, where it is a multiple of π/4. -/
def argSq? (x y : Rat) : Option Num :=
  if y = 0 then some (if 0 ≤ x then zero else .piMul 1)
  else if x = 0 then some (.piMul (if 0 < y then 1 / 2 else -1 / 2))
  else if x = y then some (.piMul (if 0 < x then 1 / 4 else -3 / 4))
  else if x = -y then some (.piMul (if 0 < x then -1 / 4 else 3 / 4))
  else none

/-- `arg(re + j·im)` (00_scope.md R14). -/
def argument (re im : Num) : Num :=
  match signedSq? re, signedSq? im with
  | some x, some y => (argSq? x y).getD (.arg re im)
  | _, _ => .arg re im

/-- The sum of a list of numbers, in the list's order (the order is immaterial over exact reals, 93_implementation_defined.md
U11). -/
def sum (xs : List Num) : Num := xs.foldl plus zero

end Num

namespace Cplx

def zero : Cplx := ⟨Num.zero, Num.zero⟩

/-- A real number as a complex one. -/
def ofNum (a : Num) : Cplx := ⟨a, Num.zero⟩

/-- `a + b`. -/
def plus (a b : Cplx) : Cplx := ⟨a.re.plus b.re, a.im.plus b.im⟩

/-- `a · b`. -/
def times (a b : Cplx) : Cplx :=
  ⟨(a.re.times b.re).minus (a.im.times b.im), (a.re.times b.im).plus (a.im.times b.re)⟩

/-- `conj(a)` (00_scope.md R14). -/
def conj (a : Cplx) : Cplx := ⟨a.re, a.im.negate⟩

/-- A real number times a complex one. -/
def scale (r : Num) (a : Cplx) : Cplx := ⟨r.times a.re, r.times a.im⟩

/-- `|a|² = Re² + Im²`. -/
def normSq (a : Cplx) : Num := (a.re.times a.re).plus (a.im.times a.im)

/-- `|a|` (00_scope.md R14). -/
def abs (a : Cplx) : Num := a.normSq.root2

/-- `arg(a)` (00_scope.md R14). -/
def arg (a : Cplx) : Num := Num.argument a.re a.im

/-- `e^{jθ} = cos θ + j·sin θ` (00_scope.md R14, 47_arithmetic.md R326). -/
def cis (θ : Num) : Cplx := ⟨θ.cosine, θ.sine⟩

/-- The sum of a list of complex numbers, in the list's order (93_implementation_defined.md U11). -/
def sum (xs : List Cplx) : Cplx := xs.foldl plus zero

end Cplx

end Sys2Proof
end

