-- ==== Sys2Proof/Config.lean ====
section
/-! DEFINITION. The configuration `CFG` of the block (00_scope.md R9) with its derived sizes (R10), the constants to which the
spec gives a value, and the configuration an instance is built with, which is open. -/

namespace Sys2Proof

/-- The order of XOR and shift inside one CRC step (00_scope.md R9 `CRC_VARIANT`, 41_transport_block_codec.md R121). -/
inductive CrcVariant where
  | xorThenShift
  | shiftThenXor
deriving DecidableEq, Repr, Inhabited

/-- The two variants of the SCO correction (00_scope.md R9 `SCO_MODE`, 46_sync_trackers.md R237). -/
inductive ScoMode where
  | uniform
  | ramp
deriving DecidableEq, Repr, Inhabited

/-- The configuration, "fixed at build/initialization time, not runtime-mutable" (00_scope.md R9). The fields are the rows of
R9's table that are open and that the block or R11 reads; the rows with a stated value are the constants of `Config` below. -/
structure Cfg where
  /-- `N_P`, payload size in bits (read by R11 only). -/
  nP : Nat
  /-- `CRC_VARIANT`. -/
  crcVariant : CrcVariant
  /-- `K_REP`, repetition factor. -/
  kRep : Nat
  /-- `ILV_R`, interleaver rows. -/
  ilvR : Nat
  /-- `ILV_C`, interleaver columns. -/
  ilvC : Nat
  /-- `BPS`, the bits per symbol the host intends to use (read by R11 only). -/
  bps : Nat
  /-- `SUPPORTED_BPS`. -/
  supportedBps : List Nat
  /-- `BITMAP[b]`: for each `b`, the tuple of every point index in ascending order. -/
  bitmaps : List (Nat × List (List Bit))
  /-- `N_FFT`. -/
  nFft : Nat
  /-- `N_CP`. -/
  nCp : Nat
  /-- `N_SYM`, OFDM symbols (grid rows). -/
  nSym : Nat
  /-- `N_SC`, subcarriers (grid columns). -/
  nSc : Nat
  /-- `PILOT_IDX`, the pilot subcarrier indices. -/
  pilotIdx : List Nat
  /-- `PILOT_VAL`. -/
  pilotVal : Cplx
  /-- `SC_OFFSET`. -/
  scOffset : Nat
  /-- `SYNC_BITS`, exactly `L_PRE` bits in sample order. -/
  syncBits : List Bit
  /-- `FALLBACK_START`. -/
  fallbackStart : Nat
  /-- `ALPHA_CFO`. -/
  alphaCfo : Num
  /-- `ALPHA_CPE`. -/
  alphaCpe : Num
  /-- `ALPHA_SCO`. -/
  alphaSco : Num
  /-- `SCO_MODE`. -/
  scoMode : ScoMode
  /-- `K_CENTER`. -/
  kCenter : Num
  /-- `EPS_CORR`. -/
  epsCorr : Num
  /-- `CAP_BITS`. -/
  capBits : Nat
  /-- `CAP_SYMS`. -/
  capSyms : Nat
  /-- `CAP_FRAME`. -/
  capFrame : Nat
deriving DecidableEq, Repr, Inhabited

/-! The rows of 00_scope.md R9 with a stated value. -/

/-- `CRC_W` = 24 (00_scope.md R9). -/
def Config.crcWidth : Nat := 24

/-- `CRC_POLY` = 0x1864CFB, a 25-bit literal (00_scope.md R9). -/
def Config.crcPoly : BitVec 25 := 0x1864CFB

/-- `CRC_INIT` = 0xFFFFFF (00_scope.md R9). -/
def Config.crcInit : CrcReg := 0xFFFFFF

/-- `DET_THRESH` = 0.7 (00_scope.md R9). -/
def Config.detThresh : Num := .rat (7 / 10)

/-- `PIL_MAG_THRESH` = 0.1 (00_scope.md R9). -/
def Config.pilMagThresh : Num := .rat (1 / 10)

/-- φ = (1+√5)/2 (42_constellation.md R151). -/
def Config.goldenRatio : Num := (Num.rat (1 / 2)).times (Num.one.plus (.root 5))

/-- `ANGLE_STEP` Δ = 2π·(2 − φ) (42_constellation.md R151, 90_conflicts.md C2). -/
def Config.angleStep : Num := (Num.pi 2).times ((Num.ofNat 2).minus Config.goldenRatio)

/-! The derived sizes of 00_scope.md R10. -/

namespace Cfg

/-- `L_PRE`, the number of synchronisation bits (00_scope.md R9, D24). -/
def lPre (c : Cfg) : Nat := c.syncBits.length

/-- `N_PIL`, the number of pilot indices (00_scope.md R9). -/
def nPil (c : Cfg) : Nat := c.pilotIdx.length

/-- `N_T = N_P + 24`. -/
def nT (c : Cfg) : Nat := c.nP + Config.crcWidth

/-- `N_C = K_REP · N_T`. -/
def nC (c : Cfg) : Nat := c.kRep * c.nT

/-- `N_D = N_SC − N_PIL`, data subcarriers per OFDM symbol. -/
def nD (c : Cfg) : Nat := c.nSc - c.nPil

/-- `CAP = N_SYM · N_D`, data capacity. -/
def cap (c : Cfg) : Nat := c.nSym * c.nD

/-- `L_SYM = N_FFT + N_CP`. -/
def lSym (c : Cfg) : Nat := c.nFft + c.nCp

/-- `L_PL = N_SYM · L_SYM`, payload samples. -/
def lPl (c : Cfg) : Nat := c.nSym * c.lSym

/-- `L_FRAME = L_PRE + L_PL`. -/
def lFrame (c : Cfg) : Nat := c.lPre + c.lPl

/-- `DATA_IDX`: the subcarrier indices below `N_SC` not in `PILOT_IDX`, ascending (43_resource_grid.md R171). -/
def dataIdx (c : Cfg) : List Nat := (List.range c.nSc).filter (fun k => !c.pilotIdx.contains k)

/-! The conditions of a consistent configuration (00_scope.md R11) on which a command's cell and sample indices rest; the others
show in the errors of 60_exceptions.md R262. -/

/-- "`PILOT_IDX` strictly ascending below `N_SC`" (00_scope.md R11). -/
def pilotsOk (c : Cfg) : Bool := decide (c.pilotIdx.Pairwise (· < ·)) && c.pilotIdx.all fun k => decide (k < c.nSc)

/-- "`SC_OFFSET + N_SC ≤ N_FFT`" (00_scope.md R11). -/
def binsOk (c : Cfg) : Bool := decide (c.scOffset + c.nSc ≤ c.nFft)

/-- "`N_CP ≤ N_FFT`" (00_scope.md R11). -/
def prefixOk (c : Cfg) : Bool := decide (c.nCp ≤ c.nFft)

/-- `BITMAP[b]`: the table configured for `b`, empty when there is none (00_scope.md R9). -/
def bitmap (c : Cfg) (b : Nat) : List (List Bit) :=
  match c.bitmaps.find? (fun t => t.1 == b) with
  | some t => t.2
  | none => []

/-- A bit-mapping table for `b`: one tuple of `b` bits per point index, all distinct, so a bijection (00_scope.md R9). -/
def tableOk (b : Nat) (t : List (List Bit)) : Bool :=
  t.length == 2 ^ b && t.all (fun x => x.length == b) && decide t.Nodup

/-- `b ∈ SUPPORTED_BPS`: one of 2..6, listed, "depending on table availability" (42_constellation.md R153, D18). -/
def supports (c : Cfg) (b : Nat) : Bool :=
  decide (2 ≤ b) && decide (b ≤ 6) && c.supportedBps.contains b && tableOk b (c.bitmap b)

end Cfg

/-- The identity table of 42_constellation.md R153: the index in binary, most significant bit first. It is the spec's declared
placeholder for its test vectors, no value of `BITMAP`. -/
def Config.identityTable (b : Nat) : List (List Bit) :=
  (List.range (2 ^ b)).map fun i => (List.range b).map fun j => i.testBit (b - 1 - j)

/-- The configuration of the instance that `State.reset` describes. OPEN (00_scope.md R9, U13): no value; every other
statement quantifies over all configurations. -/
opaque Config.cfg : Cfg

end Sys2Proof
end

