-- ==== Sys2Proof/Machine/State.lean ====
section
/-! DEFINITION. The state of the machine as plain data: the block (10_state.md R20), the host that feeds it (40_control.md R108),
the configuration beside them (00_scope.md R9), the reasons a step can stop, and the state after hardware reset
(10_state.md R36, R37). -/

namespace Sys2Proof.Machine

/-- The result codes of 60_exceptions.md R261, in the order of their numbers 0 to 10. "11 to 255" are "never written". -/
inductive Code where
  | ok
  | illegalCmd
  | aborted
  | empty
  | ilvSize
  | bpsRange
  | modLen
  | gridCapacity
  | frameShort
  | size
  | capacity
deriving DecidableEq, Repr

/-- `STATUS` by its fields (10_state.md R31); the 32-bit word the host reads is `Status.word` (Flags.lean). Bits 31:14 are no
storage: they read as 0. -/
structure Status where
  code : Code
  abort : Bool
  crcFail : Bool
  detFallback : Bool
  cfoSkip : Bool
  cpeSkip : Bool
  scoSkip : Bool
deriving DecidableEq, Repr

/-- A tracker record `TRK.X` (10_state.md R33). -/
structure Tracker where
  raw : Num
  filt : Num
  nvalid : Nat
  init : Bool
deriving DecidableEq, Repr

/-- The record `TRK.SCO`: the common fields, `acc` and `nupd` (10_state.md R33). `have_prev` is the valid bit of `SCO.prev`
(10_state.md R23), so it is `Block.scoPrev.isSome`. -/
structure ScoTracker where
  trk : Tracker
  acc : Num
  nupd : Nat
deriving DecidableEq, Repr

/-- The constellation record while `CONST.v = 1` (10_state.md R27). -/
structure Const where
  b : Nat
  pt : List Cplx
  tup : List (List Bit)
deriving DecidableEq, Repr

/-- The resource grid while `GRID.v = 1`, both arrays flattened row-major (10_state.md R23, R28). -/
structure Grid where
  data : List Cplx
  pilot : List Cplx
deriving DecidableEq, Repr

/-- The state of the block (10_state.md R20): the fifteen buffers of R23, the registers of R30, the tracker records of R33.
A buffer is `none` while its valid bit is 0 ("A model should represent an invalid buffer as 'no value', not as zeros", R37) and
`some` of its elements while it is 1. `PRE`, `TD` and the grid have the fixed shapes of R23. -/
structure Block where
  pay : Option (List Bit)
  crcb : Option (List Bit)
  tot : Option (List Bit)
  cod : Option (List Bit)
  ilv : Option (List Bit)
  syms : Option (List Cplx)
  grid : Option Grid
  td : Option (List Cplx)
  cps : Option (List Cplx)
  pre : Option (List Cplx)
  frame : Option (List Cplx)
  const : Option Const
  scoPrev : Option (List Cplx)
  status : Status
  /-- `START`, a natural (47_arithmetic.md R321). -/
  start : Nat
  /-- `SCORE`. -/
  score : Num
  /-- `TBVALID`. -/
  tbvalid : Bool
  cfo : Tracker
  cpe : Tracker
  sco : ScoTracker
deriving DecidableEq, Repr

/-- Elements moved by the host port: bits or complex samples (20_memory.md R60, R62). Which reals a sample written by the host can
have is the model's choice while `NUMFMT` is open (DESIGN CHOICE, log entry 1; `Num`): "any" sample of 45_channel_environment.md
R221 is a pair of terms, atoms of free value among them. -/
inductive HostData where
  | bits (xs : List Bit)
  | samples (xs : List Cplx)
deriving DecidableEq, Repr

/-- One step of the host (40_control.md R108): a command word for `CMD`, or one of the host-port and register primitives of
20_memory.md R62 and 40_control.md R105. -/
inductive HostStep where
  | cmd (w : CmdWord)
  | hwr (id off : Nat) (seq : HostData)
  | hrd (id off n : Nat)
  | csrw (n : Nat) (v : BitVec 32)
  | csrr (n : Nat)
deriving DecidableEq, Repr

/-- What the last host step gave back to the host. -/
inductive HostResult where
  /-- No host step has been performed. -/
  | nothing
  /-- A command word, an `HWR` or a `CSRW` has returned. -/
  | done
  /-- The access was refused: it changed nothing and returned nothing (20_memory.md R63). -/
  | refusedAccess
  /-- The elements an `HRD` returned. -/
  | data (d : HostData)
  /-- The integer a `CSRR` returned. -/
  | nat (n : Nat)
  /-- The real a `CSRR` returned. -/
  | real (x : Num)
deriving DecidableEq, Repr

/-- The whole machine: the configuration of the instance, which no step writes (00_scope.md R9, 70_reset_and_hazards.md R292),
the block, and the host with its list of steps, its index `pc` and what it last received (40_control.md R108). -/
structure State where
  cfg : Cfg
  blk : Block
  prog : List HostStep
  pc : Nat
  result : HostResult
deriving DecidableEq, Repr

/-- Why the machine stops. -/
inductive Fault where
  /-- Raised by `step` when the host's list has ended (`pc` is not the index of a host step): "if pc = n the program has
  ended" (40_control.md R108). Safe: the model stops where nothing is left to perform. -/
  | programEnded
deriving DecidableEq, Repr

/-- Why an instruction has no meaning. -/
inductive Refusal where
  /-- Raised by an arm of `exec` for an instruction without a meaning; no arm of this model does. Safe: nothing can be proved
  of an instruction that is refused. -/
  | notModelled (mnemonic : String)
deriving DecidableEq, Repr

/-- `STATUS = 0` (10_state.md R36): code `OK`, `abort` 0, all flags 0. -/
def Status.reset : Status where
  code := .ok
  abort := false
  crcFail := false
  detFallback := false
  cfoSkip := false
  cpeSkip := false
  scoSkip := false

/-- A tracker record after reset (10_state.md R36). -/
def Tracker.reset : Tracker where
  raw := Num.zero
  filt := Num.zero
  nvalid := 0
  init := false

/-- `TRK.SCO` after reset (10_state.md R36). -/
def ScoTracker.reset : ScoTracker where
  trk := Tracker.reset
  acc := Num.zero
  nupd := 0

/-- The block after hardware reset and after `RUN_RESET` (10_state.md R36): every valid bit 0, every register 0. -/
def Block.reset : Block where
  pay := none
  crcb := none
  tot := none
  cod := none
  ilv := none
  syms := none
  grid := none
  td := none
  cps := none
  pre := none
  frame := none
  const := none
  scoPrev := none
  status := Status.reset
  start := 0
  score := Num.zero
  tbvalid := false
  cfo := Tracker.reset
  cpe := Tracker.reset
  sco := ScoTracker.reset

/-- The machine right after hardware reset (10_state.md R36, 70_reset_and_hazards.md R291), with any configuration and a host
that has been given no step to perform (40_control.md R108). -/
def State.reset : State where
  cfg := Config.cfg
  blk := Block.reset
  prog := []
  pc := 0
  result := .nothing

end Sys2Proof.Machine
end

