-- ==== Sys2Proof/Machine/Flags.lean ====
section
/-! DEFINITION. The `STATUS` register: the numbers of the result codes (60_exceptions.md R261), the 32-bit word (10_state.md R31),
and the writes of its fields (60_exceptions.md R264, R265). -/

namespace Sys2Proof.Machine

/-- The number of a result code (60_exceptions.md R261). -/
def Code.number : Code → BitVec 8
  | .ok => 0
  | .illegalCmd => 1
  | .aborted => 2
  | .empty => 3
  | .ilvSize => 4
  | .bpsRange => 5
  | .modLen => 6
  | .gridCapacity => 7
  | .frameShort => 8
  | .size => 9
  | .capacity => 10

/-- The word the host reads from register 1 (10_state.md R31): bits 31:14 zero, then `sco_skip`, `cpe_skip`, `cfo_skip`,
`det_fallback`, `crc_fail`, `abort`, and `code` in bits 7:0. -/
def Status.word (s : Status) : BitVec 32 :=
  0#18 ++ BitVec.ofBool s.scoSkip ++ BitVec.ofBool s.cpeSkip ++ BitVec.ofBool s.cfoSkip ++ BitVec.ofBool s.detFallback ++
    BitVec.ofBool s.crcFail ++ BitVec.ofBool s.abort ++ s.code.number

/-- `STATUS.code <- code`, every other field kept. -/
def Status.withCode (s : Status) (code : Code) : Status := { s with code := code }

/-- What `raise E` does to `STATUS` (60_exceptions.md R265): the code and `abort`; the flags keep their values. -/
def Status.raised (s : Status) (e : Code) : Status := { s with code := e, abort := true }

/-- `flag crc_fail <- x` (60_exceptions.md R264). -/
def Status.withCrcFail (s : Status) (x : Bool) : Status := { s with crcFail := x }

/-- `flag det_fallback <- x` (60_exceptions.md R264). -/
def Status.withDetFallback (s : Status) (x : Bool) : Status := { s with detFallback := x }

/-- `flag cfo_skip <- x` (60_exceptions.md R264). -/
def Status.withCfoSkip (s : Status) (x : Bool) : Status := { s with cfoSkip := x }

/-- `flag cpe_skip <- x` (60_exceptions.md R264). -/
def Status.withCpeSkip (s : Status) (x : Bool) : Status := { s with cpeSkip := x }

/-- `flag sco_skip <- x` (60_exceptions.md R264). -/
def Status.withScoSkip (s : Status) (x : Bool) : Status := { s with scoSkip := x }

end Sys2Proof.Machine
end

