-- ==== Sys2Proof/Machine/Ops.lean ====
section
/-! DEFINITION. The operations every command shares: the shell of 40_control.md R100, raising an error (60_exceptions.md R265, the
block's "trap entry"), the refusal of a command while aborted (R266), and the way back from an abort, the two resets
(60_exceptions.md R267, 40_control.md R102 and R103). -/

namespace Sys2Proof.Machine

/-- `STATUS.code <- code`, nothing else. -/
def Block.withCode (b : Block) (code : Code) : Block := { b with status := b.status.withCode code }

/-- TAKING AN ERROR. `raise E` (60_exceptions.md R265, 00_scope.md R16): no buffer, register or tracker field changes;
`STATUS.code <- E`; `STATUS.abort <- 1`; the flags keep their values. -/
def Block.raise (b : Block) (e : Code) : Block := { b with status := b.status.raised e }

/-- A command other than the two resets while `STATUS.abort = 1` (60_exceptions.md R266): `STATUS.code <- ERR_ABORTED`,
nothing else changes. -/
def Block.refuse (b : Block) : Block := b.withCode .aborted

/-- The body's part of the shell (40_control.md R100): if it raises, nothing of it takes effect but the error; else all its
writes take effect and the code is `OK`. -/
def Block.complete (b : Block) : Except Code Block → Block
  | .ok b' => b'.withCode .ok
  | .error e => b.raise e

/-- The shell of every command but the two resets (40_control.md R100): refused while aborted, else the body, all or nothing. -/
def Block.shell (b : Block) (body : Except Code Block) : Block :=
  if b.status.abort then b.refuse else b.complete body

/-- An illegal word inside the shell (40_control.md R100, 30_encoding.md R85, R86): refused while aborted, else
`ERR_ILLEGAL_CMD`. -/
def Block.illegal (b : Block) : Block := if b.status.abort then b.refuse else b.raise .illegalCmd

/-- RETURN from an abort (60_exceptions.md R267): `TX_RESET` (40_control.md R102, 10_state.md R38) clears the per-transmission
state and `STATUS`, and keeps `CONST`, `PRE`, the tracker records and `SCO.prev`. -/
def Block.txReset (b : Block) : Block :=
  { b with
    pay := none, crcb := none, tot := none, cod := none, ilv := none, syms := none, grid := none, td := none, cps := none
    frame := none, start := 0, score := Num.zero, tbvalid := false, status := Status.reset }

/-- `RUN_RESET` (40_control.md R103): everything `TX_RESET` does, and `CONST`, `PRE`, the tracker records and `SCO.prev`. -/
def Block.runReset (b : Block) : Block :=
  { b.txReset with
    const := none, pre := none, cfo := Tracker.reset, cpe := Tracker.reset, sco := ScoTracker.reset, scoPrev := none }

/-- The state with its block replaced; the configuration and the host keep everything. -/
def State.withBlk (s : State) (b : Block) : State := { s with blk := b }

/-- A command that runs `body` inside the shell: it always ends in a next state, because an error is a `STATUS` value. -/
def State.runBody (s : State) (body : Except Code Block) : Host.Outcome State Fault Refusal :=
  .next (s.withBlk (s.blk.shell body))

end Sys2Proof.Machine
end

