-- ==== Sys2Proof/Machine/Operands.lean ====
section
/-! DEFINITION. The operands of the commands. A command names its buffers by its opcode (10_state.md R21, 20_memory.md R61); the
operand forms are a bit buffer or sample buffer by element index, a cell of the resource grid and its traversal order
(43_resource_grid.md R171), a row of a row-major array (10_state.md R23), and the immediate (30_encoding.md R82). -/

namespace Sys2Proof.Machine

/-- The result of a command whose indices rest on a condition `ok` of a consistent configuration, once its own checks have
passed: "an inconsistent configuration shows up as a fatal error of the first command that meets it"
(70_reset_and_hazards.md R292, 00_scope.md R11, 93_implementation_defined.md U14). Which command meets which condition, and the
code `ERR_SIZE`, the one of class (a) for "a length that the operation's definition needs" (60_exceptions.md R261), are the
model's (DESIGN CHOICE, log entry 4). -/
def ifConsistent (ok : Bool) (b : Block) : Except Code Block := if ok then .ok b else .error .size

/-- Element `i` of a bit sequence (00_scope.md R13). -/
def bitAt (xs : List Bit) (i : Nat) : Bit := xs.getD i false

/-- Element `i` of a sample sequence (00_scope.md R13). -/
def sampleAt (xs : List Cplx) (i : Nat) : Cplx := xs.getD i Cplx.zero

/-- `s[a ..< a+n]` (00_scope.md R13). -/
def slice {α : Type} (xs : List α) (a n : Nat) : List α := (xs.drop a).take n

/-- Row `l` of a row-major array whose rows have `w` elements (10_state.md R23). -/
def rowAt (xs : List Cplx) (w l : Nat) : List Cplx := (List.range w).map fun n => sampleAt xs (l * w + n)

/-- The flat index of cell (l, k) of an array whose rows have `w` elements (10_state.md R23). -/
def flatIdx (w l k : Nat) : Nat := l * w + k

/-- `GRID.data[l][k]`. -/
def Grid.dataAt (c : Cfg) (g : Grid) (l k : Nat) : Cplx := sampleAt g.data (flatIdx c.nSc l k)

/-- `GRID.pilot[l][p]`. -/
def Grid.pilotAt (c : Cfg) (g : Grid) (l p : Nat) : Cplx := sampleAt g.pilot (flatIdx c.nPil l p)

/-- The cell `RE(q)` of the traversal order (43_resource_grid.md R171): row `q div N_D`, column `DATA_IDX[q mod N_D]`. -/
def reCell (c : Cfg) (q : Nat) : Nat × Nat := (q / c.nD, c.dataIdx.getD (q % c.nD) 0)

/-- The flat index of `RE(q)` in `GRID.data`. -/
def reIdx (c : Cfg) (q : Nat) : Nat := flatIdx c.nSc (reCell c q).1 (reCell c q).2

/-- A pilot subcarrier: one of `PILOT_IDX`. -/
def isPilot (c : Cfg) (k : Nat) : Bool := c.pilotIdx.contains k

/-- Every data cell of a row-major `GRID.data` array is multiplied by the factor of its column; cells at pilot subcarriers are
not touched (46_sync_trackers.md R235 to R237, 10_state.md R28). -/
def rotateData (c : Cfg) (factor : Nat → Cplx) (data : List Cplx) : List Cplx :=
  data.mapIdx fun x z => if isPilot c (x % c.nSc) then z else z.times (factor (x % c.nSc))

end Sys2Proof.Machine
end

