-- ==== Sys2Proof/Machine/Codec.lean ====
section
/-! DEFINITION. The Transport Block Codec (41_transport_block_codec.md): the CRC-24, bit repetition and majority decoding, the
block interleaver, and the ten commands over them. -/

namespace Sys2Proof.Machine

/-! The functions. -/

/-- The incoming bit XORed into the top register bit: `t = reg XOR (bit << 23)` (41_transport_block_codec.md R121). -/
def crcInject (reg : CrcReg) (bit : Bit) : CrcReg := reg ^^^ (if bit then 0x800000 else 0)

/-- One CRC step (41_transport_block_codec.md R121), in the order of the configured variant; `u` and the shifted register are
the 25-bit values of the rule, cut to 24 bits at the end (47_arithmetic.md R320). -/
def crcStep (v : CrcVariant) (reg : CrcReg) (bit : Bit) : CrcReg :=
  let t := crcInject reg bit
  match v with
  | .xorThenShift =>
    let u := if t.getLsbD 23 then t.setWidth 25 ^^^ Config.crcPoly else t.setWidth 25
    (u <<< 1).setWidth 24
  | .shiftThenXor =>
    ((t.setWidth 25 <<< 1) ^^^ (if t.getLsbD 23 then Config.crcPoly else 0)).setWidth 24

/-- `crc24(bits)` from the register `reg` on (41_transport_block_codec.md R122). -/
def crcFrom (v : CrcVariant) (reg : CrcReg) (bits : List Bit) : CrcReg := bits.foldl (crcStep v) reg

/-- `crc24(bits)` (41_transport_block_codec.md R122): from all ones, bit 0 first, no final XOR. -/
def crc24 (v : CrcVariant) (bits : List Bit) : CrcReg := crcFrom v Config.crcInit bits

/-- `crc_bits(r) = [r[23], …, r[0]]` (41_transport_block_codec.md R123). -/
def crcBits (r : CrcReg) : List Bit := (List.range 24).map fun i => r.getLsbD (23 - i)

/-- `repeat_K(x)`: each bit K times in a row (41_transport_block_codec.md R129). -/
def repeatK (k : Nat) (x : List Bit) : List Bit := x.flatMap (List.replicate k)

/-- The number of ones in a list of bits. -/
def ones (x : List Bit) : Nat := x.countP (· = true)

/-- `majority_K(y)`: a bit is 1 when more than half of its K copies are (41_transport_block_codec.md R131); a tie gives 0. -/
def majorityK (k : Nat) (y : List Bit) : List Bit :=
  (List.range (y.length / k)).map fun i => decide (k < 2 * ones (slice y (i * k) k))

/-- `interleave(x)[c·R + r] = x[r·C + c]` (41_transport_block_codec.md R133). -/
def interleave (c : Cfg) (x : List Bit) : List Bit :=
  (List.range (c.ilvR * c.ilvC)).map fun o => bitAt x ((o % c.ilvR) * c.ilvC + o / c.ilvR)

/-- `deinterleave(y)[r·C + c] = y[c·R + r]` (41_transport_block_codec.md R134). -/
def deinterleave (c : Cfg) (y : List Bit) : List Bit :=
  (List.range (c.ilvR * c.ilvC)).map fun o => bitAt y ((o % c.ilvC) * c.ilvR + o / c.ilvC)

/-- The payload part of the total bits, all but the last 24 (41_transport_block_codec.md R128). -/
def payloadPart (t : List Bit) : List Bit := t.take (t.length - 24)

/-- The CRC part of the total bits, the last 24 (41_transport_block_codec.md R128). -/
def crcPart (t : List Bit) : List Bit := t.drop (t.length - 24)

/-- `ok = (crc24(TOT) = 0)` (41_transport_block_codec.md R125). -/
def crcOk (c : Cfg) (t : List Bit) : Bool := crc24 c.crcVariant t == 0

/-- The writes of a CRC check: `TBVALID <- ok ; flag crc_fail <- not ok` (41_transport_block_codec.md R125, R140). -/
def Block.withValidity (b : Block) (ok : Bool) : Block :=
  { b with tbvalid := ok, status := b.status.withCrcFail (!ok) }

/-! The bodies. -/

/-- 41_transport_block_codec.md R124. -/
def crcGenBody (c : Cfg) (b : Block) : Except Code Block :=
  match b.pay with
  | none => .error .empty
  | some p => .ok { b with crcb := some (crcBits (crc24 c.crcVariant p)) }

/-- 41_transport_block_codec.md R125. -/
def crcVerifyBody (c : Cfg) (b : Block) : Except Code Block :=
  match b.tot with
  | none => .error .empty
  | some t => .ok (b.withValidity (crcOk c t))

/-- 41_transport_block_codec.md R127. -/
def tbAppendBody (c : Cfg) (b : Block) : Except Code Block :=
  match b.pay, b.crcb with
  | some p, some r =>
    if c.capBits < p.length + r.length then .error .capacity
    else .ok { b with tot := some (p ++ r) }
  | _, _ => .error .empty

/-- 41_transport_block_codec.md R128. -/
def tbSplitBody (b : Block) : Except Code Block :=
  match b.tot with
  | none => .error .empty
  | some t =>
    if t.length < 24 then .error .size
    else .ok { b with pay := some (payloadPart t), crcb := some (crcPart t) }

/-- 41_transport_block_codec.md R130. -/
def repeatBody (c : Cfg) (b : Block) : Except Code Block :=
  match b.tot with
  | none => .error .empty
  | some t =>
    if c.capBits < c.kRep * t.length then .error .capacity
    else .ok { b with cod := some (repeatK c.kRep t) }

/-- 41_transport_block_codec.md R132. -/
def majorityBody (c : Cfg) (b : Block) : Except Code Block :=
  match b.cod with
  | none => .error .empty
  | some y =>
    if y.length % c.kRep ≠ 0 then .error .size
    else .ok { b with tot := some (majorityK c.kRep y) }

/-- 41_transport_block_codec.md R135. -/
def interleaveBody (c : Cfg) (b : Block) : Except Code Block :=
  match b.cod with
  | none => .error .empty
  | some x =>
    if x.length ≠ c.ilvR * c.ilvC then .error .ilvSize
    else .ok { b with ilv := some (interleave c x) }

/-- 41_transport_block_codec.md R136. -/
def deinterleaveBody (c : Cfg) (b : Block) : Except Code Block :=
  match b.ilv with
  | none => .error .empty
  | some y =>
    if y.length ≠ c.ilvR * c.ilvC then .error .ilvSize
    else .ok { b with cod := some (deinterleave c y) }

/-- 41_transport_block_codec.md R138. -/
def tbBuildBody (c : Cfg) (b : Block) : Except Code Block :=
  match b.pay with
  | none => .error .empty
  | some p =>
    let r := crcBits (crc24 c.crcVariant p)
    let t := p ++ r
    let d := repeatK c.kRep t
    if c.capBits < t.length then .error .capacity
    else if c.capBits < d.length then .error .capacity
    else if d.length ≠ c.ilvR * c.ilvC then .error .ilvSize
    else .ok { b with crcb := some r, tot := some t, cod := some d, ilv := some (interleave c d) }

/-- 41_transport_block_codec.md R139. -/
def tbProcessBody (c : Cfg) (b : Block) : Except Code Block :=
  match b.ilv with
  | none => .error .empty
  | some y =>
    if y.length ≠ c.ilvR * c.ilvC then .error .ilvSize
    else
      let d := deinterleave c y
      if d.length % c.kRep ≠ 0 then .error .size
      else
        let t := majorityK c.kRep d
        if t.length < 24 then .error .size
        else
          .ok (Block.withValidity
            { b with cod := some d, tot := some t, pay := some (payloadPart t), crcb := some (crcPart t) } (crcOk c t))

/-! The commands. -/

/-- `CRC_GEN` (41_transport_block_codec.md R124). -/
def execCrcGen (s : State) : Host.Outcome State Fault Refusal := s.runBody (crcGenBody s.cfg s.blk)

/-- `CRC_VERIFY` (41_transport_block_codec.md R125). -/
def execCrcVerify (s : State) : Host.Outcome State Fault Refusal := s.runBody (crcVerifyBody s.cfg s.blk)

/-- `TB_APPEND` (41_transport_block_codec.md R127). -/
def execTbAppend (s : State) : Host.Outcome State Fault Refusal := s.runBody (tbAppendBody s.cfg s.blk)

/-- `TB_SPLIT` (41_transport_block_codec.md R128). -/
def execTbSplit (s : State) : Host.Outcome State Fault Refusal := s.runBody (tbSplitBody s.blk)

/-- `REPEAT` (41_transport_block_codec.md R130). -/
def execRepeat (s : State) : Host.Outcome State Fault Refusal := s.runBody (repeatBody s.cfg s.blk)

/-- `MAJORITY` (41_transport_block_codec.md R132). -/
def execMajority (s : State) : Host.Outcome State Fault Refusal := s.runBody (majorityBody s.cfg s.blk)

/-- `INTERLEAVE` (41_transport_block_codec.md R135). -/
def execInterleave (s : State) : Host.Outcome State Fault Refusal := s.runBody (interleaveBody s.cfg s.blk)

/-- `DEINTERLEAVE` (41_transport_block_codec.md R136). -/
def execDeinterleave (s : State) : Host.Outcome State Fault Refusal := s.runBody (deinterleaveBody s.cfg s.blk)

/-- `TB_BUILD` (41_transport_block_codec.md R138). -/
def execTbBuild (s : State) : Host.Outcome State Fault Refusal := s.runBody (tbBuildBody s.cfg s.blk)

/-- `TB_PROCESS` (41_transport_block_codec.md R139). -/
def execTbProcess (s : State) : Host.Outcome State Fault Refusal := s.runBody (tbProcessBody s.cfg s.blk)

end Sys2Proof.Machine
end

