-- ==== Sys2Proof/Machine/Compare.lean ====
section
/-! DEFINITION. The comparison `a < b` of two reals, which the demapper, the frame search and the trackers need
(42_constellation.md R155, 44_frame_framer.md R200 and R203, 46_sync_trackers.md R231 and R240). "Comparisons against thresholds
… are exact in the reference arithmetic" (47_arithmetic.md R324), so `Num.lt` IS the order of the reals, for every two terms
(`Num.lt_iff`, Laws/Compare.lean). It is evaluated (1) exactly for rationals, signed roots and multiples of π, (2) by sign, (3) by
enclosures with 128 fractional bits, (4) by identity of the two terms; where these methods do not reach the order, it is
`Num.order`, a value of which the model has no evaluation and knows exactly that it is the order. -/

namespace Sys2Proof

/-- An enclosure of a real `x`: `lo ≤ x·2^128 ≤ hi`. -/
structure Encl where
  lo : Int
  hi : Int
deriving DecidableEq, Repr

/-- The unit of an enclosure, 2^128. -/
def Encl.unit : Int := 2 ^ 128

/-- An enclosure of a rational. -/
def Encl.ofRat (q : Rat) : Encl :=
  let n := q.num * Encl.unit / (q.den : Int)
  ⟨n, n + 1⟩

def Encl.neg (x : Encl) : Encl := ⟨-x.hi, -x.lo⟩

def Encl.add (x y : Encl) : Encl := ⟨x.lo + y.lo, x.hi + y.hi⟩

/-- The products of the end points, rounded outwards. -/
def Encl.mul (x y : Encl) : Encl :=
  let a := x.lo * y.lo
  let b := x.lo * y.hi
  let c := x.hi * y.lo
  let d := x.hi * y.hi
  ⟨min (min a b) (min c d) / Encl.unit, max (max a b) (max c d) / Encl.unit + 1⟩

/-- The reciprocal, where the sign is certain. -/
def Encl.inv (x : Encl) : Option Encl :=
  if 0 < x.lo then some ⟨Encl.unit * Encl.unit / x.hi, Encl.unit * Encl.unit / x.lo + 1⟩
  else if x.hi < 0 then some ⟨-(Encl.unit * Encl.unit / (-x.hi) + 1), -(Encl.unit * Encl.unit / (-x.lo))⟩
  else none

/-- The square root (of the non-negative part). -/
def Encl.sqrt (x : Encl) : Encl :=
  ⟨(Nat.sqrt (x.lo * Encl.unit).toNat : Int), (Nat.sqrt (x.hi * Encl.unit).toNat : Int) + 1⟩

def Encl.abs (x : Encl) : Encl :=
  if 0 ≤ x.lo then x else if x.hi ≤ 0 then x.neg else ⟨0, max (-x.lo) x.hi⟩

/-- π to 20 decimals. -/
def Encl.pi : Encl :=
  ⟨Encl.unit * 314159265358979323846 / 10 ^ 20, Encl.unit * 314159265358979323847 / 10 ^ 20 + 1⟩

/-- `cos 2x = 2·cos² x − 1`, kept inside [−1, 1]. -/
def Encl.doubleCos (c : Encl) : Encl :=
  let q := c.mul c
  ⟨max (2 * q.lo - Encl.unit) (-Encl.unit), min (2 * q.hi - Encl.unit) Encl.unit⟩

/-- `Encl.doubleCos` applied `n` times. -/
def Encl.doubleCosTimes : Nat → Encl → Encl
  | 0, c => c
  | n + 1, c => Encl.doubleCosTimes n c.doubleCos

/-- The cosine of the point `lo/2^128`: the polynomial `1 − y²/2` at `y = lo/2^168` with its error bound, doubled 40 times. -/
def Encl.cosPoint (lo : Int) : Encl :=
  if lo.natAbs ≤ 2 ^ 168 then
    let y : Encl := ⟨lo / 2 ^ 40, lo / 2 ^ 40 + 1⟩
    let q := y.mul y
    let e := (q.mul q).hi
    Encl.doubleCosTimes 40 ⟨Encl.unit - (q.hi / 2 + 1) - e, Encl.unit - q.lo / 2 + e⟩
  else ⟨-Encl.unit, Encl.unit⟩

/-- The cosine: its value at the lower end, widened by the width. -/
def Encl.cos (x : Encl) : Encl :=
  let c := Encl.cosPoint x.lo
  ⟨c.lo - (x.hi - x.lo), c.hi + (x.hi - x.lo)⟩

/-- `sin x = cos (x − π/2)`. -/
def Encl.sin (x : Encl) : Encl := Encl.cos (x.add (Encl.mul (Encl.ofRat (-1 / 2)) Encl.pi))

/-- The tangent of half the angle whose tangent is `t`: `t / (1 + √(1 + t²))`. -/
def Encl.halfTan (t : Encl) : Option Encl :=
  ((Encl.ofRat 1).add ((Encl.ofRat 1).add (t.mul t)).sqrt).inv.map t.mul

/-- `Encl.halfTan` applied `n` times. -/
def Encl.halfTanTimes : Nat → Encl → Option Encl
  | 0, t => some t
  | n + 1, t => t.halfTan.bind (Encl.halfTanTimes n)

/-- The arc tangent: the angle is halved 40 times, where it differs from its tangent `u` by at most `|u|³`. -/
def Encl.atan (t : Encl) : Encl :=
  match Encl.halfTanTimes 40 t with
  | some u =>
    let e := (u.abs.mul (u.abs.mul u.abs)).hi
    ⟨(u.lo - e) * 2 ^ 40, (u.hi + e) * 2 ^ 40⟩
  | none => ⟨-2 * Encl.unit, 2 * Encl.unit⟩

/-- `x / y`, where the sign of `y` is certain. -/
def Encl.div (x y : Encl) : Option Encl := y.inv.map x.mul

/-- The principal argument of `x + j·y` in the half plane right of, above, below or left of the origin; within [−4, 4] where
the point may lie on either side of the cut. -/
def Encl.arg (x y : Encl) : Encl :=
  let quarter := Encl.mul (Encl.ofRat (1 / 2)) Encl.pi
  (if 0 < x.lo then (y.div x).map Encl.atan
    else if 0 < y.lo then (x.div y).map fun t => quarter.add t.atan.neg
    else if y.hi < 0 then (x.div y).map fun t => (quarter.add t.atan).neg
    else if x.hi < 0 ∧ 0 ≤ y.lo then (y.div x).map fun t => Encl.pi.add t.atan
    else none).getD ⟨-4 * Encl.unit, 4 * Encl.unit⟩

namespace Num

/-- An enclosure of a number, where the term gives one. -/
def encl? : Num → Option Encl
  | .free _ => none
  | .rat q => some (Encl.ofRat q)
  | .root q => some (if 0 ≤ q then (Encl.ofRat q).sqrt else (Encl.ofRat (-q)).sqrt.neg)
  | .piMul q => some ((Encl.ofRat q).mul Encl.pi)
  | .add a b =>
    match a.encl?, b.encl? with
    | some x, some y => some (x.add y)
    | _, _ => none
  | .neg a => a.encl?.map Encl.neg
  | .mul a b =>
    match a.encl?, b.encl? with
    | some x, some y => some (x.mul y)
    | _, _ => none
  | .inv a => a.encl?.bind Encl.inv
  | .sqrt a => a.encl?.map Encl.sqrt
  | .abs a => a.encl?.map Encl.abs
  | .cos a => a.encl?.map Encl.cos
  | .sin a => a.encl?.map Encl.sin
  | .arg a b =>
    match a.encl?, b.encl? with
    | some x, some y => some (x.arg y)
    | _, _ => some ⟨-4 * Encl.unit, 4 * Encl.unit⟩

/-- Terms whose value is at least 0 by their form. -/
def isNonneg : Num → Bool
  | .rat q => decide (0 ≤ q)
  | .root q => decide (0 ≤ q)
  | .piMul q => decide (0 ≤ q)
  | .sqrt _ => true
  | .abs _ => true
  | .mul a b => decide (a = b)
  | .add a b => a.isNonneg && b.isNonneg
  | _ => false

/-- Terms whose value is at most 0 by their form. -/
def isNonpos : Num → Bool
  | .rat q => decide (q ≤ 0)
  | .root q => decide (q ≤ 0)
  | .piMul q => decide (q ≤ 0)
  | _ => false

/-- Rationals and signed roots are compared by their signed squares, multiples of π by their factors. -/
def ltExact? (a b : Num) : Option Bool :=
  match signedSq? a, signedSq? b with
  | some x, some y => some (decide (x < y))
  | _, _ =>
    match a, b with
    | .piMul p, .piMul q => some (decide (p < q))
    | _, _ => none

/-- Disjoint enclosures settle a comparison. -/
def ltEncl? (a b : Num) : Option Bool :=
  match a.encl?, b.encl? with
  | some x, some y => if x.hi < y.lo then some true else if y.hi ≤ x.lo then some false else none
  | _, _ => none

/-- The comparison, where the model settles it. -/
def lt? (a b : Num) : Option Bool :=
  match ltExact? a b with
  | some r => some r
  | none =>
    if a.isNonneg && b.isNonpos then some false
    else
      match ltEncl? a b with
      | some r => some r
      | none => if a = b then some false else none

/-- What it is to decide `a < b` over the reals. -/
abbrev LtDecision (a b : Num) : Type := { r : Bool // r = true ↔ a.val < b.val }

/-- The order of two reals is one of two outcomes. -/
theorem ltDecision_nonempty (a b : Num) : Nonempty (LtDecision a b) := by
  by_cases h : a.val < b.val
  · exact ⟨true, by simpa using h⟩
  · exact ⟨false, by simpa using h⟩

/-- The order of the reals that `a` and `b` stand for (47_arithmetic.md R324), by its type: the one `Bool` that is `true` exactly
when `a.val < b.val`. No method computes it for every two terms, so its equation says nothing and only its type does
(DEDUCED, log entry 2). -/
def order (a b : Num) [Nonempty (LtDecision a b)] : LtDecision a b := order a b
partial_fixpoint

/-- `a < b` (47_arithmetic.md R324). -/
def lt (a b : Num) : Bool :=
  match lt? a b with
  | some r => r
  | none =>
    have := ltDecision_nonempty a b
    (order a b).val

end Num

end Sys2Proof
end

