-- ==== Sys2Proof/Machine/Constellation.lean ====
section
/-! DEFINITION. The Constellation Modulator (42_constellation.md): the spiral constellation, the bit mapper and the nearest-point
demapper. -/

namespace Sys2Proof.Machine

/-- `pt(i) = sqrt(2(i+1)/(M+1)) · (cos((i+1)Δ) + j·sin((i+1)Δ))` (42_constellation.md R152, R153). -/
def spiralPoint (m i : Nat) : Cplx :=
  Cplx.scale (Num.root2 (.rat ((2 * (i + 1) : Rat) / (m + 1)))) (Cplx.cis ((Num.ofNat (i + 1)).times Config.angleStep))

/-- The record `CONST_BUILD b` writes (42_constellation.md R153). -/
def buildConst (c : Cfg) (b : Nat) : Const where
  b := b
  pt := (List.range (2 ^ b)).map (spiralPoint (2 ^ b))
  tup := c.bitmap b

/-- The lowest index whose tuple is `grp` (42_constellation.md R154). -/
def tupleIndex (k : Const) (grp : List Bit) : Nat := k.tup.findIdx (fun t => t == grp)

/-- The symbols of a bit sequence: group `g` is `ILV[g·b ..< (g+1)·b]` (42_constellation.md R154). -/
def modulateBits (k : Const) (bits : List Bit) : List Cplx :=
  (List.range (bits.length / k.b)).map fun g => sampleAt k.pt (tupleIndex k (slice bits (g * k.b) k.b))

/-- `d(i)`, the squared Euclidean distance to point `i` (42_constellation.md R155). -/
def distSq (y p : Cplx) : Num :=
  ((y.re.minus p.re).times (y.re.minus p.re)).plus ((y.im.minus p.im).times (y.im.minus p.im))

/-- One step of the ascending scan: `if d(i) < d(best) then best = i` (42_constellation.md R155, R156: a tie keeps the lower
index). -/
def nearer (pt : List Cplx) (y : Cplx) (best i : Nat) : Nat :=
  if Num.lt (distSq y (sampleAt pt i)) (distSq y (sampleAt pt best)) then i else best

/-- `best` after the scan over i = 1 … M−1 (42_constellation.md R155). -/
def nearest (pt : List Cplx) (y : Cplx) : Nat := (List.range' 1 (pt.length - 1)).foldl (nearer pt y) 0

/-- The bits of a symbol sequence (42_constellation.md R155). -/
def demodulateSyms (k : Const) (ys : List Cplx) : List Bit := ys.flatMap fun y => k.tup.getD (nearest k.pt y) []

/-- 42_constellation.md R153. -/
def constBuildBody (c : Cfg) (imm : Nat) (b : Block) : Except Code Block :=
  if c.supports imm then .ok { b with const := some (buildConst c imm) } else .error .bpsRange

/-- 42_constellation.md R154. -/
def modulateBody (c : Cfg) (b : Block) : Except Code Block :=
  match b.ilv, b.const with
  | some bits, some k =>
    if bits.length % k.b ≠ 0 then .error .modLen
    else if c.capSyms < bits.length / k.b then .error .capacity
    else .ok { b with syms := some (modulateBits k bits) }
  | _, _ => .error .empty

/-- 42_constellation.md R155. -/
def demodulateBody (c : Cfg) (b : Block) : Except Code Block :=
  match b.syms, b.const with
  | some ys, some k =>
    if c.capBits < k.b * ys.length then .error .capacity
    else .ok { b with ilv := some (demodulateSyms k ys) }
  | _, _ => .error .empty

/-- `CONST_BUILD b` (42_constellation.md R153). -/
def execConstBuild (imm : Nat) (s : State) : Host.Outcome State Fault Refusal := s.runBody (constBuildBody s.cfg imm s.blk)

/-- `MODULATE` (42_constellation.md R154). -/
def execModulate (s : State) : Host.Outcome State Fault Refusal := s.runBody (modulateBody s.cfg s.blk)

/-- `DEMODULATE` (42_constellation.md R155). -/
def execDemodulate (s : State) : Host.Outcome State Fault Refusal := s.runBody (demodulateBody s.cfg s.blk)

end Sys2Proof.Machine
end

