-- ==== Sys2Proof/Machine/Control.lean ====
section
/-! DEFINITION. The control commands (40_control.md): `NOP`, `TX_RESET`, `RUN_RESET`. -/

namespace Sys2Proof.Machine

/-- `NOP` (40_control.md R101): the empty body inside the shell. -/
def execNop (s : State) : Host.Outcome State Fault Refusal := s.runBody (.ok s.blk)

/-- `TX_RESET` (40_control.md R102): accepted while aborted; the way out of an aborted transmission. -/
def execTxReset (s : State) : Host.Outcome State Fault Refusal := .next (s.withBlk s.blk.txReset)

/-- `RUN_RESET` (40_control.md R103): accepted while aborted; the block is as after hardware reset. -/
def execRunReset (s : State) : Host.Outcome State Fault Refusal := .next (s.withBlk s.blk.runReset)

end Sys2Proof.Machine
end

