-- ==== Sys2Proof/Machine/Framer.lean ====
section
/-! DEFINITION. The Frame Framer (44_frame_framer.md): preamble, cyclic prefix, frame build, frame-start search, payload
extraction. -/

namespace Sys2Proof.Machine

/-- `pre(i)`: +1 for a synchronisation bit 1, −1 for 0 (44_frame_framer.md R191). -/
def preSample (bit : Bit) : Cplx := Cplx.ofNum (if bit then .rat 1 else .rat (-1))

/-- The preamble (44_frame_framer.md R191, R192). -/
def preamble (c : Cfg) : List Cplx := c.syncBits.map preSample

/-- `add_cp(x) = x[N−G ..< N] ++ x` (44_frame_framer.md R193). -/
def addCp (c : Cfg) (x : List Cplx) : List Cplx := x.drop (c.nFft - c.nCp) ++ x

/-- `rem_cp(y) = y[G ..< G+N]` (44_frame_framer.md R193). -/
def remCp (c : Cfg) (y : List Cplx) : List Cplx := slice y c.nCp c.nFft

/-- The cyclic-prefixed symbols, concatenated (44_frame_framer.md R194). -/
def addCps (c : Cfg) (td : List Cplx) : List Cplx := (List.range c.nSym).flatMap fun l => addCp c (rowAt td c.nFft l)

/-- The symbols without their prefixes (44_frame_framer.md R195). -/
def removeCps (c : Cfg) (cps : List Cplx) : List Cplx :=
  (List.range c.nSym).flatMap fun l => remCp c (slice cps (l * c.lSym) c.lSym)

/-- `corr(d) = Σ_{i<L} r[d+i]·conj(p[i])` (44_frame_framer.md R200). -/
def corrAt (l : Nat) (r p : List Cplx) (d : Nat) : Cplx :=
  Cplx.sum ((List.range l).map fun i => (sampleAt r (d + i)).times (sampleAt p i).conj)

/-- `Σ_{i<L} |x[d+i]|²`: `E_r(d)`, and `E_p` at d = 0 (44_frame_framer.md R200). -/
def energyAt (l : Nat) (x : List Cplx) (d : Nat) : Num :=
  Num.sum ((List.range l).map fun i => (sampleAt x (d + i)).normSq)

/-- `score(d)` (44_frame_framer.md R200): 0 for a zero-energy segment. -/
def scoreAt (l : Nat) (r p : List Cplx) (d : Nat) : Num :=
  let e := (energyAt l r d).times (energyAt l p 0)
  if Num.lt Num.zero e then (corrAt l r p d).abs.div e.root2 else Num.zero

/-- `best` and `smax` of the search (44_frame_framer.md R203). -/
structure Found where
  best : Option Nat
  smax : Num
deriving DecidableEq, Repr

/-- One offset of the search: `if best = none or s > smax: best = d ; smax = s` (44_frame_framer.md R203). -/
def searchStep (score : Nat → Num) (f : Found) (d : Nat) : Found :=
  if f.best.isNone || Num.lt f.smax (score d) then ⟨some d, score d⟩ else f

/-- The search over the offsets d = 0 … W−1, ascending (44_frame_framer.md R201, R203). -/
def search (score : Nat → Num) (w : Nat) : Found := (List.range w).foldl (searchStep score) ⟨none, Num.zero⟩

/-- The search in a frame: `W = max(0, FRAME.len − L_PRE)` offsets (44_frame_framer.md R201). -/
def detect (c : Cfg) (r p : List Cplx) : Found := search (scoreAt c.lPre r p) (r.length - c.lPre)

/-- The writes of `FRAME_DETECT` (44_frame_framer.md R202, R203, R205): the start of the payload after a maximum above the
threshold, else the fallback. -/
def Block.withDetection (c : Cfg) (b : Block) (f : Found) : Block :=
  match f.best with
  | some d =>
    if Num.lt Config.detThresh f.smax then
      { b with start := d + c.lPre, score := f.smax, status := b.status.withDetFallback false }
    else { b with start := c.fallbackStart, score := f.smax, status := b.status.withDetFallback true }
  | none => { b with start := c.fallbackStart, score := f.smax, status := b.status.withDetFallback true }

/-- 44_frame_framer.md R192. -/
def preGenBody (c : Cfg) (b : Block) : Except Code Block := .ok { b with pre := some (preamble c) }

/-- 44_frame_framer.md R194. -/
def cpAddBody (c : Cfg) (b : Block) : Except Code Block :=
  match b.td with
  | none => .error .empty
  | some x =>
    if c.capFrame < c.lPl then .error .capacity else ifConsistent c.prefixOk { b with cps := some (addCps c x) }

/-- 44_frame_framer.md R195. -/
def cpRemoveBody (c : Cfg) (b : Block) : Except Code Block :=
  match b.cps with
  | none => .error .empty
  | some y => if y.length ≠ c.lPl then .error .size else .ok { b with td := some (removeCps c y) }

/-- 44_frame_framer.md R196. -/
def frameBuildBody (c : Cfg) (b : Block) : Except Code Block :=
  match b.pre, b.cps with
  | some p, some y =>
    if y.length ≠ c.lPl then .error .size
    else if c.capFrame < c.lFrame then .error .capacity
    else .ok { b with frame := some (p ++ y) }
  | _, _ => .error .empty

/-- 44_frame_framer.md R203. -/
def frameDetectBody (c : Cfg) (b : Block) : Except Code Block :=
  match b.pre, b.frame with
  | some p, some r => .ok (b.withDetection c (detect c r p))
  | _, _ => .error .empty

/-- 44_frame_framer.md R209. -/
def frameExtractBody (c : Cfg) (b : Block) : Except Code Block :=
  match b.frame with
  | none => .error .empty
  | some r =>
    if r.length < b.start + c.lPl then .error .frameShort
    else .ok { b with cps := some (slice r b.start c.lPl) }

/-- `PRE_GEN` (44_frame_framer.md R192). -/
def execPreGen (s : State) : Host.Outcome State Fault Refusal := s.runBody (preGenBody s.cfg s.blk)

/-- `CP_ADD` (44_frame_framer.md R194). -/
def execCpAdd (s : State) : Host.Outcome State Fault Refusal := s.runBody (cpAddBody s.cfg s.blk)

/-- `CP_REMOVE` (44_frame_framer.md R195). -/
def execCpRemove (s : State) : Host.Outcome State Fault Refusal := s.runBody (cpRemoveBody s.cfg s.blk)

/-- `FRAME_BUILD` (44_frame_framer.md R196). -/
def execFrameBuild (s : State) : Host.Outcome State Fault Refusal := s.runBody (frameBuildBody s.cfg s.blk)

/-- `FRAME_DETECT` (44_frame_framer.md R203). -/
def execFrameDetect (s : State) : Host.Outcome State Fault Refusal := s.runBody (frameDetectBody s.cfg s.blk)

/-- `FRAME_EXTRACT` (44_frame_framer.md R209). -/
def execFrameExtract (s : State) : Host.Outcome State Fault Refusal := s.runBody (frameExtractBody s.cfg s.blk)

end Sys2Proof.Machine
end

