-- ==== Sys2Proof/Machine/ResourceGrid.lean ====
section
/-! DEFINITION. The Resource Grid Mapper and the DFT pair (43_resource_grid.md). -/

namespace Sys2Proof.Machine

/-- The grid `GRID_INIT` writes (43_resource_grid.md R172). -/
def freshGrid (c : Cfg) : Grid where
  data := List.replicate (c.nSym * c.nSc) Cplx.zero
  pilot := List.replicate (c.nSym * c.nPil) c.pilotVal

/-- `for q < n: GRID.data[RE(q)] <- SYMS[q]` (43_resource_grid.md R173). -/
def mapSyms (c : Cfg) (syms data : List Cplx) : List Cplx :=
  (List.range syms.length).foldl (fun d q => d.set (reIdx c q) (sampleAt syms q)) data

/-- `[ GRID.data[RE(q)] | q < n ]` (43_resource_grid.md R174). -/
def extractSyms (c : Cfg) (n : Nat) (data : List Cplx) : List Cplx :=
  (List.range n).map fun q => sampleAt data (reIdx c q)

/-- The value of grid subcarrier `k` of OFDM symbol `l` as it is sent: the pilot array at a pilot subcarrier, the data array
elsewhere (43_resource_grid.md R175). -/
def carrier (c : Cfg) (g : Grid) (l k : Nat) : Cplx :=
  if isPilot c k then g.pilotAt c l (c.pilotIdx.idxOf k) else g.dataAt c l k

/-- The frequency vector `X_l` (43_resource_grid.md R175): grid subcarrier `k` in bin `SC_OFFSET + k`, 0 elsewhere. -/
def freqVector (c : Cfg) (g : Grid) (l : Nat) : List Cplx :=
  (List.range c.nFft).map fun m =>
    if c.scOffset ≤ m ∧ m - c.scOffset < c.nSc then carrier c g l (m - c.scOffset) else Cplx.zero

/-- `1/sqrt(N)`. -/
def dftNorm (n : Nat) : Num := (Num.root2 (.rat n)).recip

/-- `IDFT_N(X)[n]` (43_resource_grid.md R176). -/
def idftAt (xs : List Cplx) (n : Nat) : Cplx :=
  Cplx.scale (dftNorm xs.length)
    (Cplx.sum ((List.range xs.length).map fun k =>
      (sampleAt xs k).times (Cplx.cis (Num.pi ((2 * k * n : Nat) / (xs.length : Rat))))))

/-- `IDFT_N(X)` (43_resource_grid.md R176). -/
def idft (xs : List Cplx) : List Cplx := (List.range xs.length).map (idftAt xs)

/-- `DFT_N(x)[k]` (43_resource_grid.md R177). -/
def dftAt (xs : List Cplx) (k : Nat) : Cplx :=
  Cplx.scale (dftNorm xs.length)
    (Cplx.sum ((List.range xs.length).map fun n =>
      (sampleAt xs n).times (Cplx.cis (Num.pi (-((2 * k * n : Nat) / (xs.length : Rat)))))))

/-- `DFT_N(x)` (43_resource_grid.md R177). -/
def dft (xs : List Cplx) : List Cplx := (List.range xs.length).map (dftAt xs)

/-- The time-domain symbols of a grid, one row per OFDM symbol (43_resource_grid.md R178). -/
def gridToTime (c : Cfg) (g : Grid) : List Cplx := (List.range c.nSym).flatMap fun l => idft (freqVector c g l)

/-- The grid of the time-domain symbols (43_resource_grid.md R179): the data array holds 0 at the pilot subcarriers. -/
def timeToGrid (c : Cfg) (td : List Cplx) : Grid where
  data := (List.range c.nSym).flatMap fun l =>
    let x := dft (rowAt td c.nFft l)
    (List.range c.nSc).map fun k => if isPilot c k then Cplx.zero else sampleAt x (c.scOffset + k)
  pilot := (List.range c.nSym).flatMap fun l =>
    let x := dft (rowAt td c.nFft l)
    c.pilotIdx.map fun k => sampleAt x (c.scOffset + k)

/-- 43_resource_grid.md R172. -/
def gridInitBody (c : Cfg) (b : Block) : Except Code Block := .ok { b with grid := some (freshGrid c) }

/-- 43_resource_grid.md R173. -/
def gridMapBody (c : Cfg) (b : Block) : Except Code Block :=
  match b.syms, b.grid with
  | some ys, some g =>
    if c.cap < ys.length then .error .gridCapacity
    else ifConsistent c.pilotsOk { b with grid := some { g with data := mapSyms c ys g.data } }
  | _, _ => .error .empty

/-- 43_resource_grid.md R174. -/
def gridExtractBody (c : Cfg) (imm : Nat) (b : Block) : Except Code Block :=
  match b.grid with
  | none => .error .empty
  | some g =>
    if c.cap < imm then .error .gridCapacity
    else if c.capSyms < imm then .error .capacity
    else ifConsistent c.pilotsOk { b with syms := some (extractSyms c imm g.data) }

/-- 43_resource_grid.md R178. -/
def grid2tdBody (c : Cfg) (b : Block) : Except Code Block :=
  match b.grid with
  | none => .error .empty
  | some g => ifConsistent (c.pilotsOk && c.binsOk) { b with td := some (gridToTime c g) }

/-- 43_resource_grid.md R179. -/
def td2gridBody (c : Cfg) (b : Block) : Except Code Block :=
  match b.td with
  | none => .error .empty
  | some x => ifConsistent (c.pilotsOk && c.binsOk) { b with grid := some (timeToGrid c x) }

/-- `GRID_INIT` (43_resource_grid.md R172). -/
def execGridInit (s : State) : Host.Outcome State Fault Refusal := s.runBody (gridInitBody s.cfg s.blk)

/-- `GRID_MAP` (43_resource_grid.md R173). -/
def execGridMap (s : State) : Host.Outcome State Fault Refusal := s.runBody (gridMapBody s.cfg s.blk)

/-- `GRID_EXTRACT n` (43_resource_grid.md R174). -/
def execGridExtract (imm : Nat) (s : State) : Host.Outcome State Fault Refusal := s.runBody (gridExtractBody s.cfg imm s.blk)

/-- `GRID2TD` (43_resource_grid.md R178). -/
def execGrid2td (s : State) : Host.Outcome State Fault Refusal := s.runBody (grid2tdBody s.cfg s.blk)

/-- `TD2GRID` (43_resource_grid.md R179). -/
def execTd2grid (s : State) : Host.Outcome State Fault Refusal := s.runBody (td2gridBody s.cfg s.blk)

end Sys2Proof.Machine
end

