-- ==== Sys2Proof/Machine/Trackers.lean ====
section
/-! DEFINITION. The three Synchronization Trackers (46_sync_trackers.md): CFO residual, common phase error, sampling clock
offset. -/

namespace Sys2Proof.Machine

/-- A valid pilot: magnitude strictly above 0.1 (46_sync_trackers.md R231). -/
def validPilot (z : Cplx) : Bool := Num.lt Config.pilMagThresh z.abs

/-- `φ = arg(pilot · conj(PILOT_VAL))` (46_sync_trackers.md R232). -/
def pilotPhase (c : Cfg) (z : Cplx) : Num := (z.times c.pilotVal.conj).arg

/-- The arithmetic mean of a non-empty list (46_sync_trackers.md R235, D40). -/
def mean (xs : List Num) : Num := (Num.sum xs).div (Num.ofNat xs.length)

/-- `α·new + (1 − α)·filtered` (46_sync_trackers.md R233). -/
def smooth (α new filt : Num) : Num := (α.times new).plus ((Num.one.minus α).times filt)

/-- `iir(X, new)`: the first accepted estimate seeds the filter (46_sync_trackers.md R233). -/
def Tracker.iir (α new : Num) (t : Tracker) : Tracker :=
  { t with raw := new, filt := if t.init then smooth α new t.filt else new, init := true }

/-- `TRK.X.nvalid <- n` (46_sync_trackers.md R234, R239). -/
def Tracker.withCount (t : Tracker) (n : Nat) : Tracker := { t with nvalid := n }

/-- `|θ| < EPS_CORR`: the correction is not applied (46_sync_trackers.md R240). -/
def nearZero (c : Cfg) (θ : Num) : Bool := Num.lt θ.magnitude c.epsCorr

/-- `e^{−jθ}`: every correction rotates by the negated angle (46_sync_trackers.md R241). -/
def unrotate (θ : Num) : Cplx := Cplx.cis θ.negate

/-! CFO residual. -/

/-- The valid pilots of the frame, V (46_sync_trackers.md R235). -/
def validPilots (g : Grid) : List Cplx := g.pilot.filter validPilot

/-- The gate "≥1/3 of all pilots" fails (46_sync_trackers.md R234, R235). -/
def cfoGated (c : Cfg) (n : Nat) : Bool := n == 0 || decide (3 * n < c.nSym * c.nPil)

/-- The new CFO estimate: the mean of the pilots' phases (46_sync_trackers.md R235). -/
def cfoEstimate (c : Cfg) (g : Grid) : Num := mean ((validPilots g).map (pilotPhase c))

/-- Every data cell and every pilot, valid or not, rotated by −θ (46_sync_trackers.md R235). -/
def cfoRotate (c : Cfg) (θ : Num) (g : Grid) : Grid where
  data := rotateData c (fun _ => unrotate θ) g.data
  pilot := g.pilot.map fun z => z.times (unrotate θ)

/-- The block after `CFO_TRACK` on the grid `g` (46_sync_trackers.md R235). -/
def Block.cfoTracked (c : Cfg) (b : Block) (g : Grid) : Block :=
  let n := (validPilots g).length
  if cfoGated c n then { b with cfo := b.cfo.withCount n, status := b.status.withCfoSkip true }
  else
    let t := (b.cfo.iir c.alphaCfo (cfoEstimate c g)).withCount n
    if nearZero c t.filt then { b with cfo := t, status := b.status.withCfoSkip true }
    else { b with cfo := t, grid := some (cfoRotate c t.filt g), status := b.status.withCfoSkip false }

/-- 46_sync_trackers.md R235. -/
def cfoTrackBody (c : Cfg) (b : Block) : Except Code Block :=
  match b.grid with
  | none => .error .empty
  | some g => ifConsistent c.pilotsOk (b.cfoTracked c g)

/-! Common phase error. -/

/-- The valid pilots of OFDM symbol `l`, V_l (46_sync_trackers.md R236). -/
def symbolPilots (c : Cfg) (g : Grid) (l : Nat) : List Cplx := (rowAt g.pilot c.nPil l).filter validPilot

/-- The valid pilots of each usable symbol, the symbols S in order (46_sync_trackers.md R236). -/
def usableSymbols (c : Cfg) (g : Grid) : List (List Cplx) :=
  ((List.range c.nSym).map (symbolPilots c g)).filter fun v => !v.isEmpty

/-- `n = Σ_l |V_l|` (46_sync_trackers.md R236). -/
def cpeCount (c : Cfg) (g : Grid) : Nat := ((usableSymbols c g).map List.length).sum

/-- The gate "at least half the OFDM symbols" fails (46_sync_trackers.md R236). -/
def cpeGated (c : Cfg) (usable : Nat) : Bool := usable == 0 || decide (2 * usable < c.nSym)

/-- `arg(Σ_{l∈S} e^{jφ_l})` with φ_l the mean phase of the symbol's valid pilots (46_sync_trackers.md R236). -/
def cpeEstimate (c : Cfg) (g : Grid) : Num :=
  (Cplx.sum ((usableSymbols c g).map fun v => Cplx.cis (mean (v.map (pilotPhase c))))).arg

/-- The block after `CPE_TRACK` on the grid `g` (46_sync_trackers.md R236). -/
def Block.cpeTracked (c : Cfg) (b : Block) (g : Grid) : Block :=
  let n := cpeCount c g
  if cpeGated c (usableSymbols c g).length then
    { b with cpe := b.cpe.withCount n, status := b.status.withCpeSkip true }
  else
    let t := (b.cpe.iir c.alphaCpe (cpeEstimate c g)).withCount n
    if nearZero c t.filt then { b with cpe := t, status := b.status.withCpeSkip true }
    else
      { b with
        cpe := t, grid := some { g with data := rotateData c (fun _ => unrotate t.filt) g.data }
        status := b.status.withCpeSkip false }

/-- 46_sync_trackers.md R236. -/
def cpeTrackBody (c : Cfg) (b : Block) : Except Code Block :=
  match b.grid with
  | none => .error .empty
  | some g => ifConsistent c.pilotsOk (b.cpeTracked c g)

/-! Sampling clock offset. -/

/-- The pairs W of current and previous pilots, both valid, position by position (46_sync_trackers.md R237). -/
def validPairs (cur prev : List Cplx) : List (Cplx × Cplx) :=
  (cur.zip prev).filter fun z => validPilot z.1 && validPilot z.2

/-- The gate "≥1/2 of pilot pairs" fails (46_sync_trackers.md R237). -/
def scoGated (c : Cfg) (n : Nat) : Bool := n == 0 || decide (2 * n < c.nSym * c.nPil)

/-- The mean of `arg(cur · conj(prev))` over the valid pairs (46_sync_trackers.md R237). -/
def scoEstimate (cur prev : List Cplx) : Num := mean ((validPairs cur prev).map fun z => (z.1.times z.2.conj).arg)

/-- The correction factor of column `k` (46_sync_trackers.md R237): uniform, or a ramp from `K_CENTER`. -/
def scoFactor (c : Cfg) (θ : Num) (k : Nat) : Cplx :=
  match c.scoMode with
  | .uniform => unrotate θ
  | .ramp => unrotate (θ.times ((Num.ofNat k).minus c.kCenter))

/-- The record after an accepted SCO estimate (46_sync_trackers.md R237): filter, accumulate the filtered value just
written, count the update. -/
def ScoTracker.accept (c : Cfg) (new : Num) (n : Nat) (t : ScoTracker) : ScoTracker :=
  let f := (t.trk.iir c.alphaSco new).withCount n
  { trk := f, acc := t.acc.plus f.filt, nupd := t.nupd + 1 }

/-- `TRK.SCO.nvalid <- n` (46_sync_trackers.md R237). -/
def ScoTracker.withCount (t : ScoTracker) (n : Nat) : ScoTracker := { t with trk := t.trk.withCount n }

/-- The block after a gated, a near-zero or a first-frame `SCO_TRACK`: the record `t`, no rotation, the current pilots stored
(46_sync_trackers.md R234, R237, R240). -/
def Block.scoSkipped (b : Block) (g : Grid) (t : ScoTracker) : Block :=
  { b with sco := t, scoPrev := some g.pilot, status := b.status.withScoSkip true }

/-- The block after `SCO_TRACK` on the grid `g` (46_sync_trackers.md R237). The pilots are not rotated, so the stored set is
`GRID.pilot` in every case. -/
def Block.scoTracked (c : Cfg) (b : Block) (g : Grid) : Block :=
  match b.scoPrev with
  | none => b.scoSkipped g (b.sco.withCount 0)
  | some prev =>
    let n := (validPairs g.pilot prev).length
    if scoGated c n then b.scoSkipped g (b.sco.withCount n)
    else
      let t := b.sco.accept c (scoEstimate g.pilot prev) n
      if nearZero c t.acc then b.scoSkipped g t
      else
        { b with
          sco := t, scoPrev := some g.pilot
          grid := some { g with data := rotateData c (scoFactor c t.acc) g.data }
          status := b.status.withScoSkip false }

/-- 46_sync_trackers.md R237. -/
def scoTrackBody (c : Cfg) (b : Block) : Except Code Block :=
  match b.grid with
  | none => .error .empty
  | some g => ifConsistent c.pilotsOk (b.scoTracked c g)

/-! The commands. -/

/-- `CFO_TRACK` (46_sync_trackers.md R235). -/
def execCfoTrack (s : State) : Host.Outcome State Fault Refusal := s.runBody (cfoTrackBody s.cfg s.blk)

/-- `CPE_TRACK` (46_sync_trackers.md R236). -/
def execCpeTrack (s : State) : Host.Outcome State Fault Refusal := s.runBody (cpeTrackBody s.cfg s.blk)

/-- `SCO_TRACK` (46_sync_trackers.md R237). -/
def execScoTrack (s : State) : Host.Outcome State Fault Refusal := s.runBody (scoTrackBody s.cfg s.blk)

end Sys2Proof.Machine
end

