-- ==== Sys2Proof/Machine/Dispatch.lean ====
section
/-! DEFINITION. The dispatch of a decoded command to its meaning (30_encoding.md R84, 40_control.md R100). -/

namespace Sys2Proof.Machine

/-- One arm per row of the table of 30_encoding.md R84, in the table's order. -/
def exec (i : Instr) (s : State) : Host.Outcome State Fault Refusal :=
  match i with
  | .nop => Sys2Proof.Machine.execNop s
  | .txReset => Sys2Proof.Machine.execTxReset s
  | .runReset => Sys2Proof.Machine.execRunReset s
  | .crcGen => Sys2Proof.Machine.execCrcGen s
  | .crcVerify => Sys2Proof.Machine.execCrcVerify s
  | .tbAppend => Sys2Proof.Machine.execTbAppend s
  | .tbSplit => Sys2Proof.Machine.execTbSplit s
  | .repeatBits => Sys2Proof.Machine.execRepeat s
  | .majority => Sys2Proof.Machine.execMajority s
  | .interleave => Sys2Proof.Machine.execInterleave s
  | .deinterleave => Sys2Proof.Machine.execDeinterleave s
  | .tbBuild => Sys2Proof.Machine.execTbBuild s
  | .tbProcess => Sys2Proof.Machine.execTbProcess s
  | .constBuild imm => Sys2Proof.Machine.execConstBuild imm s
  | .modulate => Sys2Proof.Machine.execModulate s
  | .demodulate => Sys2Proof.Machine.execDemodulate s
  | .gridInit => Sys2Proof.Machine.execGridInit s
  | .gridMap => Sys2Proof.Machine.execGridMap s
  | .gridExtract imm => Sys2Proof.Machine.execGridExtract imm s
  | .grid2td => Sys2Proof.Machine.execGrid2td s
  | .td2grid => Sys2Proof.Machine.execTd2grid s
  | .preGen => Sys2Proof.Machine.execPreGen s
  | .cpAdd => Sys2Proof.Machine.execCpAdd s
  | .cpRemove => Sys2Proof.Machine.execCpRemove s
  | .frameBuild => Sys2Proof.Machine.execFrameBuild s
  | .frameDetect => Sys2Proof.Machine.execFrameDetect s
  | .frameExtract => Sys2Proof.Machine.execFrameExtract s
  | .cfoTrack => Sys2Proof.Machine.execCfoTrack s
  | .cpeTrack => Sys2Proof.Machine.execCpeTrack s
  | .scoTrack => Sys2Proof.Machine.execScoTrack s

end Sys2Proof.Machine
end

