-- ==== Sys2Proof/Machine/HostPort.lean ====
section
/-! DEFINITION. The host port and the register access (20_memory.md R62 to R64, 40_control.md R104 and R105): reading and writing
buffers by (buffer id, element offset), reading and writing the numbered registers of 10_state.md R30. -/

namespace Sys2Proof.Machine

/-! Writes to one buffer. `none` is a refused write (20_memory.md R63). -/

/-- `seq` over the elements from `off` on; the length stays. -/
def overwrite {α : Type} (xs : List α) (off : Nat) (seq : List α) : List α :=
  xs.take off ++ seq ++ xs.drop (off + seq.length)

/-- A write that stays inside a valid buffer (20_memory.md R62). -/
def writeInside {α : Type} (buf : Option (List α)) (off : Nat) (seq : List α) : Option (List α) :=
  match buf with
  | none => none
  | some xs => if off + seq.length ≤ xs.length then some (overwrite xs off seq) else none

/-- A write to a variable-length buffer: at offset 0 it replaces the content, within the capacity where there is one; else it
stays inside the buffer (20_memory.md R62, R63). -/
def writeVariable {α : Type} (cap : Option Nat) (buf : Option (List α)) (off : Nat) (seq : List α) : Option (List α) :=
  if off = 0 then
    match cap with
    | some m => if seq.length ≤ m then some seq else none
    | none => some seq
  else writeInside buf off seq

/-- A write to a fixed-shape buffer: the whole, or inside a valid buffer (20_memory.md R62). -/
def writeFixed {α : Type} (size : Nat) (buf : Option (List α)) (off : Nat) (seq : List α) : Option (List α) :=
  if off = 0 ∧ seq.length = size then some seq else writeInside buf off seq

/-- `HWR(id, off, seq)` (20_memory.md R62, R63): the block after it, or `none` where it is refused: a condition of R62 fails,
the buffer is read-only (ids 10, 12, 13, 14) or does not exist, or an element has the wrong type. -/
def Block.hwr (c : Cfg) (b : Block) (id off : Nat) (seq : HostData) : Option Block :=
  match id, seq with
  | 0, .bits xs => (writeVariable (some c.capBits) b.pay off xs).map fun x => { b with pay := some x }
  | 1, .bits xs => (writeVariable none b.crcb off xs).map fun x => { b with crcb := some x }
  | 2, .bits xs => (writeVariable (some c.capBits) b.tot off xs).map fun x => { b with tot := some x }
  | 3, .bits xs => (writeVariable (some c.capBits) b.cod off xs).map fun x => { b with cod := some x }
  | 4, .bits xs => (writeVariable (some c.capBits) b.ilv off xs).map fun x => { b with ilv := some x }
  | 5, .samples xs => (writeVariable (some c.capSyms) b.syms off xs).map fun x => { b with syms := some x }
  | 6, .samples xs =>
    match b.grid with
    | none => none
    | some g => (writeInside (some g.data) off xs).map fun x => { b with grid := some { g with data := x } }
  | 7, .samples xs =>
    match b.grid with
    | none => none
    | some g => (writeInside (some g.pilot) off xs).map fun x => { b with grid := some { g with pilot := x } }
  | 8, .samples xs => (writeFixed (c.nSym * c.nFft) b.td off xs).map fun x => { b with td := some x }
  | 9, .samples xs => (writeVariable (some c.capFrame) b.cps off xs).map fun x => { b with cps := some x }
  | 11, .samples xs => (writeVariable (some c.capFrame) b.frame off xs).map fun x => { b with frame := some x }
  | _, _ => none

/-- The elements of buffer `id` in its flattened order, where its valid bit is 1 (10_state.md R23). -/
def Block.content (b : Block) (id : Nat) : Option HostData :=
  match id with
  | 0 => b.pay.map .bits
  | 1 => b.crcb.map .bits
  | 2 => b.tot.map .bits
  | 3 => b.cod.map .bits
  | 4 => b.ilv.map .bits
  | 5 => b.syms.map .samples
  | 6 => b.grid.map fun g => .samples g.data
  | 7 => b.grid.map fun g => .samples g.pilot
  | 8 => b.td.map .samples
  | 9 => b.cps.map .samples
  | 10 => b.pre.map .samples
  | 11 => b.frame.map .samples
  | 12 => b.const.map fun k => .samples k.pt
  | 13 => b.const.map fun k => .bits k.tup.flatten
  | 14 => b.scoPrev.map .samples
  | _ => none

/-- `[B[off+i] | i < n]`, where `off + n ≤` length (20_memory.md R62). -/
def HostData.read (d : HostData) (off n : Nat) : Option HostData :=
  match d with
  | .bits xs => if off + n ≤ xs.length then some (.bits (slice xs off n)) else none
  | .samples xs => if off + n ≤ xs.length then some (.samples (slice xs off n)) else none

/-- `HRD(id, off, n)` (20_memory.md R62, R63): what it returns, or `none` where it is refused. -/
def Block.hrd (b : Block) (id off n : Nat) : Option HostData := (b.content id).bind fun d => d.read off n

/-- A one-bit register as the number it reads as. -/
def bitNat (x : Bool) : Nat := if x then 1 else 0

/-- `CSRR n` (10_state.md R30, 40_control.md R105): `CMD` and unassigned numbers read 0. -/
def Block.csrr (b : Block) (n : Nat) : HostResult :=
  match n with
  | 1 => .nat b.status.word.toNat
  | 2 => .nat b.start
  | 3 => .real b.score
  | 4 => .nat (bitNat b.tbvalid)
  | 5 => .nat (match b.const with | some k => k.b | none => 0)
  | 8 => .real b.cfo.raw
  | 9 => .real b.cfo.filt
  | 10 => .nat b.cfo.nvalid
  | 11 => .nat (bitNat b.cfo.init)
  | 12 => .real b.cpe.raw
  | 13 => .real b.cpe.filt
  | 14 => .nat b.cpe.nvalid
  | 15 => .nat (bitNat b.cpe.init)
  | 16 => .real b.sco.trk.raw
  | 17 => .real b.sco.trk.filt
  | 18 => .nat b.sco.trk.nvalid
  | 19 => .nat (bitNat b.sco.trk.init)
  | 20 => .real b.sco.acc
  | 21 => .nat b.sco.nupd
  | 22 => .nat (bitNat b.scoPrev.isSome)
  | _ => .nat 0

/-- `CSRW n <- v` for a register other than `CMD` (40_control.md R105): only `START` accepts a write. -/
def Block.csrw (b : Block) (n : Nat) (v : BitVec 32) : Block := if n = 2 then { b with start := v.toNat } else b

end Sys2Proof.Machine
end

