-- ==== Sys2Proof/Machine/HostSteps.lean ====
section
/-! DEFINITION. One step of the host (40_control.md R108): a command word is decoded and run (30_encoding.md R80, R86), a
host-port or register primitive acts, and `pc` moves to the next entry of the list. -/

namespace Sys2Proof.Machine

/-- The next state changed by `f`; a stop stays as it is. -/
def mapNext (f : State → State) : Host.Outcome State Fault Refusal → Host.Outcome State Fault Refusal
  | .next s => .next (f s)
  | .fault r => .fault r
  | .refused r => .refused r

/-- `pc <- pc + 1` (40_control.md R108), with what the host step returned. -/
def State.advance (r : HostResult) (s : State) : State := { s with pc := s.pc + 1, result := r }

/-- A write of `w` to `CMD` (30_encoding.md R80, R86; 40_control.md R100): a legal word runs its command, an illegal one
changes only `STATUS`. The refusal while aborted stands in both (`Block.shell`, `Block.illegal`), so it comes before
legality. -/
def State.issue (s : State) (w : CmdWord) : Host.Outcome State Fault Refusal :=
  match decode w with
  | .ok i => exec i s
  | .error _ => .next (s.withBlk s.blk.illegal)

/-- `HWR` as a host step: it acts or is refused, and leaves `STATUS` alone (20_memory.md R62, R63). -/
def State.hostWrite (s : State) (id off : Nat) (seq : HostData) : State :=
  match s.blk.hwr s.cfg id off seq with
  | some b => (s.withBlk b).advance .done
  | none => s.advance .refusedAccess

/-- `HRD` as a host step (20_memory.md R62, R63). -/
def State.hostRead (s : State) (id off n : Nat) : State :=
  match s.blk.hrd id off n with
  | some d => s.advance (.data d)
  | none => s.advance .refusedAccess

/-- `CSRW` as a host step (40_control.md R105): register 0 is `CMD`, whose write runs a command. -/
def State.hostCsrw (s : State) (n : Nat) (v : BitVec 32) : Host.Outcome State Fault Refusal :=
  if n = 0 then mapNext (State.advance .done) (s.issue v) else .next ((s.withBlk (s.blk.csrw n v)).advance .done)

/-- Performing one host step (40_control.md R108). -/
def State.perform (s : State) : HostStep → Host.Outcome State Fault Refusal
  | .cmd w => mapNext (State.advance .done) (s.issue w)
  | .hwr id off seq => .next (s.hostWrite id off seq)
  | .hrd id off n => .next (s.hostRead id off n)
  | .csrw n v => s.hostCsrw n v
  | .csrr n => .next (s.advance (s.blk.csrr n))

/-- The host step at `pc`, where there is one (40_control.md R108). -/
def State.fetch (s : State) : Option HostStep := s.prog[s.pc]?

/-- The program with `h` as the entry at `pc`. -/
def State.placeAtPc (s : State) (h : HostStep) : List HostStep := s.prog.take s.pc ++ h :: s.prog.drop (s.pc + 1)

end Sys2Proof.Machine
end

