-- ==== Sys2Proof/Machine/Step.lean ====
section
/-! DEFINITION. One step of the machine (40_control.md R108). -/

namespace Sys2Proof.Machine

/-- One step: the host performs the entry of its list at `pc`; "if pc = n the program has ended" (40_control.md R108). -/
def step (s : State) : Host.Outcome State Fault Refusal :=
  match s.fetch with
  | some h => s.perform h
  | none => .fault .programEnded

/-- The state with the command word of `w` (bits from `nbits` up are 0) as the host's entry at `pc`; a `pc` beyond the list
comes to the list's end, where the word is placed. -/
def State.withFetchWord (s : State) (nbits w : Nat) : State :=
  { s with
    pc := min s.pc s.prog.length
    prog := s.placeAtPc (.cmd (BitVec.ofNat 32 (w % 2 ^ nbits))) }

end Sys2Proof.Machine
end

