-- ==== Sys2Proof/Safety.lean ====
section
/-! DEFINITION. The terms claims are stated in: the complex number a sample stands for (00_scope.md R14), which configurations meet the
constraints of 00_scope.md R9 and which are consistent (R11), and the invariant of the machine. Nothing here is used by `step`. -/

namespace Sys2Proof

/-- The complex number a pair of terms stands for (00_scope.md R14). -/
noncomputable def Cplx.val (z : Cplx) : ℂ := ⟨z.re.val, z.im.val⟩

/-- The values of a sample sequence. -/
noncomputable def Cplx.vals (xs : List Cplx) : List ℂ := xs.map Cplx.val

namespace Cfg

/-- The column "type and constraint" of 00_scope.md R9. -/
structure Wf (c : Cfg) : Prop where
  kRep_pos : 1 ≤ c.kRep
  ilvR_pos : 1 ≤ c.ilvR
  ilvC_pos : 1 ≤ c.ilvC
  bps_range : 2 ≤ c.bps ∧ c.bps ≤ 6
  supported_range : ∀ b ∈ c.supportedBps, 2 ≤ b ∧ b ≤ 6
  tables : ∀ b ∈ c.supportedBps, tableOk b (c.bitmap b) = true
  nFft_pos : 1 ≤ c.nFft
  nCp_le : c.nCp ≤ c.nFft
  nSym_pos : 1 ≤ c.nSym
  nSc_pos : 1 ≤ c.nSc
  sc_fits : c.scOffset + c.nSc ≤ c.nFft
  pilots_ascending : c.pilotIdx.Pairwise (· < ·)
  pilots_below : ∀ k ∈ c.pilotIdx, k < c.nSc
  pilotVal_ne : c.pilotVal.val ≠ 0
  lPre_pos : 1 ≤ c.lPre
  alphaCfo_range : 0 < c.alphaCfo.val ∧ c.alphaCfo.val ≤ 1
  alphaCpe_range : 0 < c.alphaCpe.val ∧ c.alphaCpe.val ≤ 1
  alphaSco_range : 0 < c.alphaSco.val ∧ c.alphaSco.val ≤ 1
  epsCorr_nonneg : 0 ≤ c.epsCorr.val

/-- A consistent configuration (00_scope.md R11), with the minimal capacities of 10_state.md R25. -/
structure Consistent (c : Cfg) : Prop where
  coded_size : c.nC = c.ilvR * c.ilvC
  groups : c.nC % c.bps = 0
  fits_grid : c.nC / c.bps ≤ c.cap
  bps_supported : c.bps ∈ c.supportedBps
  sc_fits : c.scOffset + c.nSc ≤ c.nFft
  nCp_le : c.nCp ≤ c.nFft
  pilots_ascending : c.pilotIdx.Pairwise (· < ·)
  pilots_below : ∀ k ∈ c.pilotIdx, k < c.nSc
  fallback_fits : c.fallbackStart + c.lPl ≤ c.capFrame
  capBits_min : c.nC ≤ c.capBits
  capSyms_min : c.cap ≤ c.capSyms
  capFrame_min : c.lFrame ≤ c.capFrame

end Cfg

namespace Machine

/-- A buffer that is invalid or has at most `m` elements. -/
abbrev lenAtMost {α : Type} (m : Nat) (buf : Option (List α)) : Prop := ∀ xs, buf = some xs → xs.length ≤ m

/-- A buffer that is invalid or has exactly `m` elements. -/
abbrev lenExactly {α : Type} (m : Nat) (buf : Option (List α)) : Prop := ∀ xs, buf = some xs → xs.length = m

/-- The constellation record is a bijection of 2^b points and b-bit tuples, 2 ≤ b ≤ 6 (10_state.md R27). -/
structure Const.Ok (k : Const) : Prop where
  b_range : 2 ≤ k.b ∧ k.b ≤ 6
  pt_size : k.pt.length = 2 ^ k.b
  tup_size : k.tup.length = 2 ^ k.b
  tup_bits : ∀ t ∈ k.tup, t.length = k.b
  tup_distinct : k.tup.Nodup

/-- What holds of the block in every reachable state, whatever the configuration: capacities and shapes of the buffers
(10_state.md R23, R25), the constellation record (R27), `START` in 32 bits (R30), `abort` exactly with an error code
(60_exceptions.md R265, R266), a valid transport block without `crc_fail` (R264), and the SCO record's bookkeeping
(46_sync_trackers.md R237). -/
structure Block.Ok (c : Cfg) (b : Block) : Prop where
  pay_cap : lenAtMost c.capBits b.pay
  tot_cap : lenAtMost c.capBits b.tot
  cod_cap : lenAtMost c.capBits b.cod
  ilv_cap : lenAtMost c.capBits b.ilv
  syms_cap : lenAtMost c.capSyms b.syms
  grid_data_size : ∀ g, b.grid = some g → g.data.length = c.nSym * c.nSc
  grid_pilot_size : ∀ g, b.grid = some g → g.pilot.length = c.nSym * c.nPil
  td_size : lenExactly (c.nSym * c.nFft) b.td
  cps_cap : lenAtMost c.capFrame b.cps
  pre_size : lenExactly c.lPre b.pre
  frame_cap : lenAtMost c.capFrame b.frame
  const_ok : ∀ k, b.const = some k → k.Ok
  scoPrev_size : lenExactly (c.nSym * c.nPil) b.scoPrev
  start_fits : c.capFrame < 2 ^ 32 → c.fallbackStart < 2 ^ 32 → b.start < 2 ^ 32
  abort_iff : b.status.abort = true ↔ b.status.code ≠ .ok
  valid_no_fail : b.tbvalid = true → b.status.crcFail = false
  sco_init_iff : b.sco.trk.init = true ↔ 0 < b.sco.nupd
  sco_init_prev : b.sco.trk.init = true → b.scoPrev.isSome = true

/-- The invariant of the machine: the block's, and the host's index inside or at the end of its list (40_control.md R108). -/
structure State.Inv (s : State) : Prop where
  blk_ok : s.blk.Ok s.cfg
  pc_le : s.pc ≤ s.prog.length

/-- `SCORE` lies in [0, 1] over exact reals (44_frame_framer.md R200). -/
def Block.ScoreBounded (b : Block) : Prop := 0 ≤ b.score.val ∧ b.score.val ≤ 1

/-! Terms for what a command does. -/

/-- No fatal error has happened in this transmission (10_state.md R31): `STATUS.abort = 0`. -/
abbrev State.Running (s : State) : Prop := s.blk.status.abort = false

/-- A command that completed with the writes of `b`: `STATUS.code = OK`, the configuration and the host unchanged
(40_control.md R100). -/
def State.done (s : State) (b : Block) : Host.Outcome State Fault Refusal :=
  .next { s with blk := { b with status := { b.status with code := .ok } } }

/-- A command that raised `e`: only `STATUS.code` and `STATUS.abort` change (60_exceptions.md R265). -/
def State.raised (s : State) (e : Code) : Host.Outcome State Fault Refusal :=
  .next { s with blk := { s.blk with status := { s.blk.status with code := e, abort := true } } }

/-- The state a command leaves, for chains of commands. -/
def thenExec (i : Instr) : Host.Outcome State Fault Refusal → Host.Outcome State Fault Refusal
  | .next s => exec i s
  | .fault r => .fault r
  | .refused r => .refused r

/-- The commands of a list, one after another. -/
def execAll (is : List Instr) (s : State) : Host.Outcome State Fault Refusal := is.foldl (fun o i => thenExec i o) (.next s)

/-- The first error whose condition holds. -/
def firstError : List (Bool × Code) → Option Code
  | [] => none
  | (c, e) :: rest => if c then some e else firstError rest

/-- `BUF.len`, 0 for an invalid buffer (00_scope.md R15). -/
def lenOf {α : Type} (buf : Option (List α)) : Nat := (buf.getD []).length

/-- The table of 60_exceptions.md R262: the errors of a command in the order checked, with their conditions. Behind the table's
own rows stand the model's choices of log entry 4 (DESIGN CHOICE) for a configuration that is not consistent: `ERR_SIZE` where
the indices of the command rest on a condition of 00_scope.md R11 that fails (70_reset_and_hazards.md R292), and `ERR_BPS_RANGE`
where no valid table of `b` is configured. Under `Cfg.Wf` they add nothing to the table. -/
def errorOf (c : Cfg) (b : Block) : Instr → Option Code
  | .nop => none
  | .txReset => none
  | .runReset => none
  | .crcGen => firstError [(b.pay.isNone, .empty)]
  | .crcVerify => firstError [(b.tot.isNone, .empty)]
  | .tbAppend =>
    firstError [(b.pay.isNone, .empty), (b.crcb.isNone, .empty), (decide (c.capBits < lenOf b.pay + lenOf b.crcb), .capacity)]
  | .tbSplit => firstError [(b.tot.isNone, .empty), (decide (lenOf b.tot < 24), .size)]
  | .repeatBits => firstError [(b.tot.isNone, .empty), (decide (c.capBits < c.kRep * lenOf b.tot), .capacity)]
  | .majority => firstError [(b.cod.isNone, .empty), (decide (lenOf b.cod % c.kRep ≠ 0), .size)]
  | .interleave => firstError [(b.cod.isNone, .empty), (decide (lenOf b.cod ≠ c.ilvR * c.ilvC), .ilvSize)]
  | .deinterleave => firstError [(b.ilv.isNone, .empty), (decide (lenOf b.ilv ≠ c.ilvR * c.ilvC), .ilvSize)]
  | .tbBuild =>
    firstError [(b.pay.isNone, .empty), (decide (c.capBits < lenOf b.pay + 24), .capacity),
      (decide (c.capBits < c.kRep * (lenOf b.pay + 24)), .capacity),
      (decide (c.kRep * (lenOf b.pay + 24) ≠ c.ilvR * c.ilvC), .ilvSize)]
  | .tbProcess =>
    firstError [(b.ilv.isNone, .empty), (decide (lenOf b.ilv ≠ c.ilvR * c.ilvC), .ilvSize),
      (decide (lenOf b.ilv % c.kRep ≠ 0), .size), (decide (lenOf b.ilv / c.kRep < 24), .size)]
  | .constBuild imm => firstError [(!c.supports imm, .bpsRange)]
  | .modulate =>
    firstError [(b.ilv.isNone, .empty), (b.const.isNone, .empty),
      (decide (lenOf b.ilv % (b.const.elim 0 Const.b) ≠ 0), .modLen),
      (decide (c.capSyms < lenOf b.ilv / (b.const.elim 0 Const.b)), .capacity)]
  | .demodulate =>
    firstError [(b.syms.isNone, .empty), (b.const.isNone, .empty),
      (decide (c.capBits < (b.const.elim 0 Const.b) * lenOf b.syms), .capacity)]
  | .gridInit => none
  | .gridMap =>
    firstError [(b.syms.isNone, .empty), (b.grid.isNone, .empty), (decide (c.cap < lenOf b.syms), .gridCapacity),
      (!c.pilotsOk, .size)]
  | .gridExtract n =>
    firstError [(b.grid.isNone, .empty), (decide (c.cap < n), .gridCapacity), (decide (c.capSyms < n), .capacity),
      (!c.pilotsOk, .size)]
  | .grid2td => firstError [(b.grid.isNone, .empty), (!(c.pilotsOk && c.binsOk), .size)]
  | .td2grid => firstError [(b.td.isNone, .empty), (!(c.pilotsOk && c.binsOk), .size)]
  | .preGen => none
  | .cpAdd => firstError [(b.td.isNone, .empty), (decide (c.capFrame < c.lPl), .capacity), (!c.prefixOk, .size)]
  | .cpRemove => firstError [(b.cps.isNone, .empty), (decide (lenOf b.cps ≠ c.lPl), .size)]
  | .frameBuild =>
    firstError [(b.pre.isNone, .empty), (b.cps.isNone, .empty), (decide (lenOf b.cps ≠ c.lPl), .size),
      (decide (c.capFrame < c.lFrame), .capacity)]
  | .frameDetect => firstError [(b.pre.isNone, .empty), (b.frame.isNone, .empty)]
  | .frameExtract => firstError [(b.frame.isNone, .empty), (decide (lenOf b.frame < b.start + c.lPl), .frameShort)]
  | .cfoTrack => firstError [(b.grid.isNone, .empty), (!c.pilotsOk, .size)]
  | .cpeTrack => firstError [(b.grid.isNone, .empty), (!c.pilotsOk, .size)]
  | .scoTrack => firstError [(b.grid.isNone, .empty), (!c.pilotsOk, .size)]

/-- The parts of the block that the "writes" column of 30_encoding.md R84 names. `STATUS.code` and `STATUS.abort` are not
among them: every command may write those. -/
inductive Part where
  | pay | crcb | tot | cod | ilv | syms | gridData | gridPilot | td | cps | pre | frame | const | scoPrev | start | score
  | tbvalid | cfo | cpe | sco | crcFail | detFallback | cfoSkip | cpeSkip | scoSkip
deriving DecidableEq, Repr

/-- Part `p` is the same in both blocks. -/
def Part.Same (b b' : Block) : Part → Prop
  | .pay => b'.pay = b.pay
  | .crcb => b'.crcb = b.crcb
  | .tot => b'.tot = b.tot
  | .cod => b'.cod = b.cod
  | .ilv => b'.ilv = b.ilv
  | .syms => b'.syms = b.syms
  | .gridData => b'.grid.map Grid.data = b.grid.map Grid.data
  | .gridPilot => b'.grid.map Grid.pilot = b.grid.map Grid.pilot
  | .td => b'.td = b.td
  | .cps => b'.cps = b.cps
  | .pre => b'.pre = b.pre
  | .frame => b'.frame = b.frame
  | .const => b'.const = b.const
  | .scoPrev => b'.scoPrev = b.scoPrev
  | .start => b'.start = b.start
  | .score => b'.score = b.score
  | .tbvalid => b'.tbvalid = b.tbvalid
  | .cfo => b'.cfo = b.cfo
  | .cpe => b'.cpe = b.cpe
  | .sco => b'.sco = b.sco
  | .crcFail => b'.status.crcFail = b.status.crcFail
  | .detFallback => b'.status.detFallback = b.status.detFallback
  | .cfoSkip => b'.status.cfoSkip = b.status.cfoSkip
  | .cpeSkip => b'.status.cpeSkip = b.status.cpeSkip
  | .scoSkip => b'.status.scoSkip = b.status.scoSkip

/-- The per-transmission state, which `TX_RESET` clears (10_state.md R38). -/
def txParts : List Part :=
  [.pay, .crcb, .tot, .cod, .ilv, .syms, .gridData, .gridPilot, .td, .cps, .frame, .start, .score, .tbvalid, .crcFail,
    .detFallback, .cfoSkip, .cpeSkip, .scoSkip]

/-- The column "writes" of 30_encoding.md R84. -/
def writes : Instr → List Part
  | .nop => []
  | .txReset => txParts
  | .runReset => txParts ++ [.pre, .const, .scoPrev, .cfo, .cpe, .sco]
  | .crcGen => [.crcb]
  | .crcVerify => [.tbvalid, .crcFail]
  | .tbAppend => [.tot]
  | .tbSplit => [.pay, .crcb]
  | .repeatBits => [.cod]
  | .majority => [.tot]
  | .interleave => [.ilv]
  | .deinterleave => [.cod]
  | .tbBuild => [.crcb, .tot, .cod, .ilv]
  | .tbProcess => [.cod, .tot, .pay, .crcb, .tbvalid, .crcFail]
  | .constBuild _ => [.const]
  | .modulate => [.syms]
  | .demodulate => [.ilv]
  | .gridInit => [.gridData, .gridPilot]
  | .gridMap => [.gridData]
  | .gridExtract _ => [.syms]
  | .grid2td => [.td]
  | .td2grid => [.gridData, .gridPilot]
  | .preGen => [.pre]
  | .cpAdd => [.cps]
  | .cpRemove => [.td]
  | .frameBuild => [.frame]
  | .frameDetect => [.start, .score, .detFallback]
  | .frameExtract => [.cps]
  | .cfoTrack => [.gridData, .gridPilot, .cfo, .cfoSkip]
  | .cpeTrack => [.gridData, .cpe, .cpeSkip]
  | .scoTrack => [.gridData, .sco, .scoPrev, .scoSkip]

/-- What a host step other than a command may write: the buffer an `HWR` names, and `START` (20_memory.md R62, R63;
40_control.md R105). -/
def hostWrites : HostStep → List Part
  | .hwr id _ _ =>
    match id with
    | 0 => [.pay]
    | 1 => [.crcb]
    | 2 => [.tot]
    | 3 => [.cod]
    | 4 => [.ilv]
    | 5 => [.syms]
    | 6 => [.gridData]
    | 7 => [.gridPilot]
    | 8 => [.td]
    | 9 => [.cps]
    | 11 => [.frame]
    | _ => []
  | .csrw n _ => if n = 2 then [.start] else []
  | .cmd _ => []
  | .hrd _ _ _ => []
  | .csrr _ => []

/-- The command word a host step writes to `CMD`, where it writes one (40_control.md R105, R108). -/
def commandWord : HostStep → Option CmdWord
  | .cmd w => some w
  | .csrw n v => if n = 0 then some v else none
  | .hwr _ _ _ => none
  | .hrd _ _ _ => none
  | .csrr _ => none

/-- The number of elements an access moves. -/
def HostData.len : HostData → Nat
  | .bits xs => xs.length
  | .samples xs => xs.length

/-- The word `w` is the encoding of the command `i`, and decodes to it (30_encoding.md R81, R84). -/
abbrev Spells (w : CmdWord) (i : Instr) : Prop := encode i = w ∧ decode w = .ok i

/-- The elements `off ..< off + n` lie inside a valid buffer (20_memory.md R62). -/
abbrev insideValid {α : Type} (buf : Option (List α)) (off n : Nat) : Prop := ∃ xs, buf = some xs ∧ off + n ≤ xs.length

/-- The conditions of 20_memory.md R62 and R63 on a write of `n` elements to a variable-length buffer: at offset 0 within the
capacity, where there is one; else inside the valid buffer. -/
abbrev fitsVariable {α : Type} (cap : Option Nat) (buf : Option (List α)) (off n : Nat) : Prop :=
  (off = 0 ∧ ∀ m, cap = some m → n ≤ m) ∨ (0 < off ∧ insideValid buf off n)

/-- The conditions of 20_memory.md R62 and R63 on `HWR(id, off, seq)`: the buffer exists and is writable, the elements have
its type, and they fit. -/
def hostWriteAllowed (c : Cfg) (b : Block) (id off : Nat) (seq : HostData) : Prop :=
  match id, seq with
  | 0, .bits xs => fitsVariable (some c.capBits) b.pay off xs.length
  | 1, .bits xs => fitsVariable none b.crcb off xs.length
  | 2, .bits xs => fitsVariable (some c.capBits) b.tot off xs.length
  | 3, .bits xs => fitsVariable (some c.capBits) b.cod off xs.length
  | 4, .bits xs => fitsVariable (some c.capBits) b.ilv off xs.length
  | 5, .samples xs => fitsVariable (some c.capSyms) b.syms off xs.length
  | 6, .samples xs => insideValid (b.grid.map Grid.data) off xs.length
  | 7, .samples xs => insideValid (b.grid.map Grid.pilot) off xs.length
  | 8, .samples xs => (off = 0 ∧ xs.length = c.nSym * c.nFft) ∨ insideValid b.td off xs.length
  | 9, .samples xs => fitsVariable (some c.capFrame) b.cps off xs.length
  | 11, .samples xs => fitsVariable (some c.capFrame) b.frame off xs.length
  | _, _ => False

/-- A buffer of fixed shape to the host: the two halves of the grid and `TD` (20_memory.md R62). -/
abbrev fixedShape (id : Nat) : Prop := id = 6 ∨ id = 7 ∨ id = 8

/-! Terms over natural, real and complex numbers, written from the rules without the model's own functions. -/

/-- One CRC step on natural numbers (41_transport_block_codec.md R121): `(u << 1)[23:0] = (2·u) mod 2^24`
(47_arithmetic.md R320). -/
def crcStepNat (v : CrcVariant) (reg : Nat) (bit : Bit) : Nat :=
  let t := reg ^^^ (if bit then 2 ^ 23 else 0)
  match v with
  | .xorThenShift => (2 * (if t.testBit 23 then t ^^^ 0x1864CFB else t)) % 2 ^ 24
  | .shiftThenXor => ((2 * t) ^^^ (if t.testBit 23 then 0x1864CFB else 0)) % 2 ^ 24

/-- `crc24(bits)` on natural numbers (41_transport_block_codec.md R122). -/
def crcNat (v : CrcVariant) (bits : List Bit) : Nat := bits.foldl (crcStepNat v) (2 ^ 24 - 1)

/-- A bit sequence with bit `i` flipped. -/
def flipBit (xs : List Bit) (i : Nat) : List Bit := xs.modify i (fun x => !x)

/-- A bit as the number it is in a sum (47_arithmetic.md R322). -/
def bitVal (x : Bit) : Nat := if x then 1 else 0

/-- The real value of element `i` of a sample sequence. -/
noncomputable def cval (xs : List Cplx) (i : Nat) : ℂ := (sampleAt xs i).val

/-- The golden angle `Δ = 2π·(2 − φ)`, φ = (1+√5)/2 (42_constellation.md R151). -/
noncomputable def goldenAngle : ℝ := 2 * Real.pi * (2 - (1 + Real.sqrt 5) / 2)

/-- The squared distance `d(i)` between two complex numbers (42_constellation.md R155). -/
noncomputable def distR (y p : ℂ) : ℝ := (y.re - p.re) ^ 2 + (y.im - p.im) ^ 2

/-- `score(d)` over the complex numbers (44_frame_framer.md R200). -/
noncomputable def scoreR (l : Nat) (r p : List Cplx) (d : Nat) : ℝ :=
  let corr : ℂ := ∑ i ∈ Finset.range l, cval r (d + i) * (starRingEnd ℂ) (cval p i)
  let er : ℝ := ∑ i ∈ Finset.range l, ‖cval r (d + i)‖ ^ 2
  let ep : ℝ := ∑ i ∈ Finset.range l, ‖cval p i‖ ^ 2
  if 0 < er * ep then ‖corr‖ / Real.sqrt (er * ep) else 0

/-- `e^{−jθ}` (46_sync_trackers.md R241). -/
noncomputable def unrot (θ : ℝ) : ℂ := Complex.exp (-(θ : ℂ) * Complex.I)

/-- `φ = arg(z · conj(PILOT_VAL))` (46_sync_trackers.md R232). -/
noncomputable def phaseR (c : Cfg) (z : Cplx) : ℝ := (z.val * (starRingEnd ℂ) c.pilotVal.val).arg

/-- The arithmetic mean of a list of reals (46_sync_trackers.md R235). -/
noncomputable def meanR (xs : List ℝ) : ℝ := xs.sum / xs.length

/-- The filter of 46_sync_trackers.md R233 on a record before (`t`) and after (`t'`) an accepted estimate `new`, with
smoothing factor `α`: `raw`, `filt` and `init`. -/
def Filtered (α : Num) (t t' : Tracker) (new : ℝ) : Prop :=
  t'.raw.val = new ∧ t'.init = true ∧
    t'.filt.val = if t.init then α.val * new + (1 - α.val) * t.filt.val else new

/-- The data array after a correction by the factor `f k` of column `k`: every data cell multiplied, cells at pilot
subcarriers untouched (46_sync_trackers.md R235 to R237, 10_state.md R28). -/
def DataRotated (c : Cfg) (f : Nat → ℂ) (data data' : List Cplx) : Prop :=
  data'.length = data.length ∧
    ∀ l k, l < c.nSym → k < c.nSc →
      (k ∈ c.pilotIdx → sampleAt data' (l * c.nSc + k) = sampleAt data (l * c.nSc + k)) ∧
      (k ∉ c.pilotIdx → cval data' (l * c.nSc + k) = cval data (l * c.nSc + k) * f k)

end Machine

end Sys2Proof
end

