-- ==== Sys2Proof/Certificates/Slice0/Obligations.lean ====
section
/-! DEFINITION. The statements about the model, from the numbered rules of spec/. `State.Running` is "not aborted"; `State.done b`
is the next state of a command that completed with the writes `b` (everything else as before, `STATUS.code = OK`);
`State.raised e` is the next state of a command that raised `e`; `Spells w i` says that the word `w` encodes and decodes to the
command `i` (Safety.lean). An equation `exec i s = s.done { s.blk with … }` therefore is a completion, a result and a frame. -/

section

open Sys2Proof Sys2Proof.Machine

/-! Encoding and stepping. -/

/-- Decoding the encoding of a well-formed command gives the command back, for every immediate (30_encoding.md R81, R82, R84). -/
def Obligations.DecodeOfEncode : Prop := ∀ i : Instr, i.WellFormed → decode (encode i) = .ok i

/-- Every legal word is the encoding of the one well-formed command it decodes to (30_encoding.md R81, R84). -/
def Obligations.EncodeOfDecode : Prop := ∀ (w : CmdWord) (i : Instr), decode w = .ok i → i.WellFormed ∧ encode i = w

/-- 30_encoding.md R85: the illegal words are those of the opcode ranges the table does not list and those of a listed opcode
without an immediate whose immediate is not 0; such a word raises `ERR_ILLEGAL_CMD`; every immediate of `CONST_BUILD` and
`GRID_EXTRACT` is a legal encoding, and an operand out of range gives the error of the command's own rule. -/
def Obligations.IllegalWords : Prop :=
  (∀ w : CmdWord,
    let op := w.toNat / 2 ^ 24
    let imm := w.toNat % 2 ^ 24
    (∃ r, decode w = .error r) ↔
      (0x03 ≤ op ∧ op ≤ 0x0F) ∨ (0x1A ≤ op ∧ op ≤ 0x1F) ∨ (0x23 ≤ op ∧ op ≤ 0x2F) ∨ (0x35 ≤ op ∧ op ≤ 0x3F) ∨
        (0x46 ≤ op ∧ op ≤ 0x4F) ∨ 0x53 ≤ op ∨ (imm ≠ 0 ∧ op ≠ 0x20 ∧ op ≠ 0x32)) ∧
  (∀ (s : State) (w : CmdWord) (r : Illegal), s.Running → decode w = .error r → s.issue w = s.raised .illegalCmd) ∧
  (∀ n < 2 ^ 24, decode (BitVec.ofNat 32 (0x20 * 2 ^ 24 + n)) = .ok (.constBuild n) ∧
    decode (BitVec.ofNat 32 (0x32 * 2 ^ 24 + n)) = .ok (.gridExtract n)) ∧
  (∀ (s : State) (n : Nat), s.Running → n < 2 ∨ 6 < n → exec (.constBuild n) s = s.raised .bpsRange) ∧
  (∀ (s : State) (n : Nat), s.Running → s.blk.grid.isSome = true → s.cfg.cap < n →
    exec (.gridExtract n) s = s.raised .gridCapacity)

/-- The words of 95_test_vectors.md V0.1 and V0.2 decode to their commands. -/
def Obligations.WordsOfTheTable : Prop :=
  decode 0x00000000 = .ok .nop ∧ decode 0x01000000 = .ok .txReset ∧ decode 0x02000000 = .ok .runReset ∧
  decode 0x10000000 = .ok .crcGen ∧ decode 0x18000000 = .ok .tbBuild ∧ decode 0x19000000 = .ok .tbProcess ∧
  decode 0x20000002 = .ok (.constBuild 2) ∧ decode 0x20FFFFFF = .ok (.constBuild 16777215) ∧
  decode 0x22000000 = .ok .demodulate ∧ decode 0x32000024 = .ok (.gridExtract 36) ∧ decode 0x34000000 = .ok .td2grid ∧
  decode 0x44000000 = .ok .frameDetect ∧ decode 0x45000000 = .ok .frameExtract ∧ decode 0x52000000 = .ok .scoTrack

/-- A step at a command word runs the decoded command: when the host's entry is a word that decodes to `i` (an entry for `CMD`
or a `CSRW` of register 0), the step is `exec i` on that state, then `pc` moves by one and the host step has returned. The
word placed by `withFetchWord` is such an entry (30_encoding.md R80; 40_control.md R100, R105, R108; that the host's list and
what it last received are fields of the state is the model's, log entry 5). -/
def Obligations.StepRunsDecodedCommand : Prop :=
  (∀ (s : State) (h : HostStep) (w : CmdWord) (i : Instr),
    s.fetch = some h → commandWord h = some w → decode w = .ok i →
      ∃ b, exec i s = .next { s with blk := b } ∧
        step s = .next { s with blk := b, pc := s.pc + 1, result := .done }) ∧
  (∀ (s : State) (w : CmdWord), (s.withFetchWord 32 w.toNat).fetch = some (.cmd w))

/-- 40_control.md R108: at the end of the host's list the program has ended; before it, a step performs the entry at `pc` and
goes on at `pc + 1`; no step changes the list or the configuration. (The stop at the end is the model's, log entry 6; the
configuration as a constant field, log entry 3.) -/
def Obligations.StepFollowsTheHostList : Prop :=
  ∀ s : State,
    (s.prog.length ≤ s.pc → step s = .fault .programEnded) ∧
    (s.pc < s.prog.length → ∃ t, step s = .next t ∧ t.pc = s.pc + 1 ∧ t.prog = s.prog ∧ t.cfg = s.cfg)

/-- 30_encoding.md R86: refusal while aborted comes first, then legality, then the command's own rule. -/
def Obligations.DecodeOrder : Prop :=
  ∀ (s : State) (w : CmdWord),
    (s.blk.status.abort = true → w ≠ 0x01000000 → w ≠ 0x02000000 →
      s.issue w = .next { s with blk := { s.blk with status := { s.blk.status with code := .aborted } } }) ∧
    (∀ r, s.Running → decode w = .error r → s.issue w = s.raised .illegalCmd) ∧
    (∀ i, s.Running ∨ w = 0x01000000 ∨ w = 0x02000000 → decode w = .ok i → s.issue w = exec i s)

/-! Errors, abort and reset. -/

/-- 60_exceptions.md R266: while aborted every word but the two resets is refused, legal or not, with nothing but the code
changed; the resets run; host reads and writes of buffers act as they do while not aborted. -/
def Obligations.AbortedCommandsAreRefused : Prop :=
  (∀ (s : State) (w : CmdWord), s.blk.status.abort = true → w ≠ 0x01000000 → w ≠ 0x02000000 →
    s.issue w = .next { s with blk := { s.blk with status := { s.blk.status with code := .aborted } } }) ∧
  (∀ s : State, s.blk.status.abort = true →
    (∃ b, s.issue 0x01000000 = s.done b ∧ b.status.abort = false) ∧
    (∃ b, s.issue 0x02000000 = s.done b ∧ b.status.abort = false)) ∧
  (∀ (c : Cfg) (b : Block) (st : Status) (id off n : Nat) (seq : HostData),
    ({ b with status := st } : Block).hrd id off n = b.hrd id off n ∧
    ({ b with status := st } : Block).hwr c id off seq = (b.hwr c id off seq).map fun b' => { b' with status := st })

/-- 60_exceptions.md R262 (an inference the spec draws from the pseudocode of every rule) and R268, for every command: the first
error of the table whose condition holds is raised; where none holds the command completes; while aborted every command but
the two resets is refused. For a configuration that is not consistent the rows that `errorOf` adds behind the table's own, and a
`CONST_BUILD` without a valid table, are the model's choice (DESIGN CHOICE, log entry 4, on 70_reset_and_hazards.md R292). -/
def Obligations.ErrorTable : Prop :=
  (∀ (s : State) (i : Instr), s.Running →
    (∀ e, errorOf s.cfg s.blk i = some e → exec i s = s.raised e) ∧
    (errorOf s.cfg s.blk i = none → ∃ b, exec i s = s.done b)) ∧
  (∀ (s : State) (i : Instr), s.blk.status.abort = true → i ≠ .txReset → i ≠ .runReset →
    exec i s = .next { s with blk := { s.blk with status := { s.blk.status with code := .aborted } } })

/-- 60_exceptions.md R265: a command word that ends with an error code has changed `STATUS.code` and `STATUS.abort` and
nothing else of the machine; the flags keep their values. -/
def Obligations.RaiseChangesOnlyStatus : Prop :=
  ∀ (s t : State) (w : CmdWord), s.issue w = .next t → t.blk.status.code ≠ .ok →
    t = { s with
      blk := { s.blk with status := { s.blk.status with code := t.blk.status.code, abort := true } } }

/-- 40_control.md R101: `NOP` writes `STATUS.code <- OK` only, and is refused while aborted. -/
def Obligations.NopKeepsEverything : Prop :=
  Spells 0x00000000 .nop ∧
  ∀ s : State,
    (s.Running → exec .nop s = .next { s with blk := { s.blk with status := { s.blk.status with code := .ok } } }) ∧
    (s.blk.status.abort = true →
      exec .nop s = .next { s with blk := { s.blk with status := { s.blk.status with code := .aborted } } })

/-- 40_control.md R102: `TX_RESET`, accepted also while aborted, invalidates the per-transmission buffers, clears `START`,
`SCORE`, `TBVALID` and `STATUS`, keeps `CONST`, `PRE`, the tracker records and `SCO.prev`; twice is the same as once. -/
def Obligations.TxResetClearsTransmission : Prop :=
  Spells 0x01000000 .txReset ∧
  ∀ s : State, ∃ t, exec .txReset s = .next t ∧ exec .txReset t = .next t ∧
    t = { s with
      blk := { s.blk with
        pay := none, crcb := none, tot := none, cod := none, ilv := none, syms := none, grid := none, td := none, cps := none
        frame := none, start := 0, score := .rat 0, tbvalid := false
        status := { code := .ok, abort := false, crcFail := false, detFallback := false, cfoSkip := false, cpeSkip := false,
                    scoSkip := false } } }

/-- 10_state.md R36, 40_control.md R103: after hardware reset every valid bit is 0 and every register reads 0; `RUN_RESET`,
from every state, aborted or not, leaves exactly that state of the block. -/
def Obligations.ResetState : Prop :=
  (∀ id, State.reset.blk.content id = none) ∧ State.reset.blk.status.word = 0 ∧
  (∀ n, State.reset.blk.csrr n = .nat 0 ∨ State.reset.blk.csrr n = .real (.rat 0)) ∧
  Spells 0x02000000 .runReset ∧
  ∀ s : State, exec .runReset s = .next { s with blk := State.reset.blk }

/-- The invariant (`State.Inv`, Safety.lean) holds after hardware reset (10_state.md R36, R37). -/
def Obligations.InvAtReset : Prop := State.reset.Inv

/-- Every step from every state that meets the invariant ends in a state that meets it: capacities and shapes of the buffers,
the constellation record, `START` in 32 bits, `abort` exactly with an error code, a valid transport block without `crc_fail`,
the SCO record's bookkeeping, the host's index (10_state.md R23, R25, R27, R28; 60_exceptions.md R265, R266). -/
def Obligations.StepKeepsInv : Prop := ∀ s t : State, s.Inv → step s = .next t → t.Inv

/-- 44_frame_framer.md R200 (the bound is the spec's by the Cauchy-Schwarz inequality): over exact reals `SCORE` stays in [0, 1],
whatever the frame, the preamble and the configuration. -/
def Obligations.StepKeepsScoreBounded : Prop :=
  ∀ s t : State, s.blk.ScoreBounded → step s = .next t → t.blk.ScoreBounded

/-! What may change. -/

/-- 30_encoding.md R84: a command changes no part of the block outside its row's column "writes" and `STATUS.code`,
`STATUS.abort`, and nothing of the host and the configuration. For every command. -/
def Obligations.CommandsWriteOnlyTheirColumn : Prop :=
  ∀ (i : Instr) (s t : State), exec i s = .next t →
    t.cfg = s.cfg ∧ t.prog = s.prog ∧ t.pc = s.pc ∧ t.result = s.result ∧ ∀ p, p ∉ writes i → Part.Same s.blk t.blk p

/-- 20_memory.md R62, R66 and 40_control.md R105: a host step other than a command changes at most the buffer an `HWR` names, or
`START`; the rest of the block, `STATUS` included, the list and the configuration stay. -/
def Obligations.HostStepsWriteOnlyTheirTarget : Prop :=
  ∀ (s t : State) (h : HostStep), s.fetch = some h → commandWord h = none → step s = .next t →
    t.cfg = s.cfg ∧ t.prog = s.prog ∧ t.blk.status = s.blk.status ∧ ∀ p, p ∉ hostWrites h → Part.Same s.blk t.blk p

/-- 10_state.md R31, 60_exceptions.md R267: only the words of `TX_RESET` and `RUN_RESET` clear `STATUS.abort`. -/
def Obligations.AbortClearedOnlyByResets : Prop :=
  ∀ s t : State, step s = .next t → s.blk.status.abort = true → t.blk.status.abort = false →
    ∃ h, s.fetch = some h ∧ (commandWord h = some 0x01000000 ∨ commandWord h = some 0x02000000)

/-- 10_state.md R27, R34, R38; 46_sync_trackers.md R243: each tracker record, `SCO.prev`, the constellation and the preamble change
only at the word of their own command or of `RUN_RESET`; no error and no other step touches them. -/
def Obligations.RunStateChangesOnlyByItsCommands : Prop :=
  ∀ (s t : State) (h : HostStep), s.fetch = some h → step s = .next t →
    (t.blk.cfo ≠ s.blk.cfo → commandWord h = some 0x50000000 ∨ commandWord h = some 0x02000000) ∧
    (t.blk.cpe ≠ s.blk.cpe → commandWord h = some 0x51000000 ∨ commandWord h = some 0x02000000) ∧
    (t.blk.sco ≠ s.blk.sco → commandWord h = some 0x52000000 ∨ commandWord h = some 0x02000000) ∧
    (t.blk.scoPrev ≠ s.blk.scoPrev → commandWord h = some 0x52000000 ∨ commandWord h = some 0x02000000) ∧
    (t.blk.pre ≠ s.blk.pre → commandWord h = some 0x40000000 ∨ commandWord h = some 0x02000000) ∧
    (t.blk.const ≠ s.blk.const →
      (∃ b < 2 ^ 24, commandWord h = some (BitVec.ofNat 32 (0x20 * 2 ^ 24 + b))) ∨ commandWord h = some 0x02000000)

/-- 41_transport_block_codec.md R140: a step that changes `TBVALID` is a reset that clears it, or a `CRC_VERIFY` or `TB_PROCESS`
that leaves in `TOT` total bits whose CRC register is zero exactly when `TBVALID` is 1. -/
def Obligations.TbvalidIsTheCrcResult : Prop :=
  ∀ s t : State, step s = .next t → t.blk.tbvalid ≠ s.blk.tbvalid →
    ∃ h, s.fetch = some h ∧
      (((commandWord h = some 0x01000000 ∨ commandWord h = some 0x02000000) ∧ t.blk.tbvalid = false) ∨
        ((commandWord h = some 0x11000000 ∨ commandWord h = some 0x19000000) ∧
          ∃ tot, t.blk.tot = some tot ∧ (t.blk.tbvalid = true ↔ crcNat s.cfg.crcVariant tot = 0)))

/-! The host port and the registers. -/

/-- 20_memory.md R62, R63: an allowed `HWR` writes its elements at its offset; a variable-length buffer written at offset 0
holds exactly them, and so does `TD` after the write that makes it valid; otherwise the length and the elements outside stay. A
write that is not allowed changes nothing. The model's choices: the program goes on after it (log entry 7); `CRCB` takes a write
of any length at offset 0 (log entry 10); an empty sequence of the wrong type is refused (log entry 16); a write to an invalid
`TD` that is shorter than the whole is refused (log entry 17). The shape of `TD` is the invariant's. -/
def Obligations.HostWrites : Prop :=
  ∀ (s : State) (id off : Nat) (seq : HostData), s.blk.Ok s.cfg → s.fetch = some (.hwr id off seq) →
    (hostWriteAllowed s.cfg s.blk id off seq →
      ∃ b d, step s = .next { s with blk := b, pc := s.pc + 1, result := .done } ∧ b.content id = some d ∧
        d.read off seq.len = some seq ∧
        (off = 0 → ¬fixedShape id ∨ s.blk.content id = none → d = seq) ∧
        (∀ old, s.blk.content id = some old → 0 < off ∨ fixedShape id →
          d.len = old.len ∧ ∀ i, i < off ∨ off + seq.len ≤ i → d.read i 1 = old.read i 1)) ∧
    (¬hostWriteAllowed s.cfg s.blk id off seq → step s = .next { s with pc := s.pc + 1, result := .refusedAccess })

/-- 20_memory.md R62, R63: an `HRD` inside a valid buffer returns its elements, any other returns nothing; neither changes the
block. The elements are `[B[off+i] | i < n]`. Which buffer each id names is the table of 10_state.md R23. That a refused access
is a next state is the model's (log entry 7), and so is the order of id 13, tuple after tuple (log entry 16). -/
def Obligations.HostReads : Prop :=
  (∀ (s : State) (id off n : Nat), s.fetch = some (.hrd id off n) →
    (∀ d, s.blk.content id = some d → off + n ≤ d.len →
      ∃ r, step s = .next { s with pc := s.pc + 1, result := .data r } ∧ r.len = n ∧
        ∀ i < n, r.read i 1 = d.read (off + i) 1) ∧
    ((s.blk.content id = none ∨ ∃ d, s.blk.content id = some d ∧ d.len < off + n) →
      step s = .next { s with pc := s.pc + 1, result := .refusedAccess })) ∧
  (∀ b : Block,
    b.content 0 = b.pay.map .bits ∧ b.content 1 = b.crcb.map .bits ∧ b.content 2 = b.tot.map .bits ∧
    b.content 3 = b.cod.map .bits ∧ b.content 4 = b.ilv.map .bits ∧ b.content 5 = b.syms.map .samples ∧
    b.content 6 = b.grid.map (fun g => .samples g.data) ∧ b.content 7 = b.grid.map (fun g => .samples g.pilot) ∧
    b.content 8 = b.td.map .samples ∧ b.content 9 = b.cps.map .samples ∧ b.content 10 = b.pre.map .samples ∧
    b.content 11 = b.frame.map .samples ∧ b.content 12 = b.const.map (fun k => .samples k.pt) ∧
    (b.const = none → b.content 13 = none) ∧
    (∀ k, b.const = some k → k.Ok →
      ∃ xs, b.content 13 = some (.bits xs) ∧ xs.length = 2 ^ k.b * k.b ∧
        ∀ i j, i < 2 ^ k.b → j < k.b → xs[i * k.b + j]? = k.tup[i]?.bind fun t => t[j]?) ∧
    b.content 14 = b.scoPrev.map .samples ∧ ∀ id, 15 ≤ id → b.content id = none)

/-- 10_state.md R30, R31; 40_control.md R105: what `CSRR` returns for every number, the layout of `STATUS` with the code numbers of
60_exceptions.md R261, and what `CSRW` does: register 0 runs the command, register 2 takes the value, every other is ignored. -/
def Obligations.HostRegisters : Prop :=
  (∀ (s : State) (n : Nat), s.fetch = some (.csrr n) →
    step s = .next { s with pc := s.pc + 1, result := s.blk.csrr n }) ∧
  (∀ b : Block,
    b.csrr 1 = .nat (b.status.code.number.toNat + 2 ^ 8 * bitVal b.status.abort + 2 ^ 9 * bitVal b.status.crcFail +
      2 ^ 10 * bitVal b.status.detFallback + 2 ^ 11 * bitVal b.status.cfoSkip + 2 ^ 12 * bitVal b.status.cpeSkip +
      2 ^ 13 * bitVal b.status.scoSkip) ∧
    b.csrr 2 = .nat b.start ∧ b.csrr 3 = .real b.score ∧ b.csrr 4 = .nat (bitVal b.tbvalid) ∧
    b.csrr 5 = .nat (b.const.elim 0 Const.b) ∧
    b.csrr 8 = .real b.cfo.raw ∧ b.csrr 9 = .real b.cfo.filt ∧ b.csrr 10 = .nat b.cfo.nvalid ∧
    b.csrr 11 = .nat (bitVal b.cfo.init) ∧
    b.csrr 12 = .real b.cpe.raw ∧ b.csrr 13 = .real b.cpe.filt ∧ b.csrr 14 = .nat b.cpe.nvalid ∧
    b.csrr 15 = .nat (bitVal b.cpe.init) ∧
    b.csrr 16 = .real b.sco.trk.raw ∧ b.csrr 17 = .real b.sco.trk.filt ∧ b.csrr 18 = .nat b.sco.trk.nvalid ∧
    b.csrr 19 = .nat (bitVal b.sco.trk.init) ∧ b.csrr 20 = .real b.sco.acc ∧ b.csrr 21 = .nat b.sco.nupd ∧
    b.csrr 22 = .nat (bitVal b.scoPrev.isSome) ∧ ∀ n, n = 0 ∨ n = 6 ∨ n = 7 ∨ 23 ≤ n → b.csrr n = .nat 0) ∧
  ([Code.ok, .illegalCmd, .aborted, .empty, .ilvSize, .bpsRange, .modLen, .gridCapacity, .frameShort, .size,
    .capacity].map fun c => c.number.toNat) = List.range 11 ∧
  (∀ (s : State) (n : Nat) (v : BitVec 32), s.fetch = some (.csrw n v) →
    (n = 0 → ∃ b, s.issue v = .next { s with blk := b } ∧
      step s = .next { s with blk := b, pc := s.pc + 1, result := .done }) ∧
    (n = 2 → step s = .next { s with blk := { s.blk with start := v.toNat }, pc := s.pc + 1, result := .done }) ∧
    (n ≠ 0 → n ≠ 2 → step s = .next { s with pc := s.pc + 1, result := .done }))

/-! Transport Block Codec. -/

/-- 41_transport_block_codec.md R121 to R124: `CRC_GEN` writes the 24 bits of the register over `PAY`, bit 23 first. -/
def Obligations.CrcGen : Prop :=
  Spells 0x10000000 .crcGen ∧
  ∀ s : State, s.Running →
    (s.blk.pay = none → exec .crcGen s = s.raised .empty) ∧
    ∀ p, s.blk.pay = some p →
      ∃ r, exec .crcGen s = s.done { s.blk with crcb := some r } ∧ r.length = 24 ∧
        ∀ i < 24, bitAt r i = (crcNat s.cfg.crcVariant p).testBit (23 - i)

/-- 41_transport_block_codec.md R125: `CRC_VERIFY` writes `TBVALID` and `crc_fail` from the register over `TOT`, of any
length. -/
def Obligations.CrcVerify : Prop :=
  Spells 0x11000000 .crcVerify ∧
  ∀ s : State, s.Running →
    (s.blk.tot = none → exec .crcVerify s = s.raised .empty) ∧
    ∀ t, s.blk.tot = some t →
      exec .crcVerify s = s.done { s.blk with
        tbvalid := decide (crcNat s.cfg.crcVariant t = 0)
        status := { s.blk.status with crcFail := decide (crcNat s.cfg.crcVariant t ≠ 0) } }

/-- 41_transport_block_codec.md R126 (an inference of the spec from R121 and R122), in either variant: the register over any payload and its CRC bits is 0, and any single bit of
the two flipped makes it other than 0; the total bits that `CRC_GEN` and `TB_APPEND` make verify, and every one of them flipped
alone makes `CRC_VERIFY` report failure. -/
def Obligations.CrcDetectsSingleErrors : Prop :=
  (∀ (v : CrcVariant) (p : List Bit),
    let c := p ++ (List.range 24).map fun i => (crcNat v p).testBit (23 - i)
    crcNat v c = 0 ∧ ∀ i < c.length, crcNat v (flipBit c i) ≠ 0) ∧
  ∀ (s : State) (p : List Bit), s.Running → s.blk.pay = some p → p.length + 24 ≤ s.cfg.capBits →
    ∃ t c, execAll [.crcGen, .tbAppend] s = .next t ∧ t.blk.tot = some c ∧ c.length = p.length + 24 ∧
      (∃ u, exec .crcVerify t = .next u ∧ u.blk.tbvalid = true ∧ u.blk.status.crcFail = false) ∧
      ∀ i < c.length, ∃ u, exec .crcVerify { t with blk := { t.blk with tot := some (flipBit c i) } } = .next u ∧
        u.blk.status.code = .ok ∧ u.blk.tbvalid = false ∧ u.blk.status.crcFail = true

/-- 41_transport_block_codec.md R127, R128: `TB_APPEND` writes `PAY ++ CRCB`; `TB_SPLIT` writes all but the last 24 total bits to
`PAY` and those to `CRCB`. -/
def Obligations.TbAppendAndTbSplit : Prop :=
  Spells 0x12000000 .tbAppend ∧ Spells 0x13000000 .tbSplit ∧
  ∀ s : State, s.Running →
    (s.blk.pay = none ∨ s.blk.crcb = none → exec .tbAppend s = s.raised .empty) ∧
    (∀ p r, s.blk.pay = some p → s.blk.crcb = some r →
      (s.cfg.capBits < p.length + r.length → exec .tbAppend s = s.raised .capacity) ∧
      (p.length + r.length ≤ s.cfg.capBits → exec .tbAppend s = s.done { s.blk with tot := some (p ++ r) })) ∧
    (s.blk.tot = none → exec .tbSplit s = s.raised .empty) ∧
    (∀ t, s.blk.tot = some t →
      (t.length < 24 → exec .tbSplit s = s.raised .size) ∧
      (24 ≤ t.length → ∃ p r, exec .tbSplit s = s.done { s.blk with pay := some p, crcb := some r } ∧
        p ++ r = t ∧ r.length = 24))

/-- 41_transport_block_codec.md R129, R130: `REPEAT` writes each total bit `K_REP` times in a row. -/
def Obligations.Repeat : Prop :=
  Spells 0x14000000 .repeatBits ∧
  ∀ s : State, s.Running →
    (s.blk.tot = none → exec .repeatBits s = s.raised .empty) ∧
    ∀ t, s.blk.tot = some t →
      (s.cfg.capBits < s.cfg.kRep * t.length → exec .repeatBits s = s.raised .capacity) ∧
      (s.cfg.kRep * t.length ≤ s.cfg.capBits →
        ∃ d, exec .repeatBits s = s.done { s.blk with cod := some d } ∧ d.length = s.cfg.kRep * t.length ∧
          ∀ i j, i < t.length → j < s.cfg.kRep → bitAt d (i * s.cfg.kRep + j) = bitAt t i)

/-- 41_transport_block_codec.md R131, R132: `MAJORITY` writes the majority of each group of `K_REP` coded bits, a tie giving
0. -/
def Obligations.Majority : Prop :=
  Spells 0x15000000 .majority ∧
  ∀ s : State, s.Running →
    (s.blk.cod = none → exec .majority s = s.raised .empty) ∧
    ∀ y, s.blk.cod = some y →
      (y.length % s.cfg.kRep ≠ 0 → exec .majority s = s.raised .size) ∧
      (y.length % s.cfg.kRep = 0 →
        ∃ t, exec .majority s = s.done { s.blk with tot := some t } ∧ t.length = y.length / s.cfg.kRep ∧
          ∀ i < t.length,
            bitAt t i = decide (s.cfg.kRep < 2 * ∑ j ∈ Finset.range s.cfg.kRep, bitVal (bitAt y (i * s.cfg.kRep + j))))

/-- 41_transport_block_codec.md R131 (an inference of the spec): `MAJORITY` recovers `x` from every `COD` in which fewer than half of the `K_REP` copies of
each bit are wrong (for odd K: at most (K−1)/2 of them; none wrong, for every K). -/
def Obligations.MajorityCorrectsMinorities : Prop :=
  ∀ (s : State) (x y : List Bit), s.Running → 1 ≤ s.cfg.kRep → s.blk.cod = some y → y.length = s.cfg.kRep * x.length →
    (∀ i < x.length,
      2 * ((Finset.range s.cfg.kRep).filter fun j => bitAt y (i * s.cfg.kRep + j) ≠ bitAt x i).card < s.cfg.kRep) →
    exec .majority s = s.done { s.blk with tot := some x }

/-- 41_transport_block_codec.md R133, R135: `INTERLEAVE` writes by rows and reads by columns. -/
def Obligations.Interleave : Prop :=
  Spells 0x16000000 .interleave ∧
  ∀ s : State, s.Running →
    (s.blk.cod = none → exec .interleave s = s.raised .empty) ∧
    ∀ x, s.blk.cod = some x →
      (x.length ≠ s.cfg.ilvR * s.cfg.ilvC → exec .interleave s = s.raised .ilvSize) ∧
      (x.length = s.cfg.ilvR * s.cfg.ilvC →
        ∃ y, exec .interleave s = s.done { s.blk with ilv := some y } ∧ y.length = s.cfg.ilvR * s.cfg.ilvC ∧
          ∀ r c, r < s.cfg.ilvR → c < s.cfg.ilvC → bitAt y (c * s.cfg.ilvR + r) = bitAt x (r * s.cfg.ilvC + c))

/-- 41_transport_block_codec.md R134, R136: `DEINTERLEAVE` is the inverse placement. -/
def Obligations.Deinterleave : Prop :=
  Spells 0x17000000 .deinterleave ∧
  ∀ s : State, s.Running →
    (s.blk.ilv = none → exec .deinterleave s = s.raised .empty) ∧
    ∀ y, s.blk.ilv = some y →
      (y.length ≠ s.cfg.ilvR * s.cfg.ilvC → exec .deinterleave s = s.raised .ilvSize) ∧
      (y.length = s.cfg.ilvR * s.cfg.ilvC →
        ∃ x, exec .deinterleave s = s.done { s.blk with cod := some x } ∧ x.length = s.cfg.ilvR * s.cfg.ilvC ∧
          ∀ r c, r < s.cfg.ilvR → c < s.cfg.ilvC → bitAt x (r * s.cfg.ilvC + c) = bitAt y (c * s.cfg.ilvR + r))

/-- 41_transport_block_codec.md R134 (an inference of the spec): `DEINTERLEAVE` after `INTERLEAVE` leaves `COD` as it was, and `INTERLEAVE` after
`DEINTERLEAVE` leaves `ILV` as it was, for every sequence of length R·C. -/
def Obligations.InterleaverRoundTrip : Prop :=
  ∀ (s : State) (x : List Bit), s.Running → x.length = s.cfg.ilvR * s.cfg.ilvC →
    (s.blk.cod = some x →
      ∃ y, execAll [.interleave, .deinterleave] s = s.done { s.blk with ilv := some y, cod := some x }) ∧
    (s.blk.ilv = some x →
      ∃ y, execAll [.deinterleave, .interleave] s = s.done { s.blk with cod := some y, ilv := some x })

/-- 41_transport_block_codec.md R138: `TB_BUILD` has the errors of its rule in their order, and else ends in the state that
`CRC_GEN`, `TB_APPEND`, `REPEAT`, `INTERLEAVE` end in, all with code `OK`. -/
def Obligations.TbBuildIsItsSteps : Prop :=
  Spells 0x18000000 .tbBuild ∧
  ∀ s : State, s.Running →
    (s.blk.pay = none → exec .tbBuild s = s.raised .empty) ∧
    ∀ p, s.blk.pay = some p →
      (s.cfg.capBits < p.length + 24 ∨ s.cfg.capBits < s.cfg.kRep * (p.length + 24) →
        exec .tbBuild s = s.raised .capacity) ∧
      (p.length + 24 ≤ s.cfg.capBits → s.cfg.kRep * (p.length + 24) ≤ s.cfg.capBits →
        (s.cfg.kRep * (p.length + 24) ≠ s.cfg.ilvR * s.cfg.ilvC → exec .tbBuild s = s.raised .ilvSize) ∧
        (s.cfg.kRep * (p.length + 24) = s.cfg.ilvR * s.cfg.ilvC →
          ∃ c t d v, exec .tbBuild s =
              s.done { s.blk with crcb := some c, tot := some t, cod := some d, ilv := some v } ∧
            execAll [.crcGen, .tbAppend, .repeatBits, .interleave] s = exec .tbBuild s))

/-- 41_transport_block_codec.md R139: `TB_PROCESS` has the errors of its rule in their order, and else ends in the state that
`DEINTERLEAVE`, `MAJORITY`, `TB_SPLIT`, `CRC_VERIFY` end in, with code `OK` whatever the CRC. -/
def Obligations.TbProcessIsItsSteps : Prop :=
  Spells 0x19000000 .tbProcess ∧
  ∀ s : State, s.Running →
    (s.blk.ilv = none → exec .tbProcess s = s.raised .empty) ∧
    ∀ y, s.blk.ilv = some y →
      (y.length ≠ s.cfg.ilvR * s.cfg.ilvC → exec .tbProcess s = s.raised .ilvSize) ∧
      (y.length = s.cfg.ilvR * s.cfg.ilvC →
        (y.length % s.cfg.kRep ≠ 0 ∨ y.length / s.cfg.kRep < 24 → exec .tbProcess s = s.raised .size) ∧
        (y.length % s.cfg.kRep = 0 → 24 ≤ y.length / s.cfg.kRep →
          ∃ d t p c ok, exec .tbProcess s = s.done { s.blk with
                cod := some d, tot := some t, pay := some p, crcb := some c, tbvalid := ok
                status := { s.blk.status with crcFail := !ok } } ∧
            execAll [.deinterleave, .majority, .tbSplit, .crcVerify] s = exec .tbProcess s))

/-- 41_transport_block_codec.md R120: the transmit path and the receive path round-trip exactly in the noiseless case, in either CRC
variant and for every repetition factor. `TB_PROCESS` runs with every buffer but `ILV` invalidated. -/
def Obligations.TransportBlockRoundTrip : Prop :=
  ∀ (s : State) (p : List Bit), s.Running → s.blk.pay = some p → 1 ≤ s.cfg.kRep →
    s.cfg.kRep * (p.length + 24) ≤ s.cfg.capBits → s.cfg.kRep * (p.length + 24) = s.cfg.ilvR * s.cfg.ilvC →
    ∃ t u, exec .tbBuild s = .next t ∧
      exec .tbProcess { t with blk := { t.blk with pay := none, crcb := none, tot := none, cod := none } } = .next u ∧
      t.blk.crcb.isSome = true ∧ t.blk.tot.isSome = true ∧ t.blk.cod.isSome = true ∧ u.blk.pay = some p ∧ u.blk.crcb = t.blk.crcb ∧
      u.blk.tot = t.blk.tot ∧ u.blk.cod = t.blk.cod ∧ u.blk.ilv = t.blk.ilv ∧ u.blk.tbvalid = true ∧
      u.blk.status.crcFail = false ∧ u.blk.status.code = .ok

/-! Constellation Modulator. -/

/-- 42_constellation.md R151 to R153: `CONST_BUILD b` builds the scaled spiral and takes the configured tuples; an unsupported b
raises `ERR_BPS_RANGE`. -/
def Obligations.ConstBuild : Prop :=
  (∀ b < 2 ^ 24, Spells (BitVec.ofNat 32 (0x20 * 2 ^ 24 + b)) (.constBuild b)) ∧
  ∀ (s : State) (b : Nat), s.cfg.Wf → s.Running →
    (b ∉ s.cfg.supportedBps → exec (.constBuild b) s = s.raised .bpsRange) ∧
    (b ∈ s.cfg.supportedBps →
      ∃ k, exec (.constBuild b) s = s.done { s.blk with const := some k } ∧ k.b = b ∧ k.tup = s.cfg.bitmap b ∧
        k.pt.length = 2 ^ b ∧
        ∀ i < 2 ^ b, cval k.pt i =
          (Real.sqrt (2 * ((i : ℝ) + 1) / ((2 : ℝ) ^ b + 1)) : ℂ) *
            ((Real.cos (((i : ℝ) + 1) * goldenAngle) : ℂ) + (Real.sin (((i : ℝ) + 1) * goldenAngle) : ℂ) * Complex.I))

/-- 42_constellation.md R152: the mean power over all points is 1, and the moduli rise strictly with the index, so that the points
are distinct (R157). -/
def Obligations.ConstellationMeanPower : Prop :=
  ∀ (s t : State) (b : Nat), s.cfg.Wf → s.Running → b ∈ s.cfg.supportedBps → exec (.constBuild b) s = .next t →
    ∃ k, t.blk.const = some k ∧
      (1 / (2 : ℝ) ^ b) * ∑ i ∈ Finset.range (2 ^ b), ‖cval k.pt i‖ ^ 2 = 1 ∧
      ∀ i j, i < j → j < 2 ^ b → ‖cval k.pt i‖ < ‖cval k.pt j‖

/-- 42_constellation.md R154: `MODULATE` maps each group of b bits to the point whose tuple it is. The constellation record is a
bijection, as the invariant says (10_state.md R27). -/
def Obligations.Modulate : Prop :=
  Spells 0x21000000 .modulate ∧
  ∀ s : State, s.Running →
    (s.blk.ilv = none ∨ s.blk.const = none → exec .modulate s = s.raised .empty) ∧
    ∀ bits k, s.blk.ilv = some bits → s.blk.const = some k → k.Ok →
      (bits.length % k.b ≠ 0 → exec .modulate s = s.raised .modLen) ∧
      (bits.length % k.b = 0 → s.cfg.capSyms < bits.length / k.b → exec .modulate s = s.raised .capacity) ∧
      (bits.length % k.b = 0 → bits.length / k.b ≤ s.cfg.capSyms →
        ∃ ys, exec .modulate s = s.done { s.blk with syms := some ys } ∧ ys.length = bits.length / k.b ∧
          ∀ g < ys.length, ∃ i < 2 ^ k.b, k.tup[i]? = some (slice bits (g * k.b) k.b) ∧ ys[g]? = k.pt[i]?)

/-- 42_constellation.md R155, R156: `DEMODULATE` emits for every symbol the tuple of the nearest point, the lowest index among
equals, over exact reals. -/
def Obligations.Demodulate : Prop :=
  Spells 0x22000000 .demodulate ∧
  ∀ s : State, s.Running →
    (s.blk.syms = none ∨ s.blk.const = none → exec .demodulate s = s.raised .empty) ∧
    ∀ ys k, s.blk.syms = some ys → s.blk.const = some k → k.Ok →
      (s.cfg.capBits < k.b * ys.length → exec .demodulate s = s.raised .capacity) ∧
      (k.b * ys.length ≤ s.cfg.capBits →
        ∃ out, exec .demodulate s = s.done { s.blk with ilv := some out } ∧ out.length = k.b * ys.length ∧
          ∀ g < ys.length, ∃ i < 2 ^ k.b, k.tup[i]? = some (slice out (g * k.b) k.b) ∧
            (∀ j < 2 ^ k.b, distR (cval ys g) (cval k.pt i) ≤ distR (cval ys g) (cval k.pt j)) ∧
            ∀ j < i, distR (cval ys g) (cval k.pt i) < distR (cval ys g) (cval k.pt j))

/-- 42_constellation.md R157 (an inference of the spec): for every supported b and every bit sequence in whole groups,
`DEMODULATE` after `MODULATE` writes the same bits back. -/
def Obligations.ModulationRoundTrip : Prop :=
  ∀ (s : State) (b : Nat) (bits : List Bit), s.cfg.Wf → s.Running → b ∈ s.cfg.supportedBps → s.blk.ilv = some bits →
    bits.length % b = 0 → bits.length / b ≤ s.cfg.capSyms → bits.length ≤ s.cfg.capBits →
    ∃ t u, execAll [.constBuild b, .modulate] s = .next t ∧
      exec .demodulate { t with blk := { t.blk with ilv := none } } = .next u ∧ u.blk.ilv = some bits ∧ u.blk.status.code = .ok

/-! Resource Grid Mapper. -/

/-- 43_resource_grid.md R171: `DATA_IDX` lists the N_D non-pilot subcarriers ascending, and `RE` visits every data cell of the grid
exactly once, in row-major order. -/
def Obligations.TraversalOrder : Prop :=
  ∀ c : Cfg, c.Wf →
    c.dataIdx.length = c.nD ∧ c.dataIdx.Pairwise (· < ·) ∧ (∀ k, k ∈ c.dataIdx ↔ k < c.nSc ∧ k ∉ c.pilotIdx) ∧
    (∀ q < c.cap, (reCell c q).1 < c.nSym ∧ (reCell c q).2 ∈ c.dataIdx) ∧
    (∀ l k, l < c.nSym → k ∈ c.dataIdx → ∃ q < c.cap, reCell c q = (l, k)) ∧
    (∀ q q', q < q' → q' < c.cap →
      (reCell c q).1 < (reCell c q').1 ∨ ((reCell c q).1 = (reCell c q').1 ∧ (reCell c q).2 < (reCell c q').2))

/-- 43_resource_grid.md R172: `GRID_INIT` writes zero data and pilots of the known value, whatever the grid held. -/
def Obligations.GridInit : Prop :=
  Spells 0x30000000 .gridInit ∧
  ∀ s : State, s.Running →
    exec .gridInit s = s.done { s.blk with
      grid := some ⟨List.replicate (s.cfg.nSym * s.cfg.nSc) ⟨.rat 0, .rat 0⟩,
        List.replicate (s.cfg.nSym * s.cfg.nPil) s.cfg.pilotVal⟩ }

/-- 43_resource_grid.md R173: `GRID_MAP` writes symbol q to cell `RE(q)` and leaves every other cell and the pilots as they were;
more symbols than the capacity raise `ERR_GRID_CAPACITY`. The grid has its shape, as the invariant says. -/
def Obligations.GridMap : Prop :=
  Spells 0x31000000 .gridMap ∧
  ∀ s : State, s.cfg.Wf → s.Running →
    (s.blk.syms = none ∨ s.blk.grid = none → exec .gridMap s = s.raised .empty) ∧
    ∀ ys g, s.blk.syms = some ys → s.blk.grid = some g → g.data.length = s.cfg.nSym * s.cfg.nSc →
      (s.cfg.cap < ys.length → exec .gridMap s = s.raised .gridCapacity) ∧
      (ys.length ≤ s.cfg.cap →
        ∃ d, exec .gridMap s = s.done { s.blk with grid := some { g with data := d } } ∧ d.length = g.data.length ∧
          ∀ l k, l < s.cfg.nSym → k < s.cfg.nSc →
            (∀ q < ys.length, reCell s.cfg q = (l, k) → sampleAt d (l * s.cfg.nSc + k) = sampleAt ys q) ∧
            ((∀ q < ys.length, reCell s.cfg q ≠ (l, k)) →
              sampleAt d (l * s.cfg.nSc + k) = sampleAt g.data (l * s.cfg.nSc + k)))

/-- 43_resource_grid.md R174: `GRID_EXTRACT n` takes the first n data cells in the order `RE`; too many raise
`ERR_GRID_CAPACITY`, then `ERR_CAPACITY`. -/
def Obligations.GridExtract : Prop :=
  (∀ n < 2 ^ 24, Spells (BitVec.ofNat 32 (0x32 * 2 ^ 24 + n)) (.gridExtract n)) ∧
  ∀ (s : State) (n : Nat), s.cfg.Wf → s.Running →
    (s.blk.grid = none → exec (.gridExtract n) s = s.raised .empty) ∧
    ∀ g, s.blk.grid = some g →
      (s.cfg.cap < n → exec (.gridExtract n) s = s.raised .gridCapacity) ∧
      (n ≤ s.cfg.cap → s.cfg.capSyms < n → exec (.gridExtract n) s = s.raised .capacity) ∧
      (n ≤ s.cfg.cap → n ≤ s.cfg.capSyms →
        ∃ ys, exec (.gridExtract n) s = s.done { s.blk with syms := some ys } ∧ ys.length = n ∧
          ∀ q < n, sampleAt ys q = sampleAt g.data ((reCell s.cfg q).1 * s.cfg.nSc + (reCell s.cfg q).2))

/-- 43_resource_grid.md R174 (an inference of the spec): `GRID_MAP` followed by `GRID_EXTRACT SYMS.len` returns the same
`SYMS`, which are invalidated in between. -/
def Obligations.GridMapThenExtract : Prop :=
  ∀ (s : State) (ys : List Cplx) (g : Grid), s.cfg.Wf → s.Running → s.blk.syms = some ys → s.blk.grid = some g →
    g.data.length = s.cfg.nSym * s.cfg.nSc → ys.length ≤ s.cfg.cap → ys.length ≤ s.cfg.capSyms →
    ∃ t d, exec .gridMap s = .next t ∧ t.blk.syms = some ys ∧
      exec (.gridExtract ys.length) { t with blk := { t.blk with syms := none } } =
        s.done { s.blk with syms := some ys, grid := some { g with data := d } }

/-- 43_resource_grid.md R175, R176, R178: `GRID2TD` writes for each OFDM symbol the inverse transform of the vector that holds data
cell k in bin `SC_OFFSET + k`, pilot p in bin `SC_OFFSET + PILOT_IDX[p]`, and 0 elsewhere. -/
def Obligations.Grid2Td : Prop :=
  Spells 0x33000000 .grid2td ∧
  ∀ s : State, s.cfg.Wf → s.Running →
    (s.blk.grid = none → exec .grid2td s = s.raised .empty) ∧
    ∀ g, s.blk.grid = some g →
      ∃ x, exec .grid2td s = s.done { s.blk with td := some x } ∧ x.length = s.cfg.nSym * s.cfg.nFft ∧
        ∀ X : ℕ → ℕ → ℂ,
          (∀ l k, l < s.cfg.nSym → k < s.cfg.nSc → k ∉ s.cfg.pilotIdx →
            X l (s.cfg.scOffset + k) = cval g.data (l * s.cfg.nSc + k)) →
          (∀ l p, l < s.cfg.nSym → p < s.cfg.nPil →
            X l (s.cfg.scOffset + s.cfg.pilotIdx.getD p 0) = cval g.pilot (l * s.cfg.nPil + p)) →
          (∀ l m, l < s.cfg.nSym → m < s.cfg.nFft → m < s.cfg.scOffset ∨ s.cfg.scOffset + s.cfg.nSc ≤ m → X l m = 0) →
          ∀ l n, l < s.cfg.nSym → n < s.cfg.nFft →
            cval x (l * s.cfg.nFft + n) = (1 / (Real.sqrt s.cfg.nFft : ℂ)) *
              ∑ k ∈ Finset.range s.cfg.nFft,
                X l k * Complex.exp (2 * Real.pi * k * n / s.cfg.nFft * Complex.I)

/-- 43_resource_grid.md R177, R179: `TD2GRID` writes the forward transform of each time-domain symbol into the data cells and the
pilots, and 0 into the data array at the pilot subcarriers. -/
def Obligations.Td2Grid : Prop :=
  Spells 0x34000000 .td2grid ∧
  ∀ s : State, s.cfg.Wf → s.Running →
    (s.blk.td = none → exec .td2grid s = s.raised .empty) ∧
    ∀ x, s.blk.td = some x →
      ∃ g, exec .td2grid s = s.done { s.blk with grid := some g } ∧ g.data.length = s.cfg.nSym * s.cfg.nSc ∧
        g.pilot.length = s.cfg.nSym * s.cfg.nPil ∧
        ∀ F : ℕ → ℕ → ℂ,
          (∀ l m, F l m = (1 / (Real.sqrt s.cfg.nFft : ℂ)) *
            ∑ n ∈ Finset.range s.cfg.nFft,
              cval x (l * s.cfg.nFft + n) * Complex.exp (-(2 * Real.pi * m * n / s.cfg.nFft * Complex.I))) →
          ∀ l < s.cfg.nSym,
            (∀ k < s.cfg.nSc, k ∉ s.cfg.pilotIdx → cval g.data (l * s.cfg.nSc + k) = F l (s.cfg.scOffset + k)) ∧
            (∀ k ∈ s.cfg.pilotIdx, sampleAt g.data (l * s.cfg.nSc + k) = ⟨.rat 0, .rat 0⟩) ∧
            (∀ p < s.cfg.nPil, cval g.pilot (l * s.cfg.nPil + p) = F l (s.cfg.scOffset + s.cfg.pilotIdx.getD p 0))

/-- 43_resource_grid.md R180 (an inference of the spec): `GRID2TD` followed by `TD2GRID` gives the pilots and the data back over exact reals, and 0 in the data
array at the pilot subcarriers. -/
def Obligations.GridTransformRoundTrip : Prop :=
  ∀ (s : State) (g : Grid), s.cfg.Wf → s.Running → s.blk.grid = some g →
    g.pilot.length = s.cfg.nSym * s.cfg.nPil →
    ∃ x g', execAll [.grid2td, .td2grid] s = s.done { s.blk with td := some x, grid := some g' } ∧
      Cplx.vals g'.pilot = Cplx.vals g.pilot ∧
      ∀ l k, l < s.cfg.nSym → k < s.cfg.nSc →
        cval g'.data (l * s.cfg.nSc + k) = if k ∈ s.cfg.pilotIdx then 0 else cval g.data (l * s.cfg.nSc + k)

/-! Frame Framer. -/

/-- 44_frame_framer.md R191, R192: `PRE_GEN` writes +1 for a synchronisation bit 1 and −1 for a bit 0; repeating it changes
nothing, and `PRE` survives `TX_RESET`. -/
def Obligations.PreGen : Prop :=
  Spells 0x40000000 .preGen ∧
  ∀ s : State, s.Running →
    (∃ p, exec .preGen s = s.done { s.blk with pre := some p } ∧ p.length = s.cfg.lPre ∧
      ∀ i < s.cfg.lPre, cval p i = if bitAt s.cfg.syncBits i then 1 else -1) ∧
    ∃ t u, exec .preGen s = .next t ∧ exec .preGen t = .next t ∧ exec .txReset t = .next u ∧ u.blk.pre = t.blk.pre

/-- 44_frame_framer.md R193 to R195: `CP_ADD` puts before each symbol its last N_CP samples; `CP_REMOVE` drops the first N_CP samples
of each symbol. -/
def Obligations.CyclicPrefix : Prop :=
  Spells 0x41000000 .cpAdd ∧ Spells 0x42000000 .cpRemove ∧
  ∀ s : State, s.cfg.Wf → s.Running →
    (s.blk.td = none → exec .cpAdd s = s.raised .empty) ∧
    (∀ x, s.blk.td = some x → x.length = s.cfg.nSym * s.cfg.nFft →
      (s.cfg.capFrame < s.cfg.lPl → exec .cpAdd s = s.raised .capacity) ∧
      (s.cfg.lPl ≤ s.cfg.capFrame →
        ∃ y, exec .cpAdd s = s.done { s.blk with cps := some y } ∧ y.length = s.cfg.lPl ∧
          ∀ l < s.cfg.nSym,
            (∀ i < s.cfg.nCp,
              sampleAt y (l * s.cfg.lSym + i) = sampleAt x (l * s.cfg.nFft + (s.cfg.nFft - s.cfg.nCp + i))) ∧
            (∀ i < s.cfg.nFft, sampleAt y (l * s.cfg.lSym + s.cfg.nCp + i) = sampleAt x (l * s.cfg.nFft + i)))) ∧
    (s.blk.cps = none → exec .cpRemove s = s.raised .empty) ∧
    (∀ y, s.blk.cps = some y →
      (y.length ≠ s.cfg.lPl → exec .cpRemove s = s.raised .size) ∧
      (y.length = s.cfg.lPl →
        ∃ x, exec .cpRemove s = s.done { s.blk with td := some x } ∧ x.length = s.cfg.nSym * s.cfg.nFft ∧
          ∀ l n, l < s.cfg.nSym → n < s.cfg.nFft →
            sampleAt x (l * s.cfg.nFft + n) = sampleAt y (l * s.cfg.lSym + s.cfg.nCp + n)))

/-- 44_frame_framer.md R196, R209: `FRAME_BUILD` writes `PRE ++ CPS`; `FRAME_EXTRACT` copies the `L_PL` samples from `START` on, or
raises `ERR_FRAME_SHORT`, compared as naturals. -/
def Obligations.FrameBuildAndExtract : Prop :=
  Spells 0x43000000 .frameBuild ∧ Spells 0x45000000 .frameExtract ∧
  ∀ s : State, s.Running →
    (s.blk.pre = none ∨ s.blk.cps = none → exec .frameBuild s = s.raised .empty) ∧
    (∀ p y, s.blk.pre = some p → s.blk.cps = some y →
      (y.length ≠ s.cfg.lPl → exec .frameBuild s = s.raised .size) ∧
      (y.length = s.cfg.lPl → s.cfg.capFrame < s.cfg.lFrame → exec .frameBuild s = s.raised .capacity) ∧
      (y.length = s.cfg.lPl → s.cfg.lFrame ≤ s.cfg.capFrame →
        exec .frameBuild s = s.done { s.blk with frame := some (p ++ y) })) ∧
    (s.blk.frame = none → exec .frameExtract s = s.raised .empty) ∧
    (∀ r, s.blk.frame = some r →
      (r.length < s.blk.start + s.cfg.lPl → exec .frameExtract s = s.raised .frameShort) ∧
      (s.blk.start + s.cfg.lPl ≤ r.length →
        ∃ y, exec .frameExtract s = s.done { s.blk with cps := some y } ∧ y.length = s.cfg.lPl ∧
          ∀ i < s.cfg.lPl, sampleAt y i = sampleAt r (s.blk.start + i)))

/-- 44_frame_framer.md R200 to R205: `FRAME_DETECT` completes on every frame; `SCORE` is the maximum score over the
`FRAME.len − L_PRE` offsets, at the lowest offset that has it, `START` is that offset plus `L_PRE` when the maximum exceeds 7/10,
and else, and without an offset to search, `FALLBACK_START` with `det_fallback` set. Over exact reals, for every frame and
preamble. -/
def Obligations.FrameDetect : Prop :=
  Spells 0x44000000 .frameDetect ∧
  ∀ s : State, s.Running →
    (s.blk.pre = none ∨ s.blk.frame = none → exec .frameDetect s = s.raised .empty) ∧
    ∀ p r, s.blk.pre = some p → s.blk.frame = some r →
      ∃ st sc fb, exec .frameDetect s =
          s.done { s.blk with start := st, score := sc, status := { s.blk.status with detFallback := fb } } ∧
        (r.length ≤ s.cfg.lPre → st = s.cfg.fallbackStart ∧ sc.val = 0 ∧ fb = true) ∧
        (s.cfg.lPre < r.length →
          ∃ d < r.length - s.cfg.lPre, sc.val = scoreR s.cfg.lPre r p d ∧
            (∀ d' < r.length - s.cfg.lPre, scoreR s.cfg.lPre r p d' ≤ scoreR s.cfg.lPre r p d) ∧
            (∀ d' < d, scoreR s.cfg.lPre r p d' < scoreR s.cfg.lPre r p d) ∧
            (7 / 10 < scoreR s.cfg.lPre r p d → st = d + s.cfg.lPre ∧ fb = false) ∧
            (scoreR s.cfg.lPre r p d ≤ 7 / 10 → st = s.cfg.fallbackStart ∧ fb = true))

/-- 44_frame_framer.md R210 (an inference of the spec): `FRAME_DETECT` on a built frame, whatever its samples, gives
`START = L_PRE`, `SCORE = 1` and no fallback, and `FRAME_EXTRACT` writes the same `CPS` back. -/
def Obligations.FrameRoundTrip : Prop :=
  ∀ (s : State) (y : List Cplx), s.cfg.Wf → s.Running → s.blk.cps = some y →
    y.length = s.cfg.lPl → s.cfg.lFrame ≤ s.cfg.capFrame → 1 ≤ s.cfg.lPl →
    ∃ t u, execAll [.preGen, .frameBuild, .frameDetect] s = .next t ∧ t.blk.start = s.cfg.lPre ∧ t.blk.score.val = 1 ∧
      t.blk.status.detFallback = false ∧
      exec .frameExtract { t with blk := { t.blk with cps := none } } = .next u ∧ u.blk.cps = some y ∧
      u.blk.status.code = .ok

/-! Synchronization Trackers. `validPilot` and `nearZero` are the comparisons of 46_sync_trackers.md R231 and R240; `Thresholds`
says what they decide. -/

/-- 46_sync_trackers.md R231, R240: a pilot is valid when its magnitude is strictly above 1/10, and a correction is near zero when
its size is strictly below `EPS_CORR`, over exact reals; with `EPS_CORR = 0` none is. -/
def Obligations.Thresholds : Prop :=
  (∀ z : Cplx, validPilot z = true ↔ 1 / 10 < ‖z.val‖) ∧
  (∀ (c : Cfg) (θ : Sys2Proof.Num), nearZero c θ = true ↔ |θ.val| < c.epsCorr.val) ∧
  (∀ (c : Cfg) (θ : Sys2Proof.Num), c.epsCorr.val = 0 → nearZero c θ = false)

/-- 46_sync_trackers.md R233 to R235, R239 to R241: `CFO_TRACK` averages the phases of the valid pilots, filters, and rotates every
data cell and every pilot by the negated filtered phase; gated, it writes the count and the flag only; near zero, it updates the
record and does not rotate. -/
def Obligations.CfoTrack : Prop :=
  Spells 0x50000000 .cfoTrack ∧
  ∀ s : State, s.cfg.Wf → s.Running →
    (s.blk.grid = none → exec .cfoTrack s = s.raised .empty) ∧
    ∀ g, s.blk.grid = some g →
      let v := g.pilot.filter validPilot
      (v.length = 0 ∨ 3 * v.length < s.cfg.nSym * s.cfg.nPil →
        exec .cfoTrack s = s.done { s.blk with
          cfo := { s.blk.cfo with nvalid := v.length }, status := { s.blk.status with cfoSkip := true } }) ∧
      (0 < v.length → s.cfg.nSym * s.cfg.nPil ≤ 3 * v.length →
        ∃ t : Tracker, Filtered s.cfg.alphaCfo s.blk.cfo t (meanR (v.map (phaseR s.cfg))) ∧ t.nvalid = v.length ∧
          (nearZero s.cfg t.filt = true →
            exec .cfoTrack s = s.done { s.blk with cfo := t, status := { s.blk.status with cfoSkip := true } }) ∧
          (nearZero s.cfg t.filt = false →
            ∃ g', exec .cfoTrack s = s.done { s.blk with
                cfo := t, grid := some g', status := { s.blk.status with cfoSkip := false } } ∧
              DataRotated s.cfg (fun _ => unrot t.filt.val) g.data g'.data ∧
              g'.pilot.length = g.pilot.length ∧
              ∀ x < g.pilot.length, cval g'.pilot x = cval g.pilot x * unrot t.filt.val))

/-- 46_sync_trackers.md R233, R234, R236, R239 to R241: `CPE_TRACK` takes the argument of the sum of the unit vectors of the usable
symbols' mean phases, filters, and rotates every data cell and no pilot; gated or near zero as the rule says. -/
def Obligations.CpeTrack : Prop :=
  Spells 0x51000000 .cpeTrack ∧
  ∀ s : State, s.cfg.Wf → s.Running →
    (s.blk.grid = none → exec .cpeTrack s = s.raised .empty) ∧
    ∀ g, s.blk.grid = some g →
      let v : ℕ → List Cplx := fun l =>
        ((List.range s.cfg.nPil).map fun p => sampleAt g.pilot (l * s.cfg.nPil + p)).filter validPilot
      let usable := (List.range s.cfg.nSym).filter fun l => (v l).length ≠ 0
      let n := (usable.map fun l => (v l).length).sum
      (usable.length = 0 ∨ 2 * usable.length < s.cfg.nSym →
        exec .cpeTrack s = s.done { s.blk with
          cpe := { s.blk.cpe with nvalid := n }, status := { s.blk.status with cpeSkip := true } }) ∧
      (0 < usable.length → s.cfg.nSym ≤ 2 * usable.length →
        ∃ t : Tracker,
          Filtered s.cfg.alphaCpe s.blk.cpe t
            (usable.map fun l => Complex.exp (meanR ((v l).map (phaseR s.cfg)) * Complex.I)).sum.arg ∧
          t.nvalid = n ∧
          (nearZero s.cfg t.filt = true →
            exec .cpeTrack s = s.done { s.blk with cpe := t, status := { s.blk.status with cpeSkip := true } }) ∧
          (nearZero s.cfg t.filt = false →
            ∃ d, exec .cpeTrack s = s.done { s.blk with
                cpe := t, grid := some { g with data := d }, status := { s.blk.status with cpeSkip := false } } ∧
              DataRotated s.cfg (fun _ => unrot t.filt.val) g.data d))

/-- 46_sync_trackers.md R233, R234, R237, R239 to R241: `SCO_TRACK` only stores the pilots on the first frame; later it averages the
phase differences of the valid pairs, filters, accumulates, counts, rotates the data cells uniformly or by the ramp, and stores
the pilots in every case, gated and near zero included. -/
def Obligations.ScoTrack : Prop :=
  Spells 0x52000000 .scoTrack ∧
  ∀ s : State, s.cfg.Wf → s.Running →
    (s.blk.grid = none → exec .scoTrack s = s.raised .empty) ∧
    ∀ g, s.blk.grid = some g →
      (s.blk.scoPrev = none →
        exec .scoTrack s = s.done { s.blk with
          sco := { s.blk.sco with trk := { s.blk.sco.trk with nvalid := 0 } }, scoPrev := some g.pilot
          status := { s.blk.status with scoSkip := true } }) ∧
      ∀ prev, s.blk.scoPrev = some prev →
        let w := (g.pilot.zip prev).filter fun z => validPilot z.1 && validPilot z.2
        (w.length = 0 ∨ 2 * w.length < s.cfg.nSym * s.cfg.nPil →
          exec .scoTrack s = s.done { s.blk with
            sco := { s.blk.sco with trk := { s.blk.sco.trk with nvalid := w.length } }, scoPrev := some g.pilot
            status := { s.blk.status with scoSkip := true } }) ∧
        (0 < w.length → s.cfg.nSym * s.cfg.nPil ≤ 2 * w.length →
          ∃ t : ScoTracker,
            Filtered s.cfg.alphaSco s.blk.sco.trk t.trk
              (meanR (w.map fun z => (z.1.val * (starRingEnd ℂ) z.2.val).arg)) ∧
            t.trk.nvalid = w.length ∧ t.acc.val = s.blk.sco.acc.val + t.trk.filt.val ∧ t.nupd = s.blk.sco.nupd + 1 ∧
            (nearZero s.cfg t.acc = true →
              exec .scoTrack s = s.done { s.blk with
                sco := t, scoPrev := some g.pilot, status := { s.blk.status with scoSkip := true } }) ∧
            (nearZero s.cfg t.acc = false →
              ∃ d, exec .scoTrack s = s.done { s.blk with
                  sco := t, scoPrev := some g.pilot, grid := some { g with data := d }
                  status := { s.blk.status with scoSkip := false } } ∧
                (s.cfg.scoMode = .uniform → DataRotated s.cfg (fun _ => unrot t.acc.val) g.data d) ∧
                (s.cfg.scoMode = .ramp →
                  DataRotated s.cfg (fun k => unrot (t.acc.val * (k - s.cfg.kCenter.val))) g.data d)))

/-- 46_sync_trackers.md R233, R244 (an inference of the spec): under a constant estimate c after a first one the filter's error
shrinks by the factor 1−α per update; with every pilot at the constant phase θ0 `CFO_TRACK` and `CPE_TRACK` have raw and filtered
estimate θ0 from the first update on; with every pilot advanced by δ since the previous frame `SCO_TRACK` has raw and filtered
estimate δ from the first update on and accumulates it, so a constant phase (δ = 0) accumulates nothing. -/
def Obligations.TrackerConvergence : Prop :=
  (∀ (α new c : Sys2Proof.Num) (t : Tracker) (n : Nat), t.init = false →
    ((fun u : Tracker => u.iir α c)^[n] (t.iir α new)).filt.val - c.val = (1 - α.val) ^ n * (new.val - c.val)) ∧
  (∀ (s : State) (g : Grid) (θ : ℝ), s.cfg.Wf → s.Running → s.blk.grid = some g →
    θ ∈ Set.Ioc (-Real.pi) Real.pi → 0 < g.pilot.length → g.pilot.length = s.cfg.nSym * s.cfg.nPil →
    (∀ z ∈ g.pilot, z.val = s.cfg.pilotVal.val * Complex.exp (θ * Complex.I) ∧ validPilot z = true) →
    (s.blk.cfo.init = false ∨ s.blk.cfo.filt.val = θ →
      ∃ t, exec .cfoTrack s = .next t ∧ t.blk.cfo.raw.val = θ ∧ t.blk.cfo.filt.val = θ ∧ t.blk.cfo.init = true ∧
        t.blk.cfo.nvalid = s.cfg.nSym * s.cfg.nPil ∧ t.blk.status.code = .ok) ∧
    (s.blk.cpe.init = false ∨ s.blk.cpe.filt.val = θ →
      ∃ t, exec .cpeTrack s = .next t ∧ t.blk.cpe.raw.val = θ ∧ t.blk.cpe.filt.val = θ ∧ t.blk.cpe.init = true ∧
        t.blk.cpe.nvalid = s.cfg.nSym * s.cfg.nPil ∧ t.blk.status.code = .ok)) ∧
  (∀ (s : State) (g : Grid) (prev : List Cplx) (δ : ℝ), s.cfg.Wf → s.Running → s.blk.grid = some g →
    s.blk.scoPrev = some prev → |δ| < Real.pi → 0 < g.pilot.length → g.pilot.length = s.cfg.nSym * s.cfg.nPil →
    prev.length = g.pilot.length → (∀ z ∈ prev, validPilot z = true) →
    (∀ x < prev.length, cval g.pilot x = cval prev x * Complex.exp (δ * Complex.I)) →
    s.blk.sco.trk.init = false ∨ s.blk.sco.trk.filt.val = δ →
    ∃ t, exec .scoTrack s = .next t ∧ t.blk.sco.trk.raw.val = δ ∧ t.blk.sco.trk.filt.val = δ ∧
      t.blk.sco.acc.val = s.blk.sco.acc.val + δ ∧ t.blk.sco.nupd = s.blk.sco.nupd + 1 ∧
      t.blk.sco.trk.nvalid = s.cfg.nSym * s.cfg.nPil ∧ t.blk.scoPrev = some g.pilot ∧ t.blk.status.code = .ok)

end
end

