-- ==== Sys2Proof/Laws/NumVal.lean ====
section
/-! SUPPORT. Every operation of Machine/Num.lean is exact: the value of its result is the real (or complex) operation on the
values of its operands (00_scope.md R14, 47_arithmetic.md R323). -/

namespace Sys2Proof

namespace Num

@[simp] theorem val_rat (q : Rat) : (Num.rat q).val = (q : ℝ) := rfl
@[simp] theorem val_piMul (q : Rat) : (Num.piMul q).val = (q : ℝ) * Real.pi := rfl
@[simp] theorem val_zero : zero.val = 0 := by simp [zero]
@[simp] theorem val_one : one.val = 1 := by simp [one]
@[simp] theorem val_ofNat (n : Nat) : (ofNat n).val = (n : ℝ) := by simp [ofNat]

theorem val_root (q : Rat) : (Num.root q).val = if 0 ≤ q then Real.sqrt q else -Real.sqrt (-q) := rfl

theorem val_root_of_nonneg {q : Rat} (h : 0 ≤ q) : (Num.root q).val = Real.sqrt q := if_pos h

theorem val_root_of_neg {q : Rat} (h : q < 0) : (Num.root q).val = -Real.sqrt (-q) := if_neg (not_le.mpr h)

theorem val_root_zero : (Num.root 0).val = 0 := by simp [val_root]

/-- A signed root times its own size is the rational under it. -/
theorem val_root_mul_abs (q : Rat) : (Num.root q).val * |(Num.root q).val| = (q : ℝ) := by
  rcases le_or_gt 0 q with h | h
  · have h' : (0 : ℝ) ≤ (q : ℝ) := by exact_mod_cast h
    rw [val_root_of_nonneg h, abs_of_nonneg (Real.sqrt_nonneg _), Real.mul_self_sqrt h']
  · have h0 : (q : ℝ) < 0 := by exact_mod_cast h
    have h' : (0 : ℝ) ≤ -(q : ℝ) := by linarith
    rw [val_root_of_neg h, abs_neg, abs_of_nonneg (Real.sqrt_nonneg _), neg_mul, Real.mul_self_sqrt h', neg_neg]

/-- `x·|x|` is strictly increasing. -/
theorem mul_abs_strictMono : StrictMono fun x : ℝ => x * |x| := by
  intro a b hab
  show a * |a| < b * |b|
  rcases le_total 0 a with ha | ha
  · have hb : 0 ≤ b := ha.trans hab.le
    rw [abs_of_nonneg ha, abs_of_nonneg hb]; nlinarith
  · rw [abs_of_nonpos ha]
    rcases le_total 0 b with hb | hb
    · rw [abs_of_nonneg hb]
      rcases ha.lt_or_eq with h | h
      · nlinarith [mul_self_nonneg b, mul_pos_of_neg_of_neg h h]
      · subst h; simpa using mul_pos hab hab
    · rw [abs_of_nonpos hb]; nlinarith

theorem mul_abs_lt_iff {x y : ℝ} : x * |x| < y * |y| ↔ x < y := mul_abs_strictMono.lt_iff_lt

/-- `x·|x|` determines `x`. -/
theorem mul_abs_injective {x y : ℝ} (h : x * |x| = y * |y|) : x = y := mul_abs_strictMono.injective h

/-- A number whose `x·|x|` is a rational is that rational's signed root. -/
theorem val_root_of_mul_abs {q : Rat} {x : ℝ} (h : x * |x| = (q : ℝ)) : (Num.root q).val = x :=
  mul_abs_injective ((val_root_mul_abs q).trans h.symm)

theorem signedSq?_spec {a : Num} {x : Rat} (h : signedSq? a = some x) : a.val * |a.val| = (x : ℝ) := by
  cases a with
  | rat q => simp only [signedSq?, Option.some.injEq] at h; subst h; simp
  | root q => simp only [signedSq?, Option.some.injEq] at h; subst h; exact val_root_mul_abs q
  | _ => simp [signedSq?] at h

theorem ratSqrt?_spec {q r : Rat} (h : ratSqrt? q = some r) : 0 ≤ r ∧ q = r * r := by
  unfold ratSqrt? at h
  simp only at h
  split at h
  · rename_i hq
    simp only [Option.some.injEq] at h
    subst h
    refine ⟨by positivity, ?_⟩
    rw [div_mul_div_comm]; exact hq
  · cases h

@[simp] theorem val_mkRoot (q : Rat) : (mkRoot q).val = (Num.root q).val := by
  unfold mkRoot
  split
  · rename_i h
    split
    · rename_i r hr
      obtain ⟨h0, hq⟩ := ratSqrt?_spec hr
      rw [val_root_of_nonneg h, hq, val_rat]; push_cast
      rw [Real.sqrt_mul_self (by exact_mod_cast h0)]
    · rfl
  · rename_i h
    split
    · rename_i r hr
      obtain ⟨h0, hq⟩ := ratSqrt?_spec hr
      have hq' : (-(q : ℝ)) = (r : ℝ) * r := by exact_mod_cast hq
      rw [val_root_of_neg (not_le.mp h), hq', val_rat]; push_cast
      rw [Real.sqrt_mul_self (by exact_mod_cast h0)]
    · rfl

@[simp] theorem val_pi (q : Rat) : (pi q).val = (q : ℝ) * Real.pi := by
  unfold pi; split <;> simp_all

theorem val_root_neg (q : Rat) : (Num.root (-q)).val = -(Num.root q).val :=
  val_root_of_mul_abs (by rw [abs_neg, neg_mul, val_root_mul_abs]; push_cast; rfl)

@[simp] theorem val_negate (a : Num) : (negate a).val = -a.val := by
  cases a with
  | root q => exact val_root_neg q
  | _ => simp [negate, val]

theorem val_root_four_mul (q : Rat) : (Num.root (4 * q)).val = (Num.root q).val + (Num.root q).val :=
  val_root_of_mul_abs (by
    have h := val_root_mul_abs q
    rw [← two_mul, abs_mul]; push_cast; rw [← h]; norm_num; ring)

@[simp] theorem val_plus (a b : Num) : (plus a b).val = a.val + b.val := by
  unfold plus
  split
  · simp
  · simp [add_mul]
  · split
    · rename_i h; subst h; rw [val_mkRoot, val_root_four_mul]
    · split
      · rename_i h; subst h; rw [val_root_neg]; simp
      · rfl
  · split
    · rename_i h; subst h; simp
    · split
      · rename_i h; subst h; simp
      · rfl

@[simp] theorem val_minus (a b : Num) : (minus a b).val = a.val - b.val := by
  unfold minus
  split
  · rename_i h; subst h; simp
  · simp [sub_eq_add_neg]

theorem val_root_scale (q p : Rat) : (Num.root (q * |q| * p)).val = (q : ℝ) * (Num.root p).val :=
  val_root_of_mul_abs (by
    have h := val_root_mul_abs p
    rw [abs_mul]; push_cast; rw [← h]; ring)

@[simp] theorem val_scale (q : Rat) (b : Num) : (scale q b).val = (q : ℝ) * b.val := by
  unfold scale
  split
  · rename_i h; subst h; simp
  · split
    · rename_i h; subst h; simp
    · split
      · rename_i h; subst h; simp
      · split
        · simp
        · rw [val_mkRoot, val_root_scale]
        · simp [mul_assoc]
        · rfl

theorem val_root_mul (p q : Rat) : (Num.root (p * q)).val = (Num.root p).val * (Num.root q).val :=
  val_root_of_mul_abs (by
    have h1 := val_root_mul_abs p
    have h2 := val_root_mul_abs q
    rw [abs_mul]; push_cast; rw [← h1, ← h2]; ring)

@[simp] theorem val_times (a b : Num) : (times a b).val = a.val * b.val := by
  unfold times
  split
  · simp
  · simp [mul_comm]
  · simp [val_root_mul]
  · rfl

theorem val_root_inv (q : Rat) : (Num.root q⁻¹).val = ((Num.root q).val)⁻¹ :=
  val_root_of_mul_abs (by
    have h := val_root_mul_abs q
    rw [abs_inv, ← mul_inv, h]; push_cast; rfl)

@[simp] theorem val_recip (a : Num) : (recip a).val = (a.val)⁻¹ := by
  cases a with
  | rat q => simp [recip]
  | root q => simp [recip, val_root_inv]
  | _ => rfl

@[simp] theorem val_div (a b : Num) : (div a b).val = a.val / b.val := by
  simp [div, div_eq_mul_inv]

@[simp] theorem val_root2 (a : Num) : (root2 a).val = Real.sqrt a.val := by
  unfold root2
  split
  · split
    · rename_i h; rw [val_mkRoot, val_root_of_nonneg h]; rfl
    · rename_i q h
      have : (q : ℝ) ≤ 0 := by exact_mod_cast (not_le.mp h).le
      simp [Real.sqrt_eq_zero_of_nonpos this]
  · rfl

theorem val_root_abs (q : Rat) : (Num.root |q|).val = |(Num.root q).val| :=
  val_root_of_mul_abs (by
    have h := val_root_mul_abs q
    rw [← abs_mul, h]; push_cast; rfl)

@[simp] theorem val_magnitude (a : Num) : (magnitude a).val = |a.val| := by
  cases a with
  | rat q => simp [magnitude]
  | root q => exact val_root_abs q
  | piMul q => simp [magnitude, abs_mul, abs_of_pos Real.pi_pos]
  | _ => rfl

theorem cosTable_spec {r : Rat} {x : Num} (h : cosTable r = some x) : x.val = Real.cos ((r : ℝ) * Real.pi) := by
  unfold cosTable at h
  split at h
  · rename_i hr; cases h; subst hr; simp
  · split at h
    · rename_i hr; cases h; subst hr
      rw [val_root_of_nonneg (by norm_num)]
      have : ((1 / 6 : Rat) : ℝ) * Real.pi = Real.pi / 6 := by push_cast; ring
      rw [this, Real.cos_pi_div_six]
      have h34 : ((3 / 4 : Rat) : ℝ) = 3 / (2 * 2) := by norm_num
      rw [h34, Real.sqrt_div (by norm_num), Real.sqrt_mul_self (by norm_num)]
    · split at h
      · rename_i hr; cases h; subst hr
        rw [val_root_of_nonneg (by norm_num)]
        have : ((1 / 4 : Rat) : ℝ) * Real.pi = Real.pi / 4 := by push_cast; ring
        rw [this, Real.cos_pi_div_four]
        have h12 : ((1 / 2 : Rat) : ℝ) = 2 / (2 * 2) := by norm_num
        rw [h12, Real.sqrt_div (by norm_num), Real.sqrt_mul_self (by norm_num)]
      · split at h
        · rename_i hr; cases h; subst hr
          have : ((1 / 3 : Rat) : ℝ) * Real.pi = Real.pi / 3 := by push_cast; ring
          rw [this, Real.cos_pi_div_three]; norm_num
        · split at h
          · rename_i hr; cases h; subst hr
            have : ((1 / 2 : Rat) : ℝ) * Real.pi = Real.pi / 2 := by push_cast; ring
            rw [this, Real.cos_pi_div_two]; simp
          · cases h

theorem cosPi?_spec {q : Rat} {x : Num} (h : cosPi? q = some x) : x.val = Real.cos ((q : ℝ) * Real.pi) := by
  unfold cosPi? at h
  simp only at h
  set r0 : Rat := q - 2 * (q / 2).floor with hr0
  set r : Rat := if 1 < r0 then 2 - r0 else r0 with hr
  have hcos0 : Real.cos ((r0 : ℝ) * Real.pi) = Real.cos ((q : ℝ) * Real.pi) := by
    have : (r0 : ℝ) * Real.pi = (q : ℝ) * Real.pi - ((q / 2).floor : ℤ) * (2 * Real.pi) := by
      rw [hr0]; push_cast; ring
    rw [this, Real.cos_sub_int_mul_two_pi]
  have hcos : Real.cos ((r : ℝ) * Real.pi) = Real.cos ((q : ℝ) * Real.pi) := by
    rw [← hcos0, hr]
    split
    · have : ((2 - r0 : Rat) : ℝ) * Real.pi = 2 * Real.pi - (r0 : ℝ) * Real.pi := by push_cast; ring
      rw [this, Real.cos_two_pi_sub]
    · rfl
  rw [← hcos]
  split at h
  · obtain ⟨y, hy, rfl⟩ := Option.map_eq_some_iff.mp h
    have := cosTable_spec hy
    rw [val_negate, this]
    have : ((1 - r : Rat) : ℝ) * Real.pi = Real.pi - (r : ℝ) * Real.pi := by push_cast; ring
    rw [this, Real.cos_pi_sub, neg_neg]
  · exact cosTable_spec h

@[simp] theorem val_cosine (a : Num) : (cosine a).val = Real.cos a.val := by
  unfold cosine
  split
  · split
    · rename_i h; subst h; simp
    · rfl
  · rename_i q
    cases h : cosPi? q with
    | none => rfl
    | some x => simpa using cosPi?_spec h
  · rfl

@[simp] theorem val_sine (a : Num) : (sine a).val = Real.sin a.val := by
  unfold sine
  split
  · split
    · rename_i h; subst h; simp
    · rfl
  · rename_i q
    cases h : cosPi? (1 / 2 - q) with
    | none => rfl
    | some x =>
      have := cosPi?_spec h
      simp only [Option.getD_some, val_piMul]
      rw [this, ← Real.cos_pi_div_two_sub]
      congr 1; push_cast; ring
  · rfl

/-- `arg` of a point by the polar form: what the exact cases of `argSq?` need. -/
theorem arg_eq_of_polar {x y r θ : ℝ} (hr : 0 < r) (hθ : θ ∈ Set.Ioc (-Real.pi) Real.pi) (hx : x = r * Real.cos θ)
    (hy : y = r * Real.sin θ) : Complex.arg ⟨x, y⟩ = θ := by
  have : (⟨x, y⟩ : ℂ) = (r : ℂ) * (Complex.cos θ + Complex.sin θ * Complex.I) := by
    apply Complex.ext
    · simp [hx, Complex.cos_ofReal_re, Complex.sin_ofReal_re, Complex.sin_ofReal_im]
    · simp [hy, Complex.cos_ofReal_im, Complex.sin_ofReal_re]
  rw [this]
  exact Complex.arg_mul_cos_add_sin_mul_I hr hθ

theorem pos_of_mul_abs_pos {u : ℝ} (h : 0 < u * |u|) : 0 < u := by
  by_contra hn
  have : u * |u| ≤ 0 := mul_nonpos_of_nonpos_of_nonneg (not_lt.mp hn) (abs_nonneg u)
  linarith

theorem argSq?_spec {x y : Rat} {u v : ℝ} {t : Num} (hu : u * |u| = (x : ℝ)) (hv : v * |v| = (y : ℝ))
    (h : argSq? x y = some t) : t.val = Complex.arg ⟨u, v⟩ := by
  have hpi := Real.pi_pos
  have neg_form : ∀ {a : ℝ} {z : Rat}, a * |a| = (z : ℝ) → z < 0 → 0 < -a := by
    intro a z ha hz
    apply pos_of_mul_abs_pos
    rw [abs_neg, neg_mul, ha]
    have : (z : ℝ) < 0 := by exact_mod_cast hz
    linarith
  have pos_form : ∀ {a : ℝ} {z : Rat}, a * |a| = (z : ℝ) → 0 < z → 0 < a := by
    intro a z ha hz
    apply pos_of_mul_abs_pos
    rw [ha]; exact_mod_cast hz
  have zero_form : ∀ {a : ℝ}, a * |a| = ((0 : Rat) : ℝ) → a = 0 := by
    intro a ha
    exact mul_abs_injective (by rw [ha]; simp)
  have s2 : (0 : ℝ) < Real.sqrt 2 := Real.sqrt_pos.mpr (by norm_num)
  have ss2 : Real.sqrt 2 * Real.sqrt 2 = 2 := Real.mul_self_sqrt (by norm_num)
  unfold argSq? at h
  split at h
  · rename_i hy; subst hy
    cases h
    have hv0 := zero_form hv
    subst hv0
    split
    · rename_i hx
      have hu0 : 0 ≤ u := by
        by_contra hn
        have h1 : u * |u| < 0 := mul_neg_of_neg_of_pos (not_le.mp hn) (abs_pos.mpr (not_le.mp hn).ne)
        rw [hu] at h1
        have : (0 : ℝ) ≤ x := by exact_mod_cast hx
        linarith
      rw [val_zero]
      exact (Complex.arg_ofReal_of_nonneg hu0).symm
    · rename_i hx
      have hu0 : u < 0 := by have := neg_form hu (not_le.mp hx); linarith
      rw [val_piMul]; push_cast; rw [one_mul]
      exact (Complex.arg_ofReal_of_neg hu0).symm
  · rename_i hy
    split at h
    · rename_i hx; subst hx
      cases h
      have hu0 := zero_form hu
      subst hu0
      rw [val_piMul]
      split
      · rename_i hpos
        have hv0 := pos_form hv hpos
        exact (arg_eq_of_polar (r := v) (θ := ((1 / 2 : Rat) : ℝ) * Real.pi) hv0
          ⟨by push_cast; linarith, by push_cast; linarith⟩
          (by rw [show ((1 / 2 : Rat) : ℝ) * Real.pi = Real.pi / 2 by push_cast; ring]; simp)
          (by rw [show ((1 / 2 : Rat) : ℝ) * Real.pi = Real.pi / 2 by push_cast; ring]; simp)).symm
      · rename_i hpos
        have hv0 := neg_form hv (lt_of_le_of_ne (not_lt.mp hpos) hy)
        have e : ((-1 / 2 : Rat) : ℝ) * Real.pi = -(Real.pi / 2) := by push_cast; ring
        exact (arg_eq_of_polar (r := -v) (θ := ((-1 / 2 : Rat) : ℝ) * Real.pi) hv0
          ⟨by rw [e]; linarith, by rw [e]; linarith⟩
          (by rw [e]; simp) (by rw [e]; simp)).symm
    · rename_i hx
      split at h
      · rename_i hxy; subst hxy
        cases h
        have huv : u = v := mul_abs_injective (hu.trans hv.symm)
        subst huv
        rw [val_piMul]
        split
        · rename_i hpos
          have hu0 := pos_form hu hpos
          have e : ((1 / 4 : Rat) : ℝ) * Real.pi = Real.pi / 4 := by push_cast; ring
          have er : u = u * Real.sqrt 2 * (Real.sqrt 2 / 2) := by
            rw [mul_div_assoc', mul_assoc, ss2]; ring
          exact (arg_eq_of_polar (r := u * Real.sqrt 2) (θ := ((1 / 4 : Rat) : ℝ) * Real.pi) (by positivity)
            ⟨by rw [e]; linarith, by rw [e]; linarith⟩
            (by rw [e, Real.cos_pi_div_four]; exact er) (by rw [e, Real.sin_pi_div_four]; exact er)).symm
        · rename_i hpos
          have hu0 := neg_form hu (lt_of_le_of_ne (not_lt.mp hpos) hx)
          have e : ((-3 / 4 : Rat) : ℝ) * Real.pi = Real.pi / 4 - Real.pi := by push_cast; ring
          have er : u = -u * Real.sqrt 2 * -(Real.sqrt 2 / 2) := by
            rw [mul_neg, mul_div_assoc', mul_assoc, ss2]; ring
          exact (arg_eq_of_polar (r := -u * Real.sqrt 2) (θ := ((-3 / 4 : Rat) : ℝ) * Real.pi) (by positivity)
            ⟨by rw [e]; linarith, by rw [e]; linarith⟩
            (by rw [e, Real.cos_sub_pi, Real.cos_pi_div_four]; exact er)
            (by rw [e, Real.sin_sub_pi, Real.sin_pi_div_four]; exact er)).symm
      · split at h
        · rename_i hxy' hxy; subst hxy
          cases h
          have huv : u = -v := mul_abs_injective (by rw [hu, abs_neg, neg_mul, hv]; push_cast; rfl)
          subst huv
          rw [val_piMul]
          split
          · rename_i hpos
            have hv0 : 0 < -v := neg_form hv (by linarith)
            have e : ((-1 / 4 : Rat) : ℝ) * Real.pi = -(Real.pi / 4) := by push_cast; ring
            exact (arg_eq_of_polar (r := -v * Real.sqrt 2) (θ := ((-1 / 4 : Rat) : ℝ) * Real.pi) (by positivity)
              ⟨by rw [e]; linarith, by rw [e]; linarith⟩
              (by rw [e, Real.cos_neg, Real.cos_pi_div_four, mul_div_assoc', mul_assoc, ss2]; ring)
              (by rw [e, Real.sin_neg, Real.sin_pi_div_four, mul_neg, mul_div_assoc', mul_assoc, ss2]; ring)).symm
          · rename_i hpos
            have hv0 : 0 < v := pos_form hv (by
              rcases lt_trichotomy y 0 with h1 | h1 | h1
              · exact absurd (by linarith) hpos
              · exact absurd h1 hy
              · exact h1)
            have e : ((3 / 4 : Rat) : ℝ) * Real.pi = Real.pi - Real.pi / 4 := by push_cast; ring
            exact (arg_eq_of_polar (r := v * Real.sqrt 2) (θ := ((3 / 4 : Rat) : ℝ) * Real.pi) (by positivity)
              ⟨by rw [e]; linarith, by rw [e]; linarith⟩
              (by rw [e, Real.cos_pi_sub, Real.cos_pi_div_four, mul_neg, mul_div_assoc', mul_assoc, ss2]; ring)
              (by rw [e, Real.sin_pi_sub, Real.sin_pi_div_four, mul_div_assoc', mul_assoc, ss2]; ring)).symm
        · cases h

@[simp] theorem val_argument (re im : Num) : (argument re im).val = Complex.arg ⟨re.val, im.val⟩ := by
  unfold argument
  split
  · rename_i x y hx hy
    cases h : argSq? x y with
    | none => rfl
    | some t => simpa using argSq?_spec (signedSq?_spec hx) (signedSq?_spec hy) h
  · rfl

theorem foldl_plus_val (xs : List Num) (a : Num) : (xs.foldl plus a).val = a.val + (xs.map val).sum := by
  induction xs generalizing a with
  | nil => simp
  | cons x xs ih => simp [ih, add_assoc]

@[simp] theorem val_sum (xs : List Num) : (sum xs).val = (xs.map val).sum := by
  simp [sum, foldl_plus_val]

end Num

namespace Cplx

@[simp] theorem val_re (z : Cplx) : z.val.re = z.re.val := rfl
@[simp] theorem val_im (z : Cplx) : z.val.im = z.im.val := rfl

@[simp] theorem val_zero : zero.val = 0 := by apply Complex.ext <;> simp [zero]

@[simp] theorem val_ofNum (a : Num) : (ofNum a).val = (a.val : ℂ) := by apply Complex.ext <;> simp [ofNum]

@[simp] theorem val_plus (a b : Cplx) : (a.plus b).val = a.val + b.val := by apply Complex.ext <;> simp [plus]

@[simp] theorem val_times (a b : Cplx) : (a.times b).val = a.val * b.val := by
  apply Complex.ext <;> simp [times]

@[simp] theorem val_conj (a : Cplx) : a.conj.val = (starRingEnd ℂ) a.val := by
  apply Complex.ext <;> simp [conj]

@[simp] theorem val_scale (r : Num) (a : Cplx) : (scale r a).val = (r.val : ℂ) * a.val := by
  apply Complex.ext <;> simp [scale]

@[simp] theorem val_normSq (a : Cplx) : a.normSq.val = Complex.normSq a.val := by
  simp [normSq, Complex.normSq_apply]

@[simp] theorem val_abs (a : Cplx) : a.abs.val = ‖a.val‖ := by
  simp [abs, Complex.norm_def]

@[simp] theorem val_arg (a : Cplx) : a.arg.val = a.val.arg := by
  simp [arg, Cplx.val]

@[simp] theorem val_cis (θ : Num) : (cis θ).val = Complex.exp ((θ.val : ℂ) * Complex.I) := by
  rw [Complex.exp_mul_I]
  apply Complex.ext <;>
    simp [cis, Complex.cos_ofReal_re, Complex.sin_ofReal_re, Complex.cos_ofReal_im, Complex.sin_ofReal_im]

theorem foldl_plus_val (xs : List Cplx) (a : Cplx) : (xs.foldl plus a).val = a.val + (xs.map val).sum := by
  induction xs generalizing a with
  | nil => simp
  | cons x xs ih => simp [ih, add_assoc]

@[simp] theorem val_sum (xs : List Cplx) : (sum xs).val = (xs.map val).sum := by
  simp [sum, foldl_plus_val]

end Cplx

end Sys2Proof
end

