-- ==== Sys2Proof/Laws/Compare.lean ====
section
/-! SUPPORT. The model's comparison is the order of the reals (47_arithmetic.md R324): every enclosure holds, `Num.lt? a b = some r` implies
that `r` is whether `a < b`, and `Num.lt_iff` says it of `Num.lt` for every two numbers. -/

namespace Sys2Proof

/-- `e` encloses the real `x`. -/
def Encl.Holds (e : Encl) (x : ℝ) : Prop := (e.lo : ℝ) ≤ x * (Encl.unit : ℝ) ∧ x * (Encl.unit : ℝ) ≤ (e.hi : ℝ)

namespace Encl

theorem unit_pos : (0 : ℝ) < (unit : ℝ) := by norm_num [unit]

theorem unit_pos_int : (0 : ℤ) < unit := by norm_num [unit]

theorem ediv_le_div (a : ℤ) {b : ℤ} (hb : 0 < b) : ((a / b : ℤ) : ℝ) ≤ (a : ℝ) / b := by
  have hb' : (0 : ℝ) < b := by exact_mod_cast hb
  rw [le_div_iff₀ hb']
  exact_mod_cast Int.ediv_mul_le a hb.ne'

theorem div_le_ediv_add_one (a : ℤ) {b : ℤ} (hb : 0 < b) : (a : ℝ) / b ≤ ((a / b + 1 : ℤ) : ℝ) := by
  have hb' : (0 : ℝ) < b := by exact_mod_cast hb
  rw [div_le_iff₀ hb']
  exact_mod_cast (Int.lt_ediv_add_one_mul_self a hb).le

theorem holds_ofRat (q : Rat) : (ofRat q).Holds (q : ℝ) := by
  have hd : (0 : ℤ) < (q.den : ℤ) := by exact_mod_cast q.den_pos
  have hq : (q : ℝ) * (unit : ℝ) = ((q.num * unit : ℤ) : ℝ) / ((q.den : ℤ) : ℝ) := by
    have : (q : ℝ) = (q.num : ℝ) / (q.den : ℝ) := by exact_mod_cast (Rat.cast_def (K := ℝ) q)
    rw [this]; push_cast; ring
  exact ⟨by rw [hq]; exact ediv_le_div _ hd, by rw [hq]; exact div_le_ediv_add_one _ hd⟩

theorem holds_neg {e : Encl} {x : ℝ} (h : e.Holds x) : e.neg.Holds (-x) := by
  obtain ⟨h1, h2⟩ := h
  constructor
  · simp only [neg]; push_cast; linarith
  · simp only [neg]; push_cast; linarith

theorem holds_add {e f : Encl} {x y : ℝ} (hx : e.Holds x) (hy : f.Holds y) : (e.add f).Holds (x + y) := by
  obtain ⟨a, b⟩ := hx
  obtain ⟨c, d⟩ := hy
  constructor
  · simp only [add]; push_cast; linarith
  · simp only [add]; push_cast; linarith

theorem mul_le_max {a b x y : ℝ} (ha : a ≤ x) (hb : x ≤ b) : x * y ≤ max (a * y) (b * y) := by
  rcases le_total 0 y with h | h
  · exact le_max_of_le_right (mul_le_mul_of_nonneg_right hb h)
  · exact le_max_of_le_left (mul_le_mul_of_nonpos_right ha h)

theorem min_le_mul {a b x y : ℝ} (ha : a ≤ x) (hb : x ≤ b) : min (a * y) (b * y) ≤ x * y := by
  rcases le_total 0 y with h | h
  · exact min_le_of_left_le (mul_le_mul_of_nonneg_right ha h)
  · exact min_le_of_right_le (mul_le_mul_of_nonpos_right hb h)

theorem holds_mul {e f : Encl} {x y : ℝ} (hx : e.Holds x) (hy : f.Holds y) : (e.mul f).Holds (x * y) := by
  obtain ⟨a, b⟩ := hx
  obtain ⟨c, d⟩ := hy
  have hU := unit_pos
  have hprod : x * y * (unit : ℝ) = (x * unit) * (y * unit) / (unit : ℝ) := by field_simp
  set X := x * (unit : ℝ)
  set Y := y * (unit : ℝ)
  have lower : min (min ((e.lo : ℝ) * f.lo) (e.lo * f.hi)) (min (e.hi * f.lo) (e.hi * f.hi)) ≤ X * Y := by
    refine le_trans ?_ (min_le_mul a b)
    refine min_le_min ?_ ?_
    · have := min_le_mul (y := (e.lo : ℝ)) c d
      simpa [mul_comm] using this
    · have := min_le_mul (y := (e.hi : ℝ)) c d
      simpa [mul_comm] using this
  have upper : X * Y ≤ max (max ((e.lo : ℝ) * f.lo) (e.lo * f.hi)) (max (e.hi * f.lo) (e.hi * f.hi)) := by
    refine le_trans (mul_le_max a b) ?_
    refine max_le_max ?_ ?_
    · have := mul_le_max (y := (e.lo : ℝ)) c d
      simpa [mul_comm] using this
    · have := mul_le_max (y := (e.hi : ℝ)) c d
      simpa [mul_comm] using this
  constructor
  · refine (ediv_le_div _ unit_pos_int).trans ?_
    rw [hprod]
    refine div_le_div_of_nonneg_right ?_ hU.le
    push_cast; exact lower
  · refine le_trans ?_ (div_le_ediv_add_one _ unit_pos_int)
    rw [hprod]
    refine div_le_div_of_nonneg_right ?_ hU.le
    push_cast; exact upper

theorem holds_inv_pos {e : Encl} {x : ℝ} (h : e.Holds x) (hlo : 0 < e.lo) :
    Holds ⟨unit * unit / e.hi, unit * unit / e.lo + 1⟩ x⁻¹ := by
  obtain ⟨a, b⟩ := h
  have hU := unit_pos
  have hlo' : (0 : ℝ) < e.lo := by exact_mod_cast hlo
  have hX : 0 < x * (unit : ℝ) := lt_of_lt_of_le hlo' a
  have hhi : (0 : ℝ) < e.hi := lt_of_lt_of_le hX b
  have hinv : x⁻¹ * (unit : ℝ) = (unit : ℝ) * unit / (x * unit) := by
    have hx : x ≠ 0 := by rintro rfl; simp at hX
    field_simp
  constructor
  · refine (ediv_le_div _ (by exact_mod_cast hhi)).trans ?_
    rw [hinv]; push_cast
    exact div_le_div_of_nonneg_left (by positivity) hX b
  · refine le_trans ?_ (div_le_ediv_add_one _ hlo)
    rw [hinv]; push_cast
    exact div_le_div_of_nonneg_left (by positivity) hlo' a

theorem holds_inv {e f : Encl} {x : ℝ} (h : e.Holds x) (hf : e.inv = some f) : f.Holds x⁻¹ := by
  unfold inv at hf
  split at hf
  · rename_i hlo; cases hf; exact holds_inv_pos h hlo
  · split at hf
    · rename_i hhi
      cases hf
      have h1 := holds_inv_pos (holds_neg h) (by simpa [neg] using hhi)
      have h2 := holds_neg h1
      simpa [neg, inv_neg] using h2
    · cases hf

theorem holds_sqrt {e : Encl} {x : ℝ} (h : e.Holds x) : e.sqrt.Holds (Real.sqrt x) := by
  obtain ⟨a, b⟩ := h
  have hU := unit_pos
  have hs : Real.sqrt x * (unit : ℝ) = Real.sqrt (x * unit * unit) := by
    rw [mul_assoc, Real.sqrt_mul' _ (by positivity), Real.sqrt_mul_self hU.le]
  constructor
  · rw [hs]
    simp only [sqrt]
    rcases le_total 0 e.lo with h0 | h0
    · apply Real.le_sqrt_of_sq_le
      have h1 : (Nat.sqrt (e.lo * unit).toNat) ^ 2 ≤ (e.lo * unit).toNat := Nat.sqrt_le' _
      have h2 : (((e.lo * unit).toNat : ℤ)) = e.lo * unit := Int.toNat_of_nonneg (mul_nonneg h0 unit_pos_int.le)
      have h3 : ((Nat.sqrt (e.lo * unit).toNat : ℤ) : ℝ) ^ 2 ≤ ((e.lo * unit : ℤ) : ℝ) := by
        rw [← h2]; exact_mod_cast h1
      refine h3.trans ?_
      push_cast
      exact mul_le_mul_of_nonneg_right a hU.le
    · have h2 : (e.lo * unit).toNat = 0 := Int.toNat_of_nonpos (mul_nonpos_of_nonpos_of_nonneg h0 unit_pos_int.le)
      rw [h2]
      simp
  · rw [hs]
    apply Real.sqrt_le_iff.mpr
    refine ⟨by simp only [sqrt]; positivity, ?_⟩
    simp only [sqrt]
    have h1 : (e.hi * unit).toNat < (Nat.sqrt (e.hi * unit).toNat + 1) ^ 2 := Nat.lt_succ_sqrt' _
    have h2 : e.hi * unit ≤ ((e.hi * unit).toNat : ℤ) := Int.self_le_toNat _
    have h3 : ((e.hi * unit : ℤ) : ℝ) ≤ (((Nat.sqrt (e.hi * unit).toNat : ℤ) + 1 : ℤ) : ℝ) ^ 2 := by
      have h4 : ((e.hi * unit : ℤ) : ℝ) ≤ (((e.hi * unit).toNat : ℤ) : ℝ) := by exact_mod_cast h2
      refine h4.trans ?_
      exact_mod_cast h1.le
    refine le_trans ?_ h3
    push_cast
    exact mul_le_mul_of_nonneg_right b hU.le

theorem holds_abs {e : Encl} {x : ℝ} (h : e.Holds x) : e.abs.Holds |x| := by
  obtain ⟨a, b⟩ := h
  have hU := unit_pos
  unfold abs
  split
  · rename_i h0
    have h0' : (0 : ℝ) ≤ e.lo := by exact_mod_cast h0
    have hx : 0 ≤ x := by by_contra hn; nlinarith [not_le.mp hn]
    rw [abs_of_nonneg hx]; exact ⟨a, b⟩
  · split
    · rename_i h0
      have h0' : (e.hi : ℝ) ≤ 0 := by exact_mod_cast h0
      have hx : x ≤ 0 := by by_contra hn; nlinarith [not_le.mp hn]
      rw [abs_of_nonpos hx]; exact holds_neg ⟨a, b⟩
    · refine ⟨by simpa using mul_nonneg (abs_nonneg x) hU.le, ?_⟩
      push_cast
      rcases le_total 0 x with hx | hx
      · rw [abs_of_nonneg hx]; exact le_max_of_le_right b
      · rw [abs_of_nonpos hx]; exact le_max_of_le_left (by linarith)

theorem holds_pi : pi.Holds Real.pi := by
  have h1 := Real.pi_gt_d20
  have h2 := Real.pi_lt_d20
  have hU := unit_pos
  constructor
  · refine (ediv_le_div _ (by norm_num)).trans ?_
    push_cast
    rw [div_le_iff₀ (by norm_num)]
    nlinarith
  · refine le_trans ?_ (div_le_ediv_add_one _ (by norm_num))
    push_cast
    rw [le_div_iff₀ (by norm_num)]
    nlinarith

theorem holds_doubleCos {c : Encl} {t : ℝ} (h : c.Holds (Real.cos t)) : c.doubleCos.Holds (Real.cos (2 * t)) := by
  obtain ⟨a, b⟩ := holds_mul h h
  have hU := unit_pos
  have hc : Real.cos (2 * t) = 2 * (Real.cos t * Real.cos t) - 1 := by rw [Real.cos_two_mul]; ring
  have h1 := Real.neg_one_le_cos (2 * t)
  have h2 := Real.cos_le_one (2 * t)
  constructor
  · simp only [doubleCos]; push_cast
    refine max_le ?_ (by nlinarith)
    rw [hc]; linarith
  · simp only [doubleCos]; push_cast
    refine le_min ?_ (by nlinarith)
    rw [hc]; linarith

theorem holds_doubleCosTimes (n : Nat) {c : Encl} {t : ℝ} (h : c.Holds (Real.cos t)) :
    (doubleCosTimes n c).Holds (Real.cos (2 ^ n * t)) := by
  induction n generalizing c t with
  | zero => simpa [doubleCosTimes] using h
  | succ n ih =>
    have := ih (holds_doubleCos h)
    rw [pow_succ, mul_assoc]; exact this

theorem holds_cosPoint (lo : ℤ) : (cosPoint lo).Holds (Real.cos ((lo : ℝ) / unit)) := by
  have hU := unit_pos
  unfold cosPoint
  split
  · rename_i hle
    set y : ℝ := (lo : ℝ) / unit / 2 ^ 40 with hy
    have hyU : y * (unit : ℝ) = (lo : ℝ) / ((2 ^ 40 : ℤ) : ℝ) := by
      rw [hy]; push_cast; field_simp; norm_num
    have hY : Holds ⟨lo / 2 ^ 40, lo / 2 ^ 40 + 1⟩ y :=
      ⟨by rw [hyU]; exact ediv_le_div _ (by norm_num), by rw [hyU]; exact div_le_ediv_add_one _ (by norm_num)⟩
    have hq := holds_mul hY hY
    have he := holds_mul hq hq
    have habs : |y| ≤ 1 := by
      have h1 : |(lo : ℝ)| ≤ 2 ^ 168 := by
        have : ((lo.natAbs : ℕ) : ℝ) ≤ 2 ^ 168 := by exact_mod_cast hle
        rwa [Nat.cast_natAbs, Int.cast_abs] at this
      rw [hy, abs_div, abs_div, abs_of_pos hU, abs_of_pos (by norm_num : (0 : ℝ) < 2 ^ 40), div_div,
        div_le_one (by positivity)]
      refine h1.trans ?_
      simp only [unit]; norm_num
    have hb := abs_le.mp (Real.cos_bound habs)
    have hy4 : |y| ^ 4 = y * y * (y * y) := by
      rw [show |y| ^ 4 = (|y| ^ 2) ^ 2 by ring, sq_abs]; ring
    rw [hy4] at hb
    have hy0 : 0 ≤ y * y * (y * y) := mul_nonneg (mul_self_nonneg y) (mul_self_nonneg y)
    have hcos : Real.cos ((lo : ℝ) / unit) = Real.cos (2 ^ 40 * y) := by
      congr 1; rw [hy]; field_simp
    rw [hcos]
    apply holds_doubleCosTimes
    set q := Encl.mul ⟨lo / 2 ^ 40, lo / 2 ^ 40 + 1⟩ ⟨lo / 2 ^ 40, lo / 2 ^ 40 + 1⟩ with hqdef
    have d1 := div_le_ediv_add_one q.hi (b := 2) (by norm_num)
    have d2 := ediv_le_div q.lo (b := 2) (by norm_num)
    obtain ⟨q1, q2⟩ := hq
    obtain ⟨e1, e2⟩ := he
    push_cast at d1 d2
    constructor
    · push_cast
      nlinarith [mul_le_mul_of_nonneg_right hb.1 hU.le]
    · push_cast
      nlinarith [mul_le_mul_of_nonneg_right hb.2 hU.le]
  · have h1 := Real.neg_one_le_cos ((lo : ℝ) / unit)
    have h2 := Real.cos_le_one ((lo : ℝ) / unit)
    exact ⟨by push_cast; nlinarith, by nlinarith⟩

theorem abs_cos_sub_cos_le (x p : ℝ) : |Real.cos x - Real.cos p| ≤ |x - p| := by
  rw [Real.cos_sub_cos, abs_mul, abs_mul, abs_neg, abs_of_pos (by norm_num : (0 : ℝ) < 2)]
  have h1 := Real.abs_sin_le_one ((x + p) / 2)
  have h2 : |Real.sin ((x - p) / 2)| ≤ |(x - p) / 2| := Real.abs_sin_le_abs
  rw [abs_div, abs_of_pos (by norm_num : (0 : ℝ) < 2)] at h2
  nlinarith [abs_nonneg (Real.sin ((x - p) / 2)), abs_nonneg (Real.sin ((x + p) / 2))]

theorem holds_cos {e : Encl} {x : ℝ} (h : e.Holds x) : e.cos.Holds (Real.cos x) := by
  obtain ⟨a, b⟩ := h
  have hU := unit_pos
  obtain ⟨c1, c2⟩ := holds_cosPoint e.lo
  have hd := abs_cos_sub_cos_le x ((e.lo : ℝ) / unit)
  have hle : (e.lo : ℝ) / unit ≤ x := by rwa [div_le_iff₀ hU]
  rw [abs_of_nonneg (sub_nonneg.mpr hle)] at hd
  have hw : (x - (e.lo : ℝ) / unit) * unit ≤ e.hi - e.lo := by
    rw [sub_mul, div_mul_cancel₀ _ hU.ne']; linarith
  obtain ⟨d1, d2⟩ := abs_le.mp hd
  constructor
  · simp only [cos]; push_cast
    nlinarith [mul_le_mul_of_nonneg_right d1 hU.le]
  · simp only [cos]; push_cast
    nlinarith [mul_le_mul_of_nonneg_right d2 hU.le]

theorem holds_sin {e : Encl} {x : ℝ} (h : e.Holds x) : e.sin.Holds (Real.sin x) := by
  have h2 := holds_cos (holds_add h (holds_mul (holds_ofRat (-1 / 2)) holds_pi))
  have : x + ((-1 / 2 : Rat) : ℝ) * Real.pi = x - Real.pi / 2 := by push_cast; ring
  rw [this, Real.cos_sub_pi_div_two] at h2
  exact h2

/-- Half an arc tangent. -/
theorem arctan_eq_two_mul (x : ℝ) : Real.arctan x = 2 * Real.arctan (x / (1 + Real.sqrt (1 + x * x))) := by
  obtain ⟨s, hs⟩ : ∃ s, s = Real.sqrt (1 + x * x) := ⟨_, rfl⟩
  have hs2 : s * s = 1 + x * x := by rw [hs]; exact Real.mul_self_sqrt (by nlinarith)
  have hs0 : 0 ≤ s := hs ▸ Real.sqrt_nonneg _
  have hp : 0 < 1 + s := by linarith
  have hlt : |x| < 1 + s := by
    have : |x| ≤ s := hs ▸ Real.abs_le_sqrt (by nlinarith)
    linarith
  rw [abs_lt] at hlt
  rw [← hs, Real.two_mul_arctan (by rw [lt_div_iff₀ hp]; linarith) (by rw [div_lt_one hp]; linarith)]
  congr 1
  have hne : (1 + s) ^ 2 - x ^ 2 ≠ 0 := by nlinarith
  field_simp
  linear_combination x * hs2

/-- An angle differs from its tangent by at most the tangent's cube. -/
theorem abs_arctan_sub_le (x : ℝ) : |Real.arctan x - x| ≤ |x| * (|x| * |x|) := by
  wlog hx : 0 ≤ x generalizing x with h
  · have := h (-x) (by linarith)
    rwa [Real.arctan_neg, abs_neg, ← neg_sub', abs_neg] at this
  have hle : Real.arctan x ≤ x := by
    rcases hx.lt_or_eq with h0 | h0
    · have := (Real.lt_tan (Real.arctan_pos.mpr h0) (Real.arctan_lt_pi_div_two x)).le
      rwa [Real.tan_arctan] at this
    · simp [← h0]
  have hge := Real.sin_le (Real.arctan_nonneg.mpr hx)
  rw [Real.sin_arctan] at hge
  have h1 : 1 ≤ Real.sqrt (1 + x ^ 2) := by rw [Real.one_le_sqrt]; nlinarith
  have h2 : Real.sqrt (1 + x ^ 2) ≤ 1 + x ^ 2 := by rw [Real.sqrt_le_left (by nlinarith)]; nlinarith [sq_nonneg x]
  have h3 : x - x * (x * x) ≤ x / Real.sqrt (1 + x ^ 2) := by
    rw [le_div_iff₀ (by linarith)]
    nlinarith [mul_nonneg hx (sq_nonneg x), mul_nonneg (mul_nonneg hx (sq_nonneg x)) (sq_nonneg x),
      mul_nonneg (mul_nonneg hx (sq_nonneg x)) (sub_nonneg.mpr h1), mul_nonneg hx (sub_nonneg.mpr h2)]
  rw [abs_of_nonneg hx, abs_le]
  constructor <;> linarith

theorem holds_halfTan {t u : Encl} {x : ℝ} (h : t.Holds x) (hu : t.halfTan = some u) :
    u.Holds (x / (1 + Real.sqrt (1 + x * x))) := by
  obtain ⟨v, hv, rfl⟩ := Option.map_eq_some_iff.mp hu
  have h1 : (ofRat 1).Holds 1 := by simpa using holds_ofRat 1
  exact holds_mul h (holds_inv (holds_add h1 (holds_sqrt (holds_add h1 (holds_mul h h)))) hv)

theorem holds_halfTanTimes (n : Nat) {t u : Encl} {x : ℝ} (h : t.Holds x) (hu : halfTanTimes n t = some u) :
    ∃ y, u.Holds y ∧ Real.arctan x = 2 ^ n * Real.arctan y := by
  induction n generalizing t x with
  | zero => cases hu; exact ⟨x, h, by simp⟩
  | succ n ih =>
    obtain ⟨v, hv, hw⟩ := Option.bind_eq_some_iff.mp hu
    obtain ⟨y, hy, he⟩ := ih (holds_halfTan h hv) hw
    exact ⟨y, hy, by rw [arctan_eq_two_mul, he, pow_succ]; ring⟩

theorem holds_atan {t : Encl} {x : ℝ} (h : t.Holds x) : t.atan.Holds (Real.arctan x) := by
  have hU := unit_pos
  unfold atan
  split
  · rename_i u hu
    obtain ⟨y, hy, he⟩ := holds_halfTanTimes 40 h hu
    have hb := abs_arctan_sub_le y
    have h3 := (holds_mul (holds_abs hy) (holds_mul (holds_abs hy) (holds_abs hy))).2
    obtain ⟨hl, hh⟩ := hy
    rw [abs_le] at hb
    obtain ⟨b1, b2⟩ := hb
    have c1 := mul_le_mul_of_nonneg_right b1 hU.le
    have c2 := mul_le_mul_of_nonneg_right b2 hU.le
    rw [he]
    constructor
    · push_cast
      have : (u.lo : ℝ) - ((u.abs.mul (u.abs.mul u.abs)).hi : ℝ) ≤ Real.arctan y * unit := by nlinarith
      nlinarith
    · push_cast
      have : Real.arctan y * unit ≤ (u.hi : ℝ) + ((u.abs.mul (u.abs.mul u.abs)).hi : ℝ) := by nlinarith
      nlinarith
  · have h1 := Real.neg_pi_div_two_lt_arctan x
    have h2 := Real.arctan_lt_pi_div_two x
    have h3 := Real.pi_lt_four
    constructor <;> push_cast <;> nlinarith

theorem holds_div {e f g : Encl} {x y : ℝ} (hx : e.Holds x) (hy : f.Holds y) (h : e.div f = some g) : g.Holds (x / y) := by
  obtain ⟨v, hv, rfl⟩ := Option.map_eq_some_iff.mp h
  exact holds_mul hx (holds_inv hy hv)

theorem pos_of_holds {e : Encl} {x : ℝ} (h : e.Holds x) (he : 0 < e.lo) : 0 < x := by
  have : (0 : ℝ) < e.lo := by exact_mod_cast he
  exact pos_of_mul_pos_left (this.trans_le h.1) unit_pos.le

theorem nonneg_of_holds {e : Encl} {x : ℝ} (h : e.Holds x) (he : 0 ≤ e.lo) : 0 ≤ x := by
  have : (0 : ℝ) ≤ e.lo := by exact_mod_cast he
  exact nonneg_of_mul_nonneg_left (this.trans h.1) unit_pos

theorem neg_of_holds {e : Encl} {x : ℝ} (h : e.Holds x) (he : e.hi < 0) : x < 0 := by
  have := pos_of_holds (holds_neg h) (by simpa [neg] using he)
  linarith

/-! The principal argument in the four half planes. -/

theorem arg_of_right {x y : ℝ} (hx : 0 < x) : Complex.arg ⟨x, y⟩ = Real.arctan (y / x) := by
  have h := Complex.abs_arg_lt_pi_div_two_iff (z := ⟨x, y⟩) |>.mpr (.inl hx)
  rw [abs_lt] at h
  have ht := Complex.tan_arg ⟨x, y⟩
  rw [← Real.arctan_tan h.1 h.2, ht]

theorem arg_of_above {x y : ℝ} (hy : 0 < y) : Complex.arg ⟨x, y⟩ = Real.pi / 2 - Real.arctan (x / y) := by
  have h0 : 0 < Complex.arg ⟨x, y⟩ := by
    refine lt_of_le_of_ne (Complex.arg_nonneg_iff.mpr hy.le) fun h => ?_
    have := (Complex.arg_eq_zero_iff.mp h.symm).2
    simp at this; linarith
  have h1 : Complex.arg ⟨x, y⟩ < Real.pi := by
    refine lt_of_le_of_ne (Complex.arg_le_pi _) fun h => ?_
    have := (Complex.arg_eq_pi_iff.mp h).2
    simp at this; linarith
  have ht := Complex.tan_arg ⟨x, y⟩
  have h2 : Real.tan (Real.pi / 2 - Complex.arg ⟨x, y⟩) = x / y := by rw [Real.tan_pi_div_two_sub, ht, inv_div]
  rw [← h2, Real.arctan_tan (by linarith) (by linarith)]
  ring

theorem arg_of_below {x y : ℝ} (hy : y < 0) : Complex.arg ⟨x, y⟩ = -(Real.pi / 2 + Real.arctan (x / y)) := by
  have h0 : Complex.arg ⟨x, y⟩ < 0 := Complex.arg_neg_iff.mpr hy
  have h1 := Complex.neg_pi_lt_arg ⟨x, y⟩
  have ht := Complex.tan_arg ⟨x, y⟩
  have h2 : Real.tan (-(Real.pi / 2 - -Complex.arg ⟨x, y⟩)) = x / y := by
    rw [Real.tan_neg, Real.tan_pi_div_two_sub, Real.tan_neg, ht, inv_neg, neg_neg, inv_div]
  rw [← h2, Real.arctan_tan (by linarith) (by linarith)]
  ring

theorem arg_of_left {x y : ℝ} (hx : x < 0) (hy : 0 ≤ y) : Complex.arg ⟨x, y⟩ = Real.pi + Real.arctan (y / x) := by
  have h0 : Real.pi / 2 < Complex.arg ⟨x, y⟩ := by
    by_contra h
    have := Complex.arg_le_pi_div_two_iff.mp (not_lt.mp h)
    simp at this
    rcases this with h | h <;> linarith
  have h1 := Complex.arg_le_pi ⟨x, y⟩
  have ht := Complex.tan_arg ⟨x, y⟩
  have h2 : Real.tan (Complex.arg ⟨x, y⟩ - Real.pi) = y / x := by rw [Real.tan_sub_pi, ht]
  rw [← h2, Real.arctan_tan (by linarith) (by linarith [Real.pi_pos])]
  ring

theorem holds_arg_wide (z : ℂ) : (Encl.mk (-4 * unit) (4 * unit)).Holds z.arg := by
  have hU := unit_pos
  have h1 := Complex.neg_pi_lt_arg z
  have h2 := Complex.arg_le_pi z
  have h3 := Real.pi_lt_four
  constructor <;> push_cast <;> nlinarith

theorem holds_arg {e f : Encl} {x y : ℝ} (hx : e.Holds x) (hy : f.Holds y) : (e.arg f).Holds (Complex.arg ⟨x, y⟩) := by
  have hq : (mul (ofRat (1 / 2)) pi).Holds (Real.pi / 2) := by
    have := holds_mul (holds_ofRat (1 / 2)) holds_pi
    rwa [show ((1 / 2 : Rat) : ℝ) * Real.pi = Real.pi / 2 by push_cast; ring] at this
  have key : ∀ o : Option Encl, (∀ g, o = some g → g.Holds (Complex.arg ⟨x, y⟩)) →
      (o.getD ⟨-4 * unit, 4 * unit⟩).Holds (Complex.arg ⟨x, y⟩) := by
    intro o ho
    cases o with
    | none => exact holds_arg_wide _
    | some g => exact ho g rfl
  refine key _ fun g hg => ?_
  split_ifs at hg with h1 h2 h3 h4
  · obtain ⟨t, ht, rfl⟩ := Option.map_eq_some_iff.mp hg
    rw [arg_of_right (pos_of_holds hx h1)]
    exact holds_atan (holds_div hy hx ht)
  · obtain ⟨t, ht, rfl⟩ := Option.map_eq_some_iff.mp hg
    rw [arg_of_above (pos_of_holds hy h2), sub_eq_add_neg]
    exact holds_add hq (holds_neg (holds_atan (holds_div hx hy ht)))
  · obtain ⟨t, ht, rfl⟩ := Option.map_eq_some_iff.mp hg
    rw [arg_of_below (neg_of_holds hy h3)]
    exact holds_neg (holds_add hq (holds_atan (holds_div hx hy ht)))
  · obtain ⟨t, ht, rfl⟩ := Option.map_eq_some_iff.mp hg
    rw [arg_of_left (neg_of_holds hx h4.1) (nonneg_of_holds hy h4.2)]
    exact holds_add holds_pi (holds_atan (holds_div hy hx ht))

end Encl

namespace Num

theorem holds_encl? {a : Num} {e : Encl} (h : a.encl? = some e) : e.Holds a.val := by
  induction a generalizing e with
  | free k => simp [encl?] at h
  | rat q => simp only [encl?, Option.some.injEq] at h; subst h; exact Encl.holds_ofRat q
  | root q =>
    simp only [encl?, Option.some.injEq] at h
    subst h
    split
    · rename_i h0; rw [val_root_of_nonneg h0]; exact Encl.holds_sqrt (Encl.holds_ofRat q)
    · rename_i h0
      rw [val_root_of_neg (not_le.mp h0)]
      have := Encl.holds_neg (Encl.holds_sqrt (Encl.holds_ofRat (-q)))
      push_cast at this; exact this
  | piMul q => simp only [encl?, Option.some.injEq] at h; subst h; exact Encl.holds_mul (Encl.holds_ofRat q) Encl.holds_pi
  | add a b iha ihb =>
    simp only [encl?] at h
    split at h
    · rename_i x y hx hy; cases h; exact Encl.holds_add (iha hx) (ihb hy)
    · cases h
  | neg a ih =>
    simp only [encl?, Option.map_eq_some_iff] at h
    obtain ⟨x, hx, rfl⟩ := h; exact Encl.holds_neg (ih hx)
  | mul a b iha ihb =>
    simp only [encl?] at h
    split at h
    · rename_i x y hx hy; cases h; exact Encl.holds_mul (iha hx) (ihb hy)
    · cases h
  | inv a ih =>
    simp only [encl?, Option.bind_eq_some_iff] at h
    obtain ⟨x, hx, he⟩ := h; exact Encl.holds_inv (ih hx) he
  | sqrt a ih =>
    simp only [encl?, Option.map_eq_some_iff] at h
    obtain ⟨x, hx, rfl⟩ := h; exact Encl.holds_sqrt (ih hx)
  | abs a ih =>
    simp only [encl?, Option.map_eq_some_iff] at h
    obtain ⟨x, hx, rfl⟩ := h; exact Encl.holds_abs (ih hx)
  | cos a ih =>
    simp only [encl?, Option.map_eq_some_iff] at h
    obtain ⟨x, hx, rfl⟩ := h; exact Encl.holds_cos (ih hx)
  | sin a ih =>
    simp only [encl?, Option.map_eq_some_iff] at h
    obtain ⟨x, hx, rfl⟩ := h; exact Encl.holds_sin (ih hx)
  | arg re im ihx ihy =>
    simp only [encl?] at h
    split at h
    · rename_i x y hx hy; cases h; exact Encl.holds_arg (ihx hx) (ihy hy)
    · cases h; exact Encl.holds_arg_wide _

theorem val_nonneg_of_isNonneg {a : Num} (h : a.isNonneg = true) : 0 ≤ a.val := by
  induction a with
  | rat q => have : 0 ≤ q := by simpa [isNonneg] using h
             rw [val_rat]; exact_mod_cast this
  | root q => have : 0 ≤ q := by simpa [isNonneg] using h
              rw [val_root_of_nonneg this]; exact Real.sqrt_nonneg _
  | piMul q => have : 0 ≤ q := by simpa [isNonneg] using h
               rw [val_piMul]; exact mul_nonneg (by exact_mod_cast this) Real.pi_pos.le
  | sqrt a => exact Real.sqrt_nonneg _
  | abs a => exact abs_nonneg _
  | mul a b => have : a = b := by simpa [isNonneg] using h
               subst this; exact mul_self_nonneg _
  | add a b iha ihb =>
    rw [isNonneg, Bool.and_eq_true] at h
    exact add_nonneg (iha h.1) (ihb h.2)
  | _ => simp [isNonneg] at h

theorem val_nonpos_of_isNonpos {a : Num} (h : a.isNonpos = true) : a.val ≤ 0 := by
  cases a with
  | rat q => have : q ≤ 0 := by simpa [isNonpos] using h
             rw [val_rat]; exact_mod_cast this
  | root q => have : q ≤ 0 := by simpa [isNonpos] using h
              rcases this.lt_or_eq with h0 | h0
              · rw [val_root_of_neg h0]; linarith [Real.sqrt_nonneg (-(q : ℝ))]
              · subst h0; rw [val_root_zero]
  | piMul q => have : q ≤ 0 := by simpa [isNonpos] using h
               rw [val_piMul]; exact mul_nonpos_of_nonpos_of_nonneg (by exact_mod_cast this) Real.pi_pos.le
  | _ => simp [isNonpos] at h

theorem ltExact?_sound {a b : Num} {r : Bool} (h : ltExact? a b = some r) : r = true ↔ a.val < b.val := by
  unfold ltExact? at h
  split at h
  · rename_i x y hx hy
    cases h
    rw [decide_eq_true_iff, ← mul_abs_lt_iff, signedSq?_spec hx, signedSq?_spec hy]
    exact_mod_cast Iff.rfl
  · split at h
    · rename_i p q
      cases h
      rw [decide_eq_true_iff, val_piMul, val_piMul, mul_lt_mul_iff_left₀ Real.pi_pos]
      exact_mod_cast Iff.rfl
    · cases h

theorem ltEncl?_sound {a b : Num} {r : Bool} (h : ltEncl? a b = some r) : r = true ↔ a.val < b.val := by
  unfold ltEncl? at h
  have hU := Encl.unit_pos
  split at h
  · rename_i x y hx hy
    obtain ⟨a1, a2⟩ := holds_encl? hx
    obtain ⟨b1, b2⟩ := holds_encl? hy
    split at h
    · rename_i hlt
      cases h
      have hlt' : (x.hi : ℝ) < y.lo := by exact_mod_cast hlt
      simp only [true_iff]
      by_contra hn
      nlinarith [not_lt.mp hn]
    · split at h
      · rename_i hle
        cases h
        have hle' : (y.hi : ℝ) ≤ x.lo := by exact_mod_cast hle
        simp only [Bool.false_eq_true, false_iff, not_lt]
        by_contra hn
        nlinarith [not_le.mp hn]
      · cases h
  · cases h

/-- What the model settles is the truth over exact reals (47_arithmetic.md R324). -/
theorem lt?_sound {a b : Num} {r : Bool} (h : lt? a b = some r) : r = true ↔ a.val < b.val := by
  unfold lt? at h
  split at h
  · rename_i r' hr; cases h; exact ltExact?_sound hr
  · split at h
    · rename_i hs
      cases h
      rw [Bool.and_eq_true] at hs
      have h1 := val_nonneg_of_isNonneg hs.1
      have h2 := val_nonpos_of_isNonpos hs.2
      simp only [Bool.false_eq_true, false_iff, not_lt]; linarith
    · split at h
      · rename_i r' hr; cases h; exact ltEncl?_sound hr
      · split at h
        · rename_i heq; cases h; subst heq; simp
        · cases h

/-- The comparison is the order of the reals, for every two numbers (47_arithmetic.md R324). -/
theorem lt_iff {a b : Num} : lt a b = true ↔ a.val < b.val := by
  unfold lt
  split
  · rename_i h; exact lt?_sound h
  · exact (@order a b (ltDecision_nonempty a b)).property

theorem lt_eq_false_iff {a b : Num} : lt a b = false ↔ b.val ≤ a.val := by
  rw [← Bool.not_eq_true, lt_iff, not_lt]

/-- A number is not below itself. -/
@[simp] theorem lt_self (a : Num) : lt a a = false := lt_eq_false_iff.mpr le_rfl

end Num

end Sys2Proof
end

