-- ==== Sys2Proof/Laws/State.lean ====
section
/-! SUPPORT. What each update of the state does to each field, one lemma per field, so that no proof unfolds an update. -/

namespace Sys2Proof.Machine

/-! `Status.withCode` -/

@[simp] theorem Status.withCode_code (s : Status) (c : Code) : (s.withCode c).code = c := rfl
@[simp] theorem Status.withCode_abort (s : Status) (c : Code) : (s.withCode c).abort = s.abort := rfl
@[simp] theorem Status.withCode_crcFail (s : Status) (c : Code) : (s.withCode c).crcFail = s.crcFail := rfl
@[simp] theorem Status.withCode_detFallback (s : Status) (c : Code) : (s.withCode c).detFallback = s.detFallback := rfl
@[simp] theorem Status.withCode_cfoSkip (s : Status) (c : Code) : (s.withCode c).cfoSkip = s.cfoSkip := rfl
@[simp] theorem Status.withCode_cpeSkip (s : Status) (c : Code) : (s.withCode c).cpeSkip = s.cpeSkip := rfl
@[simp] theorem Status.withCode_scoSkip (s : Status) (c : Code) : (s.withCode c).scoSkip = s.scoSkip := rfl

/-! `Status.raised` -/

@[simp] theorem Status.raised_code (s : Status) (e : Code) : (s.raised e).code = e := rfl
@[simp] theorem Status.raised_abort (s : Status) (e : Code) : (s.raised e).abort = true := rfl
@[simp] theorem Status.raised_crcFail (s : Status) (e : Code) : (s.raised e).crcFail = s.crcFail := rfl
@[simp] theorem Status.raised_detFallback (s : Status) (e : Code) : (s.raised e).detFallback = s.detFallback := rfl
@[simp] theorem Status.raised_cfoSkip (s : Status) (e : Code) : (s.raised e).cfoSkip = s.cfoSkip := rfl
@[simp] theorem Status.raised_cpeSkip (s : Status) (e : Code) : (s.raised e).cpeSkip = s.cpeSkip := rfl
@[simp] theorem Status.raised_scoSkip (s : Status) (e : Code) : (s.raised e).scoSkip = s.scoSkip := rfl

/-! `Status.withCrcFail` -/

@[simp] theorem Status.withCrcFail_code (s : Status) (x : Bool) : (s.withCrcFail x).code = s.code := rfl
@[simp] theorem Status.withCrcFail_abort (s : Status) (x : Bool) : (s.withCrcFail x).abort = s.abort := rfl
@[simp] theorem Status.withCrcFail_crcFail (s : Status) (x : Bool) : (s.withCrcFail x).crcFail = x := rfl
@[simp] theorem Status.withCrcFail_detFallback (s : Status) (x : Bool) : (s.withCrcFail x).detFallback = s.detFallback := rfl
@[simp] theorem Status.withCrcFail_cfoSkip (s : Status) (x : Bool) : (s.withCrcFail x).cfoSkip = s.cfoSkip := rfl
@[simp] theorem Status.withCrcFail_cpeSkip (s : Status) (x : Bool) : (s.withCrcFail x).cpeSkip = s.cpeSkip := rfl
@[simp] theorem Status.withCrcFail_scoSkip (s : Status) (x : Bool) : (s.withCrcFail x).scoSkip = s.scoSkip := rfl

/-! `Status.withDetFallback` -/

@[simp] theorem Status.withDetFallback_code (s : Status) (x : Bool) : (s.withDetFallback x).code = s.code := rfl
@[simp] theorem Status.withDetFallback_abort (s : Status) (x : Bool) : (s.withDetFallback x).abort = s.abort := rfl
@[simp] theorem Status.withDetFallback_crcFail (s : Status) (x : Bool) : (s.withDetFallback x).crcFail = s.crcFail := rfl
@[simp] theorem Status.withDetFallback_detFallback (s : Status) (x : Bool) : (s.withDetFallback x).detFallback = x := rfl
@[simp] theorem Status.withDetFallback_cfoSkip (s : Status) (x : Bool) : (s.withDetFallback x).cfoSkip = s.cfoSkip := rfl
@[simp] theorem Status.withDetFallback_cpeSkip (s : Status) (x : Bool) : (s.withDetFallback x).cpeSkip = s.cpeSkip := rfl
@[simp] theorem Status.withDetFallback_scoSkip (s : Status) (x : Bool) : (s.withDetFallback x).scoSkip = s.scoSkip := rfl

/-! `Status.withCfoSkip` -/

@[simp] theorem Status.withCfoSkip_code (s : Status) (x : Bool) : (s.withCfoSkip x).code = s.code := rfl
@[simp] theorem Status.withCfoSkip_abort (s : Status) (x : Bool) : (s.withCfoSkip x).abort = s.abort := rfl
@[simp] theorem Status.withCfoSkip_crcFail (s : Status) (x : Bool) : (s.withCfoSkip x).crcFail = s.crcFail := rfl
@[simp] theorem Status.withCfoSkip_detFallback (s : Status) (x : Bool) : (s.withCfoSkip x).detFallback = s.detFallback := rfl
@[simp] theorem Status.withCfoSkip_cfoSkip (s : Status) (x : Bool) : (s.withCfoSkip x).cfoSkip = x := rfl
@[simp] theorem Status.withCfoSkip_cpeSkip (s : Status) (x : Bool) : (s.withCfoSkip x).cpeSkip = s.cpeSkip := rfl
@[simp] theorem Status.withCfoSkip_scoSkip (s : Status) (x : Bool) : (s.withCfoSkip x).scoSkip = s.scoSkip := rfl

/-! `Status.withCpeSkip` -/

@[simp] theorem Status.withCpeSkip_code (s : Status) (x : Bool) : (s.withCpeSkip x).code = s.code := rfl
@[simp] theorem Status.withCpeSkip_abort (s : Status) (x : Bool) : (s.withCpeSkip x).abort = s.abort := rfl
@[simp] theorem Status.withCpeSkip_crcFail (s : Status) (x : Bool) : (s.withCpeSkip x).crcFail = s.crcFail := rfl
@[simp] theorem Status.withCpeSkip_detFallback (s : Status) (x : Bool) : (s.withCpeSkip x).detFallback = s.detFallback := rfl
@[simp] theorem Status.withCpeSkip_cfoSkip (s : Status) (x : Bool) : (s.withCpeSkip x).cfoSkip = s.cfoSkip := rfl
@[simp] theorem Status.withCpeSkip_cpeSkip (s : Status) (x : Bool) : (s.withCpeSkip x).cpeSkip = x := rfl
@[simp] theorem Status.withCpeSkip_scoSkip (s : Status) (x : Bool) : (s.withCpeSkip x).scoSkip = s.scoSkip := rfl

/-! `Status.withScoSkip` -/

@[simp] theorem Status.withScoSkip_code (s : Status) (x : Bool) : (s.withScoSkip x).code = s.code := rfl
@[simp] theorem Status.withScoSkip_abort (s : Status) (x : Bool) : (s.withScoSkip x).abort = s.abort := rfl
@[simp] theorem Status.withScoSkip_crcFail (s : Status) (x : Bool) : (s.withScoSkip x).crcFail = s.crcFail := rfl
@[simp] theorem Status.withScoSkip_detFallback (s : Status) (x : Bool) : (s.withScoSkip x).detFallback = s.detFallback := rfl
@[simp] theorem Status.withScoSkip_cfoSkip (s : Status) (x : Bool) : (s.withScoSkip x).cfoSkip = s.cfoSkip := rfl
@[simp] theorem Status.withScoSkip_cpeSkip (s : Status) (x : Bool) : (s.withScoSkip x).cpeSkip = s.cpeSkip := rfl
@[simp] theorem Status.withScoSkip_scoSkip (s : Status) (x : Bool) : (s.withScoSkip x).scoSkip = x := rfl

/-! `Block.withCode` -/

@[simp] theorem Block.withCode_pay (b : Block) (c : Code) : (b.withCode c).pay = b.pay := rfl
@[simp] theorem Block.withCode_crcb (b : Block) (c : Code) : (b.withCode c).crcb = b.crcb := rfl
@[simp] theorem Block.withCode_tot (b : Block) (c : Code) : (b.withCode c).tot = b.tot := rfl
@[simp] theorem Block.withCode_cod (b : Block) (c : Code) : (b.withCode c).cod = b.cod := rfl
@[simp] theorem Block.withCode_ilv (b : Block) (c : Code) : (b.withCode c).ilv = b.ilv := rfl
@[simp] theorem Block.withCode_syms (b : Block) (c : Code) : (b.withCode c).syms = b.syms := rfl
@[simp] theorem Block.withCode_grid (b : Block) (c : Code) : (b.withCode c).grid = b.grid := rfl
@[simp] theorem Block.withCode_td (b : Block) (c : Code) : (b.withCode c).td = b.td := rfl
@[simp] theorem Block.withCode_cps (b : Block) (c : Code) : (b.withCode c).cps = b.cps := rfl
@[simp] theorem Block.withCode_pre (b : Block) (c : Code) : (b.withCode c).pre = b.pre := rfl
@[simp] theorem Block.withCode_frame (b : Block) (c : Code) : (b.withCode c).frame = b.frame := rfl
@[simp] theorem Block.withCode_const (b : Block) (c : Code) : (b.withCode c).const = b.const := rfl
@[simp] theorem Block.withCode_scoPrev (b : Block) (c : Code) : (b.withCode c).scoPrev = b.scoPrev := rfl
@[simp] theorem Block.withCode_status (b : Block) (c : Code) : (b.withCode c).status = b.status.withCode c := rfl
@[simp] theorem Block.withCode_start (b : Block) (c : Code) : (b.withCode c).start = b.start := rfl
@[simp] theorem Block.withCode_score (b : Block) (c : Code) : (b.withCode c).score = b.score := rfl
@[simp] theorem Block.withCode_tbvalid (b : Block) (c : Code) : (b.withCode c).tbvalid = b.tbvalid := rfl
@[simp] theorem Block.withCode_cfo (b : Block) (c : Code) : (b.withCode c).cfo = b.cfo := rfl
@[simp] theorem Block.withCode_cpe (b : Block) (c : Code) : (b.withCode c).cpe = b.cpe := rfl
@[simp] theorem Block.withCode_sco (b : Block) (c : Code) : (b.withCode c).sco = b.sco := rfl

/-! `Block.raise`, taking an error -/

@[simp] theorem Block.raise_pay (b : Block) (e : Code) : (b.raise e).pay = b.pay := rfl
@[simp] theorem Block.raise_crcb (b : Block) (e : Code) : (b.raise e).crcb = b.crcb := rfl
@[simp] theorem Block.raise_tot (b : Block) (e : Code) : (b.raise e).tot = b.tot := rfl
@[simp] theorem Block.raise_cod (b : Block) (e : Code) : (b.raise e).cod = b.cod := rfl
@[simp] theorem Block.raise_ilv (b : Block) (e : Code) : (b.raise e).ilv = b.ilv := rfl
@[simp] theorem Block.raise_syms (b : Block) (e : Code) : (b.raise e).syms = b.syms := rfl
@[simp] theorem Block.raise_grid (b : Block) (e : Code) : (b.raise e).grid = b.grid := rfl
@[simp] theorem Block.raise_td (b : Block) (e : Code) : (b.raise e).td = b.td := rfl
@[simp] theorem Block.raise_cps (b : Block) (e : Code) : (b.raise e).cps = b.cps := rfl
@[simp] theorem Block.raise_pre (b : Block) (e : Code) : (b.raise e).pre = b.pre := rfl
@[simp] theorem Block.raise_frame (b : Block) (e : Code) : (b.raise e).frame = b.frame := rfl
@[simp] theorem Block.raise_const (b : Block) (e : Code) : (b.raise e).const = b.const := rfl
@[simp] theorem Block.raise_scoPrev (b : Block) (e : Code) : (b.raise e).scoPrev = b.scoPrev := rfl
@[simp] theorem Block.raise_status (b : Block) (e : Code) : (b.raise e).status = b.status.raised e := rfl
@[simp] theorem Block.raise_start (b : Block) (e : Code) : (b.raise e).start = b.start := rfl
@[simp] theorem Block.raise_score (b : Block) (e : Code) : (b.raise e).score = b.score := rfl
@[simp] theorem Block.raise_tbvalid (b : Block) (e : Code) : (b.raise e).tbvalid = b.tbvalid := rfl
@[simp] theorem Block.raise_cfo (b : Block) (e : Code) : (b.raise e).cfo = b.cfo := rfl
@[simp] theorem Block.raise_cpe (b : Block) (e : Code) : (b.raise e).cpe = b.cpe := rfl
@[simp] theorem Block.raise_sco (b : Block) (e : Code) : (b.raise e).sco = b.sco := rfl

/-! `Block.refuse`, a command while aborted -/

@[simp] theorem Block.refuse_pay (b : Block) : (b.refuse).pay = b.pay := rfl
@[simp] theorem Block.refuse_crcb (b : Block) : (b.refuse).crcb = b.crcb := rfl
@[simp] theorem Block.refuse_tot (b : Block) : (b.refuse).tot = b.tot := rfl
@[simp] theorem Block.refuse_cod (b : Block) : (b.refuse).cod = b.cod := rfl
@[simp] theorem Block.refuse_ilv (b : Block) : (b.refuse).ilv = b.ilv := rfl
@[simp] theorem Block.refuse_syms (b : Block) : (b.refuse).syms = b.syms := rfl
@[simp] theorem Block.refuse_grid (b : Block) : (b.refuse).grid = b.grid := rfl
@[simp] theorem Block.refuse_td (b : Block) : (b.refuse).td = b.td := rfl
@[simp] theorem Block.refuse_cps (b : Block) : (b.refuse).cps = b.cps := rfl
@[simp] theorem Block.refuse_pre (b : Block) : (b.refuse).pre = b.pre := rfl
@[simp] theorem Block.refuse_frame (b : Block) : (b.refuse).frame = b.frame := rfl
@[simp] theorem Block.refuse_const (b : Block) : (b.refuse).const = b.const := rfl
@[simp] theorem Block.refuse_scoPrev (b : Block) : (b.refuse).scoPrev = b.scoPrev := rfl
@[simp] theorem Block.refuse_status (b : Block) : (b.refuse).status = b.status.withCode .aborted := rfl
@[simp] theorem Block.refuse_start (b : Block) : (b.refuse).start = b.start := rfl
@[simp] theorem Block.refuse_score (b : Block) : (b.refuse).score = b.score := rfl
@[simp] theorem Block.refuse_tbvalid (b : Block) : (b.refuse).tbvalid = b.tbvalid := rfl
@[simp] theorem Block.refuse_cfo (b : Block) : (b.refuse).cfo = b.cfo := rfl
@[simp] theorem Block.refuse_cpe (b : Block) : (b.refuse).cpe = b.cpe := rfl
@[simp] theorem Block.refuse_sco (b : Block) : (b.refuse).sco = b.sco := rfl

/-! `Block.txReset` -/

@[simp] theorem Block.txReset_pay (b : Block) : (b.txReset).pay = none := rfl
@[simp] theorem Block.txReset_crcb (b : Block) : (b.txReset).crcb = none := rfl
@[simp] theorem Block.txReset_tot (b : Block) : (b.txReset).tot = none := rfl
@[simp] theorem Block.txReset_cod (b : Block) : (b.txReset).cod = none := rfl
@[simp] theorem Block.txReset_ilv (b : Block) : (b.txReset).ilv = none := rfl
@[simp] theorem Block.txReset_syms (b : Block) : (b.txReset).syms = none := rfl
@[simp] theorem Block.txReset_grid (b : Block) : (b.txReset).grid = none := rfl
@[simp] theorem Block.txReset_td (b : Block) : (b.txReset).td = none := rfl
@[simp] theorem Block.txReset_cps (b : Block) : (b.txReset).cps = none := rfl
@[simp] theorem Block.txReset_pre (b : Block) : (b.txReset).pre = b.pre := rfl
@[simp] theorem Block.txReset_frame (b : Block) : (b.txReset).frame = none := rfl
@[simp] theorem Block.txReset_const (b : Block) : (b.txReset).const = b.const := rfl
@[simp] theorem Block.txReset_scoPrev (b : Block) : (b.txReset).scoPrev = b.scoPrev := rfl
@[simp] theorem Block.txReset_status (b : Block) : (b.txReset).status = Status.reset := rfl
@[simp] theorem Block.txReset_start (b : Block) : (b.txReset).start = 0 := rfl
@[simp] theorem Block.txReset_score (b : Block) : (b.txReset).score = Num.zero := rfl
@[simp] theorem Block.txReset_tbvalid (b : Block) : (b.txReset).tbvalid = false := rfl
@[simp] theorem Block.txReset_cfo (b : Block) : (b.txReset).cfo = b.cfo := rfl
@[simp] theorem Block.txReset_cpe (b : Block) : (b.txReset).cpe = b.cpe := rfl
@[simp] theorem Block.txReset_sco (b : Block) : (b.txReset).sco = b.sco := rfl

/-! `Block.runReset` -/

@[simp] theorem Block.runReset_pay (b : Block) : (b.runReset).pay = none := rfl
@[simp] theorem Block.runReset_crcb (b : Block) : (b.runReset).crcb = none := rfl
@[simp] theorem Block.runReset_tot (b : Block) : (b.runReset).tot = none := rfl
@[simp] theorem Block.runReset_cod (b : Block) : (b.runReset).cod = none := rfl
@[simp] theorem Block.runReset_ilv (b : Block) : (b.runReset).ilv = none := rfl
@[simp] theorem Block.runReset_syms (b : Block) : (b.runReset).syms = none := rfl
@[simp] theorem Block.runReset_grid (b : Block) : (b.runReset).grid = none := rfl
@[simp] theorem Block.runReset_td (b : Block) : (b.runReset).td = none := rfl
@[simp] theorem Block.runReset_cps (b : Block) : (b.runReset).cps = none := rfl
@[simp] theorem Block.runReset_pre (b : Block) : (b.runReset).pre = none := rfl
@[simp] theorem Block.runReset_frame (b : Block) : (b.runReset).frame = none := rfl
@[simp] theorem Block.runReset_const (b : Block) : (b.runReset).const = none := rfl
@[simp] theorem Block.runReset_scoPrev (b : Block) : (b.runReset).scoPrev = none := rfl
@[simp] theorem Block.runReset_status (b : Block) : (b.runReset).status = Status.reset := rfl
@[simp] theorem Block.runReset_start (b : Block) : (b.runReset).start = 0 := rfl
@[simp] theorem Block.runReset_score (b : Block) : (b.runReset).score = Num.zero := rfl
@[simp] theorem Block.runReset_tbvalid (b : Block) : (b.runReset).tbvalid = false := rfl
@[simp] theorem Block.runReset_cfo (b : Block) : (b.runReset).cfo = Tracker.reset := rfl
@[simp] theorem Block.runReset_cpe (b : Block) : (b.runReset).cpe = Tracker.reset := rfl
@[simp] theorem Block.runReset_sco (b : Block) : (b.runReset).sco = ScoTracker.reset := rfl

/-! `Block.withValidity` -/

@[simp] theorem Block.withValidity_pay (b : Block) (ok : Bool) : (b.withValidity ok).pay = b.pay := rfl
@[simp] theorem Block.withValidity_crcb (b : Block) (ok : Bool) : (b.withValidity ok).crcb = b.crcb := rfl
@[simp] theorem Block.withValidity_tot (b : Block) (ok : Bool) : (b.withValidity ok).tot = b.tot := rfl
@[simp] theorem Block.withValidity_cod (b : Block) (ok : Bool) : (b.withValidity ok).cod = b.cod := rfl
@[simp] theorem Block.withValidity_ilv (b : Block) (ok : Bool) : (b.withValidity ok).ilv = b.ilv := rfl
@[simp] theorem Block.withValidity_syms (b : Block) (ok : Bool) : (b.withValidity ok).syms = b.syms := rfl
@[simp] theorem Block.withValidity_grid (b : Block) (ok : Bool) : (b.withValidity ok).grid = b.grid := rfl
@[simp] theorem Block.withValidity_td (b : Block) (ok : Bool) : (b.withValidity ok).td = b.td := rfl
@[simp] theorem Block.withValidity_cps (b : Block) (ok : Bool) : (b.withValidity ok).cps = b.cps := rfl
@[simp] theorem Block.withValidity_pre (b : Block) (ok : Bool) : (b.withValidity ok).pre = b.pre := rfl
@[simp] theorem Block.withValidity_frame (b : Block) (ok : Bool) : (b.withValidity ok).frame = b.frame := rfl
@[simp] theorem Block.withValidity_const (b : Block) (ok : Bool) : (b.withValidity ok).const = b.const := rfl
@[simp] theorem Block.withValidity_scoPrev (b : Block) (ok : Bool) : (b.withValidity ok).scoPrev = b.scoPrev := rfl
@[simp] theorem Block.withValidity_status (b : Block) (ok : Bool) :
    (b.withValidity ok).status = b.status.withCrcFail (!ok) := rfl
@[simp] theorem Block.withValidity_start (b : Block) (ok : Bool) : (b.withValidity ok).start = b.start := rfl
@[simp] theorem Block.withValidity_score (b : Block) (ok : Bool) : (b.withValidity ok).score = b.score := rfl
@[simp] theorem Block.withValidity_tbvalid (b : Block) (ok : Bool) : (b.withValidity ok).tbvalid = ok := rfl
@[simp] theorem Block.withValidity_cfo (b : Block) (ok : Bool) : (b.withValidity ok).cfo = b.cfo := rfl
@[simp] theorem Block.withValidity_cpe (b : Block) (ok : Bool) : (b.withValidity ok).cpe = b.cpe := rfl
@[simp] theorem Block.withValidity_sco (b : Block) (ok : Bool) : (b.withValidity ok).sco = b.sco := rfl

/-! `Block.scoSkipped` -/

@[simp] theorem Block.scoSkipped_pay (b : Block) (g : Grid) (t : ScoTracker) : (b.scoSkipped g t).pay = b.pay := rfl
@[simp] theorem Block.scoSkipped_crcb (b : Block) (g : Grid) (t : ScoTracker) : (b.scoSkipped g t).crcb = b.crcb := rfl
@[simp] theorem Block.scoSkipped_tot (b : Block) (g : Grid) (t : ScoTracker) : (b.scoSkipped g t).tot = b.tot := rfl
@[simp] theorem Block.scoSkipped_cod (b : Block) (g : Grid) (t : ScoTracker) : (b.scoSkipped g t).cod = b.cod := rfl
@[simp] theorem Block.scoSkipped_ilv (b : Block) (g : Grid) (t : ScoTracker) : (b.scoSkipped g t).ilv = b.ilv := rfl
@[simp] theorem Block.scoSkipped_syms (b : Block) (g : Grid) (t : ScoTracker) : (b.scoSkipped g t).syms = b.syms := rfl
@[simp] theorem Block.scoSkipped_grid (b : Block) (g : Grid) (t : ScoTracker) : (b.scoSkipped g t).grid = b.grid := rfl
@[simp] theorem Block.scoSkipped_td (b : Block) (g : Grid) (t : ScoTracker) : (b.scoSkipped g t).td = b.td := rfl
@[simp] theorem Block.scoSkipped_cps (b : Block) (g : Grid) (t : ScoTracker) : (b.scoSkipped g t).cps = b.cps := rfl
@[simp] theorem Block.scoSkipped_pre (b : Block) (g : Grid) (t : ScoTracker) : (b.scoSkipped g t).pre = b.pre := rfl
@[simp] theorem Block.scoSkipped_frame (b : Block) (g : Grid) (t : ScoTracker) : (b.scoSkipped g t).frame = b.frame := rfl
@[simp] theorem Block.scoSkipped_const (b : Block) (g : Grid) (t : ScoTracker) : (b.scoSkipped g t).const = b.const := rfl
@[simp] theorem Block.scoSkipped_scoPrev (b : Block) (g : Grid) (t : ScoTracker) :
    (b.scoSkipped g t).scoPrev = some g.pilot := rfl
@[simp] theorem Block.scoSkipped_status (b : Block) (g : Grid) (t : ScoTracker) :
    (b.scoSkipped g t).status = b.status.withScoSkip true := rfl
@[simp] theorem Block.scoSkipped_start (b : Block) (g : Grid) (t : ScoTracker) : (b.scoSkipped g t).start = b.start := rfl
@[simp] theorem Block.scoSkipped_score (b : Block) (g : Grid) (t : ScoTracker) : (b.scoSkipped g t).score = b.score := rfl
@[simp] theorem Block.scoSkipped_tbvalid (b : Block) (g : Grid) (t : ScoTracker) :
    (b.scoSkipped g t).tbvalid = b.tbvalid := rfl
@[simp] theorem Block.scoSkipped_cfo (b : Block) (g : Grid) (t : ScoTracker) : (b.scoSkipped g t).cfo = b.cfo := rfl
@[simp] theorem Block.scoSkipped_cpe (b : Block) (g : Grid) (t : ScoTracker) : (b.scoSkipped g t).cpe = b.cpe := rfl
@[simp] theorem Block.scoSkipped_sco (b : Block) (g : Grid) (t : ScoTracker) : (b.scoSkipped g t).sco = t := rfl

/-! `Tracker.iir` -/

@[simp] theorem Tracker.iir_raw (t : Tracker) (α new : Num) : (t.iir α new).raw = new := rfl
@[simp] theorem Tracker.iir_filt (t : Tracker) (α new : Num) :
    (t.iir α new).filt = if t.init then smooth α new t.filt else new := rfl
@[simp] theorem Tracker.iir_nvalid (t : Tracker) (α new : Num) : (t.iir α new).nvalid = t.nvalid := rfl
@[simp] theorem Tracker.iir_init (t : Tracker) (α new : Num) : (t.iir α new).init = true := rfl

/-! `Tracker.withCount` -/

@[simp] theorem Tracker.withCount_raw (t : Tracker) (n : Nat) : (t.withCount n).raw = t.raw := rfl
@[simp] theorem Tracker.withCount_filt (t : Tracker) (n : Nat) : (t.withCount n).filt = t.filt := rfl
@[simp] theorem Tracker.withCount_nvalid (t : Tracker) (n : Nat) : (t.withCount n).nvalid = n := rfl
@[simp] theorem Tracker.withCount_init (t : Tracker) (n : Nat) : (t.withCount n).init = t.init := rfl

/-! `ScoTracker.withCount` -/

@[simp] theorem ScoTracker.withCount_trk (t : ScoTracker) (n : Nat) : (t.withCount n).trk = t.trk.withCount n := rfl
@[simp] theorem ScoTracker.withCount_acc (t : ScoTracker) (n : Nat) : (t.withCount n).acc = t.acc := rfl
@[simp] theorem ScoTracker.withCount_nupd (t : ScoTracker) (n : Nat) : (t.withCount n).nupd = t.nupd := rfl

/-! `ScoTracker.accept` -/

@[simp] theorem ScoTracker.accept_trk (t : ScoTracker) (c : Cfg) (new : Num) (n : Nat) :
    (t.accept c new n).trk = (t.trk.iir c.alphaSco new).withCount n := rfl
@[simp] theorem ScoTracker.accept_acc (t : ScoTracker) (c : Cfg) (new : Num) (n : Nat) :
    (t.accept c new n).acc = t.acc.plus (t.trk.iir c.alphaSco new).filt := rfl
@[simp] theorem ScoTracker.accept_nupd (t : ScoTracker) (c : Cfg) (new : Num) (n : Nat) :
    (t.accept c new n).nupd = t.nupd + 1 := rfl

/-! `State.withBlk` -/

@[simp] theorem State.withBlk_cfg (s : State) (b : Block) : (s.withBlk b).cfg = s.cfg := rfl
@[simp] theorem State.withBlk_blk (s : State) (b : Block) : (s.withBlk b).blk = b := rfl
@[simp] theorem State.withBlk_prog (s : State) (b : Block) : (s.withBlk b).prog = s.prog := rfl
@[simp] theorem State.withBlk_pc (s : State) (b : Block) : (s.withBlk b).pc = s.pc := rfl
@[simp] theorem State.withBlk_result (s : State) (b : Block) : (s.withBlk b).result = s.result := rfl

/-! `State.advance`, one host step done -/

@[simp] theorem State.advance_cfg (r : HostResult) (s : State) : (s.advance r).cfg = s.cfg := rfl
@[simp] theorem State.advance_blk (r : HostResult) (s : State) : (s.advance r).blk = s.blk := rfl
@[simp] theorem State.advance_prog (r : HostResult) (s : State) : (s.advance r).prog = s.prog := rfl
@[simp] theorem State.advance_pc (r : HostResult) (s : State) : (s.advance r).pc = s.pc + 1 := rfl
@[simp] theorem State.advance_result (r : HostResult) (s : State) : (s.advance r).result = r := rfl

/-! `State.withFetchWord` -/

@[simp] theorem State.withFetchWord_cfg (s : State) (nbits w : Nat) : (s.withFetchWord nbits w).cfg = s.cfg := rfl
@[simp] theorem State.withFetchWord_blk (s : State) (nbits w : Nat) : (s.withFetchWord nbits w).blk = s.blk := rfl
@[simp] theorem State.withFetchWord_prog (s : State) (nbits w : Nat) :
    (s.withFetchWord nbits w).prog = s.placeAtPc (.cmd (BitVec.ofNat 32 (w % 2 ^ nbits))) := rfl
@[simp] theorem State.withFetchWord_pc (s : State) (nbits w : Nat) :
    (s.withFetchWord nbits w).pc = min s.pc s.prog.length := rfl
@[simp] theorem State.withFetchWord_result (s : State) (nbits w : Nat) : (s.withFetchWord nbits w).result = s.result := rfl

end Sys2Proof.Machine
end

