-- ==== Sys2Proof/Laws/Ops.lean ====
section
/-! SUPPORT. What each shared operation can do, said once: the shell, the two ends of a command, the host steps, the writes of the
host port, and element access. Later proofs cite these and do not unfold the operations. -/

namespace Sys2Proof.Machine

/-! The shell (40_control.md R100). -/

theorem Block.shell_aborted {b : Block} (h : b.status.abort = true) (body : Except Code Block) : b.shell body = b.refuse :=
  if_pos h

theorem Block.shell_running {b : Block} (h : b.status.abort = false) (body : Except Code Block) :
    b.shell body = b.complete body := by simp [Block.shell, h]

/-- Everything the shell can do. -/
theorem Block.shell_cases (b : Block) (body : Except Code Block) :
    (b.status.abort = true ∧ b.shell body = b.refuse) ∨
      (b.status.abort = false ∧ ∃ b', body = .ok b' ∧ b.shell body = b'.withCode .ok) ∨
      (b.status.abort = false ∧ ∃ e, body = .error e ∧ b.shell body = b.raise e) := by
  cases h : b.status.abort with
  | true => exact .inl ⟨rfl, Block.shell_aborted h body⟩
  | false =>
    cases body with
    | ok b' => exact .inr (.inl ⟨rfl, b', rfl, Block.shell_running h _⟩)
    | error e => exact .inr (.inr ⟨rfl, e, rfl, Block.shell_running h _⟩)

/-! The conditions of a consistent configuration (00_scope.md R11). -/

/-- Everything `ifConsistent` can do. -/
theorem ifConsistent_cases (ok : Bool) (b : Block) :
    (ok = true ∧ ifConsistent ok b = .ok b) ∨ (ok = false ∧ ifConsistent ok b = .error .size) := by
  cases ok
  · exact .inr ⟨rfl, rfl⟩
  · exact .inl ⟨rfl, rfl⟩

@[simp] theorem ifConsistent_true (b : Block) : ifConsistent true b = .ok b := rfl
@[simp] theorem ifConsistent_false (b : Block) : ifConsistent false b = .error .size := rfl

theorem pilotsOk_of_wf {c : Cfg} (h : c.Wf) : c.pilotsOk = true := by
  simpa [Cfg.pilotsOk, h.pilots_ascending] using h.pilots_below

theorem binsOk_of_wf {c : Cfg} (h : c.Wf) : c.binsOk = true := by simpa [Cfg.binsOk] using h.sc_fits

theorem prefixOk_of_wf {c : Cfg} (h : c.Wf) : c.prefixOk = true := by simpa [Cfg.prefixOk] using h.nCp_le

/-- Everything an illegal word can do. -/
theorem Block.illegal_cases (b : Block) :
    (b.status.abort = true ∧ b.illegal = b.refuse) ∨ (b.status.abort = false ∧ b.illegal = b.raise .illegalCmd) := by
  cases h : b.status.abort <;> simp [Block.illegal, h]

/-- Everything `runBody` can do: it always answers a next state, the shell's. -/
theorem State.runBody_eq (s : State) (body : Except Code Block) : s.runBody body = .next (s.withBlk (s.blk.shell body)) := rfl

theorem State.runBody_ok {s : State} (h : s.Running) (b : Block) : s.runBody (.ok b) = s.done b := by
  simp [State.runBody, Block.shell_running h, Block.complete, State.done, State.withBlk, Block.withCode, Status.withCode]

theorem State.runBody_error {s : State} (h : s.Running) (e : Code) : s.runBody (.error e) = s.raised e := by
  simp [State.runBody, Block.shell_running h, Block.complete, State.raised, State.withBlk, Block.raise, Status.raised]

theorem State.runBody_aborted {s : State} (h : s.blk.status.abort = true) (body : Except Code Block) :
    s.runBody body = .next (s.withBlk s.blk.refuse) := by
  rw [State.runBody_eq, Block.shell_aborted h]

/-- A command that completed, read backwards. -/
theorem State.done_inj {s t : State} {b : Block} (h : s.done b = .next t) : t = s.withBlk (b.withCode .ok) := by
  cases h; rfl

/-- A command that raised, read backwards. -/
theorem State.raised_inj {s t : State} {e : Code} (h : s.raised e = .next t) : t = s.withBlk (s.blk.raise e) := by
  cases h; rfl

/-! Host steps (40_control.md R108). -/

theorem mapNext_next (f : State → State) (s : State) : mapNext f (.next s) = .next (f s) := rfl

theorem mapNext_eq_next {f : State → State} {o : Host.Outcome State Fault Refusal} {t : State} (h : mapNext f o = .next t) :
    ∃ s, o = .next s ∧ t = f s := by
  cases o with
  | next s => cases h; exact ⟨s, rfl, rfl⟩
  | fault r => cases h
  | refused r => cases h

/-- A command replaces the block and nothing else of the state. -/
theorem exec_replaces_blk (i : Instr) (s : State) : ∃ b, exec i s = .next (s.withBlk b) := by
  cases i <;> exact ⟨_, rfl⟩

/-- A write to `CMD` replaces the block and nothing else of the state. -/
theorem State.issue_replaces_blk (s : State) (w : CmdWord) : ∃ b, s.issue w = .next (s.withBlk b) := by
  unfold State.issue
  cases decode w with
  | ok i => exact exec_replaces_blk i s
  | error r => exact ⟨_, rfl⟩

theorem State.issue_legal {w : CmdWord} {i : Instr} (h : decode w = .ok i) (s : State) : s.issue w = exec i s := by
  simp [State.issue, h]

theorem State.issue_illegal {w : CmdWord} {r : Illegal} (h : decode w = .error r) (s : State) :
    s.issue w = .next (s.withBlk s.blk.illegal) := by simp [State.issue, h]

/-- A host step replaces the block, moves `pc` by one and stores what it gave back; nothing else changes. -/
theorem State.perform_eq_next (s : State) (h : HostStep) : ∃ b r, s.perform h = .next ((s.withBlk b).advance r) := by
  cases h with
  | cmd w =>
    obtain ⟨b, hb⟩ := s.issue_replaces_blk w
    exact ⟨b, .done, by simp [State.perform, hb, mapNext_next]⟩
  | hwr id off seq =>
    cases hb : s.blk.hwr s.cfg id off seq with
    | none => exact ⟨s.blk, .refusedAccess, by simp [State.perform, State.hostWrite, hb, State.withBlk]⟩
    | some b => exact ⟨b, .done, by simp [State.perform, State.hostWrite, hb]⟩
  | hrd id off n =>
    cases hb : s.blk.hrd id off n with
    | none => exact ⟨s.blk, .refusedAccess, by simp [State.perform, State.hostRead, hb, State.withBlk]⟩
    | some d => exact ⟨s.blk, .data d, by simp [State.perform, State.hostRead, hb, State.withBlk]⟩
  | csrw n v =>
    by_cases hn : n = 0
    · obtain ⟨b, hb⟩ := s.issue_replaces_blk v
      exact ⟨b, .done, by simp [State.perform, State.hostCsrw, hn, hb, mapNext_next]⟩
    · exact ⟨s.blk.csrw n v, .done, by simp [State.perform, State.hostCsrw, hn]⟩
  | csrr n => exact ⟨s.blk, s.blk.csrr n, rfl⟩

theorem step_of_fetch {s : State} {h : HostStep} (hf : s.fetch = some h) : step s = s.perform h := by simp [step, hf]

theorem step_ended {s : State} (hf : s.fetch = none) : step s = .fault .programEnded := by simp [step, hf]

/-- Everything a step that answers a next state did: it performed the entry at `pc`. -/
theorem step_eq_next {s t : State} (h : step s = .next t) : ∃ e, s.fetch = some e ∧ s.perform e = .next t := by
  unfold step at h
  split at h
  · exact ⟨_, ‹_›, h⟩
  · cases h

theorem State.fetch_withFetchWord (s : State) (nbits w : Nat) :
    (s.withFetchWord nbits w).fetch = some (.cmd (BitVec.ofNat 32 (w % 2 ^ nbits))) := by
  simp only [State.fetch, State.withFetchWord_prog, State.withFetchWord_pc, State.placeAtPc]
  rw [List.getElem?_append_right (by simp)]
  simp

/-! Sequences. -/

@[simp] theorem slice_length {α : Type} (xs : List α) (a n : Nat) : (slice xs a n).length = min n (xs.length - a) := by
  simp [slice]

@[simp] theorem rowAt_length (xs : List Cplx) (w l : Nat) : (rowAt xs w l).length = w := by simp [rowAt]

theorem slice_getElem? {α : Type} (xs : List α) {a n i : Nat} (h : i < n) : (slice xs a n)[i]? = xs[a + i]? := by
  simp [slice, h]

theorem bitAt_of_lt {xs : List Bit} {i : Nat} (h : i < xs.length) : bitAt xs i = xs[i] := by simp [bitAt, h]

theorem sampleAt_of_lt {xs : List Cplx} {i : Nat} (h : i < xs.length) : sampleAt xs i = xs[i] := by simp [sampleAt, h]

@[simp] theorem rotateData_length (c : Cfg) (f : Nat → Cplx) (data : List Cplx) : (rotateData c f data).length = data.length := by
  simp [rotateData]

theorem rotateData_sampleAt (c : Cfg) (f : Nat → Cplx) {data : List Cplx} {x : Nat} (h : x < data.length) :
    sampleAt (rotateData c f data) x =
      if isPilot c (x % c.nSc) then sampleAt data x else (sampleAt data x).times (f (x % c.nSc)) := by
  rw [sampleAt_of_lt (by simpa using h), sampleAt_of_lt h]
  simp [rotateData]

/-! Host writes (20_memory.md R62, R63). -/

theorem overwrite_length {α : Type} {xs seq : List α} {off : Nat} (h : off + seq.length ≤ xs.length) :
    (overwrite xs off seq).length = xs.length := by
  simp [overwrite]; omega

/-- Element by element: the written elements lie at `off`, every other one is as before. -/
theorem overwrite_getElem? {α : Type} {xs seq : List α} {off : Nat} (h : off + seq.length ≤ xs.length) (i : Nat) :
    (overwrite xs off seq)[i]? = if off ≤ i ∧ i < off + seq.length then seq[i - off]? else xs[i]? := by
  unfold overwrite
  rcases Nat.lt_or_ge i off with h1 | h1
  · rw [if_neg (by omega), List.append_assoc, List.getElem?_append_left (by simp; omega), List.getElem?_take, if_pos h1]
  · rcases Nat.lt_or_ge i (off + seq.length) with h2 | h2
    · rw [if_pos ⟨h1, h2⟩, List.append_assoc, List.getElem?_append_right (by simp; omega),
        List.getElem?_append_left (by simp; omega)]
      congr 1; simp; omega
    · rw [if_neg (by omega), List.getElem?_append_right (by simp; omega), List.getElem?_drop]
      congr 1; simp; omega

theorem writeInside_eq_some {α : Type} {buf : Option (List α)} {off : Nat} {seq ys : List α}
    (h : writeInside buf off seq = some ys) :
    ∃ xs, buf = some xs ∧ off + seq.length ≤ xs.length ∧ ys = overwrite xs off seq ∧ ys.length = xs.length := by
  unfold writeInside at h
  split at h
  · cases h
  · split at h
    · cases h; exact ⟨_, rfl, ‹_›, rfl, overwrite_length ‹_›⟩
    · cases h

theorem writeVariable_eq_some {α : Type} {cap : Option Nat} {buf : Option (List α)} {off : Nat} {seq ys : List α}
    (h : writeVariable cap buf off seq = some ys) :
    (off = 0 ∧ ys = seq ∧ ∀ m, cap = some m → seq.length ≤ m) ∨
      (0 < off ∧ ∃ xs, buf = some xs ∧ off + seq.length ≤ xs.length ∧ ys = overwrite xs off seq ∧ ys.length = xs.length) := by
  unfold writeVariable at h
  split at h
  · refine .inl ⟨‹_›, ?_⟩
    cases cap with
    | none => cases h; exact ⟨rfl, by simp⟩
    | some m =>
      simp only at h
      split at h
      · cases h; exact ⟨rfl, by rintro _ ⟨⟩; assumption⟩
      · cases h
  · exact .inr ⟨by omega, writeInside_eq_some h⟩

theorem writeFixed_eq_some {α : Type} {size : Nat} {buf : Option (List α)} {off : Nat} {seq ys : List α}
    (h : writeFixed size buf off seq = some ys) :
    (off = 0 ∧ seq.length = size ∧ ys = seq) ∨
      ∃ xs, buf = some xs ∧ off + seq.length ≤ xs.length ∧ ys = overwrite xs off seq ∧ ys.length = xs.length := by
  unfold writeFixed at h
  split at h
  · cases h; exact .inl ⟨by tauto, by tauto, rfl⟩
  · exact .inr (writeInside_eq_some h)

end Sys2Proof.Machine
end

