-- ==== Sys2Proof/Laws/Functions.lean ====
section
/-! SUPPORT. The sequences the commands compute: their lengths and their elements, one pair of lemmas per function. -/

namespace Sys2Proof.Machine

/-! Rows joined end to end (10_state.md R23). -/

theorem flatMap_length_of {α β : Type} {f : α → List β} {w : Nat} (xs : List α) (h : ∀ x ∈ xs, (f x).length = w) :
    (xs.flatMap f).length = xs.length * w := by
  induction xs with
  | nil => simp
  | cons x xs ih =>
    rw [List.flatMap_cons, List.length_append, h x (by simp), ih fun y hy => h y (by simp [hy]), List.length_cons]
    ring

/-- Element `i` of row `l` lies at `l·w + i`. -/
theorem flatMap_getElem? {α β : Type} {f : α → List β} {w : Nat} (xs : List α) (h : ∀ x ∈ xs, (f x).length = w) {l i : Nat}
    (hi : i < w) : (xs.flatMap f)[l * w + i]? = xs[l]?.bind fun x => (f x)[i]? := by
  induction xs generalizing l with
  | nil => simp
  | cons x xs ih =>
    have hx : (f x).length = w := h x (by simp)
    rw [List.flatMap_cons]
    cases l with
    | zero => rw [Nat.zero_mul, Nat.zero_add, List.getElem?_append_left (by omega)]; simp
    | succ l =>
      rw [List.getElem?_append_right (by rw [hx]; nlinarith)]
      have : (l + 1) * w + i - (f x).length = l * w + i := by rw [hx, Nat.add_mul]; omega
      rw [this, ih fun y hy => h y (by simp [hy])]
      simp

theorem rows_length {β : Type} {f : Nat → List β} {n w : Nat} (h : ∀ l < n, (f l).length = w) :
    ((List.range n).flatMap f).length = n * w := by
  simpa using flatMap_length_of (List.range n) (f := f) (w := w) (by simpa using h)

theorem rows_getElem? {β : Type} {f : Nat → List β} {n w l i : Nat} (h : ∀ l < n, (f l).length = w) (hl : l < n)
    (hi : i < w) : ((List.range n).flatMap f)[l * w + i]? = (f l)[i]? := by
  rw [flatMap_getElem? (List.range n) (by simpa using h) hi]
  simp [hl]

theorem sampleAt_rows {f : Nat → List Cplx} {n w l i : Nat} (h : ∀ l < n, (f l).length = w) (hl : l < n) (hi : i < w) :
    sampleAt ((List.range n).flatMap f) (l * w + i) = sampleAt (f l) i := by
  simp [sampleAt, rows_getElem? h hl hi]

theorem sampleAt_map_range {f : Nat → Cplx} {n i : Nat} (h : i < n) : sampleAt ((List.range n).map f) i = f i := by
  simp [sampleAt, h]

theorem bitAt_map_range {f : Nat → Bit} {n i : Nat} (h : i < n) : bitAt ((List.range n).map f) i = f i := by
  simp [bitAt, h]

/-! Transport Block Codec. -/

@[simp] theorem crcBits_length (r : CrcReg) : (crcBits r).length = 24 := by simp [crcBits]

theorem crcBits_bitAt (r : CrcReg) {i : Nat} (h : i < 24) : bitAt (crcBits r) i = r.getLsbD (23 - i) := bitAt_map_range h

@[simp] theorem repeatK_length (k : Nat) (x : List Bit) : (repeatK k x).length = k * x.length := by
  rw [repeatK, flatMap_length_of x (w := k) (by simp), Nat.mul_comm]

theorem repeatK_bitAt {k : Nat} {x : List Bit} {i j : Nat} (hj : j < k) :
    bitAt (repeatK k x) (i * k + j) = bitAt x i := by
  unfold repeatK bitAt
  rw [List.getD_eq_getElem?_getD, flatMap_getElem? x (w := k) (by simp) hj, List.getD_eq_getElem?_getD]
  cases x[i]? <;> simp [hj]

@[simp] theorem majorityK_length (k : Nat) (y : List Bit) : (majorityK k y).length = y.length / k := by simp [majorityK]

@[simp] theorem interleave_length (c : Cfg) (x : List Bit) : (interleave c x).length = c.ilvR * c.ilvC := by simp [interleave]

@[simp] theorem deinterleave_length (c : Cfg) (y : List Bit) : (deinterleave c y).length = c.ilvR * c.ilvC := by
  simp [deinterleave]

theorem interleave_bitAt (c : Cfg) (x : List Bit) {r k : Nat} (hr : r < c.ilvR) (hk : k < c.ilvC) :
    bitAt (interleave c x) (k * c.ilvR + r) = bitAt x (r * c.ilvC + k) := by
  unfold interleave
  rw [bitAt_map_range (by nlinarith)]
  have h1 : (k * c.ilvR + r) % c.ilvR = r := by rw [Nat.mul_add_mod_self_right, Nat.mod_eq_of_lt hr]
  have h2 : (k * c.ilvR + r) / c.ilvR = k := by
    rw [Nat.mul_comm, Nat.mul_add_div (by omega), Nat.div_eq_of_lt hr, Nat.add_zero]
  rw [h1, h2]

theorem deinterleave_bitAt (c : Cfg) (y : List Bit) {r k : Nat} (hr : r < c.ilvR) (hk : k < c.ilvC) :
    bitAt (deinterleave c y) (r * c.ilvC + k) = bitAt y (k * c.ilvR + r) := by
  unfold deinterleave
  rw [bitAt_map_range (by nlinarith)]
  have h1 : (r * c.ilvC + k) % c.ilvC = k := by rw [Nat.mul_add_mod_self_right, Nat.mod_eq_of_lt hk]
  have h2 : (r * c.ilvC + k) / c.ilvC = r := by
    rw [Nat.mul_comm, Nat.mul_add_div (by omega), Nat.div_eq_of_lt hk, Nat.add_zero]
  rw [h1, h2]

theorem payloadPart_append_crcPart (t : List Bit) : payloadPart t ++ crcPart t = t := List.take_append_drop _ _

@[simp] theorem payloadPart_length (t : List Bit) : (payloadPart t).length = t.length - 24 := by simp [payloadPart]

theorem crcPart_length {t : List Bit} (h : 24 ≤ t.length) : (crcPart t).length = 24 := by simp [crcPart]; omega

/-! Constellation Modulator. -/

@[simp] theorem modulateBits_length (k : Const) (bits : List Bit) : (modulateBits k bits).length = bits.length / k.b := by
  simp [modulateBits]

@[simp] theorem buildConst_b (c : Cfg) (b : Nat) : (buildConst c b).b = b := rfl
@[simp] theorem buildConst_tup (c : Cfg) (b : Nat) : (buildConst c b).tup = c.bitmap b := rfl
@[simp] theorem buildConst_pt_length (c : Cfg) (b : Nat) : (buildConst c b).pt.length = 2 ^ b := by simp [buildConst]

/-- The scan chooses an index of the list of points. -/
theorem nearest_lt {pt : List Cplx} (h : 0 < pt.length) (y : Cplx) : nearest pt y < pt.length := by
  have key : ∀ (is : List Nat) (best : Nat), best < pt.length → (∀ i ∈ is, i < pt.length) →
      is.foldl (nearer pt y) best < pt.length := by
    intro is
    induction is with
    | nil => intro best hb _; exact hb
    | cons i is ih =>
      intro best hb hi
      refine ih _ ?_ fun j hj => hi j (by simp [hj])
      unfold nearer
      split
      · exact hi i (by simp)
      · exact hb
  exact key _ 0 h (by simp; omega)

/-- What `b ∈ SUPPORTED_BPS` with its table says of the built record (10_state.md R27). -/
theorem buildConst_ok {c : Cfg} {b : Nat} (h : c.supports b = true) : (buildConst c b).Ok := by
  simp only [Cfg.supports, Cfg.tableOk, Bool.and_eq_true, decide_eq_true_eq, beq_iff_eq, List.all_eq_true] at h
  obtain ⟨⟨⟨h2, h6⟩, -⟩, ⟨hlen, hall⟩, hnd⟩ := h
  exact ⟨⟨h2, h6⟩, buildConst_pt_length c b, hlen, hall, hnd⟩

theorem supports_iff_of_wf {c : Cfg} (h : c.Wf) (b : Nat) : c.supports b = true ↔ b ∈ c.supportedBps := by
  simp only [Cfg.supports, Bool.and_eq_true, decide_eq_true_eq, List.contains_iff_mem]
  exact ⟨fun hb => hb.1.2, fun hb => ⟨⟨h.supported_range b hb, hb⟩, h.tables b hb⟩⟩

theorem demodulateSyms_length {k : Const} (h : k.Ok) (ys : List Cplx) : (demodulateSyms k ys).length = ys.length * k.b := by
  refine flatMap_length_of ys fun y _ => ?_
  have hlt : nearest k.pt y < k.tup.length := by
    rw [h.tup_size, ← h.pt_size]
    exact nearest_lt (by rw [h.pt_size]; positivity) y
  rw [List.getD_eq_getElem?_getD, List.getElem?_eq_getElem hlt, Option.getD_some]
  exact h.tup_bits _ (List.getElem_mem hlt)

/-! Resource Grid Mapper. -/

@[simp] theorem mapSyms_length (c : Cfg) (syms data : List Cplx) : (mapSyms c syms data).length = data.length := by
  unfold mapSyms
  generalize List.range syms.length = is
  induction is generalizing data with
  | nil => rfl
  | cons i is ih => rw [List.foldl_cons, ih, List.length_set]

@[simp] theorem extractSyms_length (c : Cfg) (n : Nat) (data : List Cplx) : (extractSyms c n data).length = n := by
  simp [extractSyms]

@[simp] theorem freqVector_length (c : Cfg) (g : Grid) (l : Nat) : (freqVector c g l).length = c.nFft := by simp [freqVector]

@[simp] theorem idft_length (xs : List Cplx) : (idft xs).length = xs.length := by simp [idft]

@[simp] theorem dft_length (xs : List Cplx) : (dft xs).length = xs.length := by simp [dft]

@[simp] theorem gridToTime_length (c : Cfg) (g : Grid) : (gridToTime c g).length = c.nSym * c.nFft :=
  rows_length fun l _ => by simp

@[simp] theorem timeToGrid_data_length (c : Cfg) (td : List Cplx) : (timeToGrid c td).data.length = c.nSym * c.nSc :=
  rows_length fun l _ => by simp

@[simp] theorem timeToGrid_pilot_length (c : Cfg) (td : List Cplx) : (timeToGrid c td).pilot.length = c.nSym * c.nPil :=
  rows_length fun l _ => by simp [Cfg.nPil]

/-! Frame Framer. -/

@[simp] theorem preamble_length (c : Cfg) : (preamble c).length = c.lPre := by simp [preamble, Cfg.lPre]

theorem addCp_length {c : Cfg} {x : List Cplx} (hx : x.length = c.nFft) : (addCp c x).length = min c.nCp c.nFft + c.nFft := by
  simp [addCp, hx]; omega

/-- The cyclic-prefixed symbols never exceed `L_PL` samples, whatever `N_CP`. -/
theorem addCps_length_le (c : Cfg) (td : List Cplx) : (addCps c td).length ≤ c.lPl := by
  unfold addCps
  rw [rows_length (w := min c.nCp c.nFft + c.nFft) fun l _ => addCp_length (by simp)]
  unfold Cfg.lPl Cfg.lSym
  exact Nat.mul_le_mul_left _ (by omega)

theorem addCps_length {c : Cfg} (h : c.nCp ≤ c.nFft) (td : List Cplx) : (addCps c td).length = c.lPl := by
  unfold addCps
  rw [rows_length (w := min c.nCp c.nFft + c.nFft) fun l _ => addCp_length (by simp)]
  unfold Cfg.lPl Cfg.lSym
  congr 1; omega

theorem row_fits {c : Cfg} {l : Nat} (hl : l < c.nSym) : l * c.lSym + c.lSym ≤ c.lPl := by
  have h : (l + 1) * c.lSym ≤ c.nSym * c.lSym := Nat.mul_le_mul_right _ hl
  unfold Cfg.lPl
  linarith [Nat.succ_mul l c.lSym]

theorem removeCps_length {c : Cfg} {cps : List Cplx} (h : cps.length = c.lPl) :
    (removeCps c cps).length = c.nSym * c.nFft :=
  rows_length fun l hl => by
    have := row_fits hl
    unfold remCp
    simp only [slice_length, h]
    unfold Cfg.lSym at *
    omega

/-! Frame-start search (44_frame_framer.md R203). -/

/-- The search over the first `w` offsets found nothing exactly when there is none; what it found is an offset below `w` with
its own score. -/
theorem search_cases (score : Nat → Num) (w : Nat) :
    (w = 0 ∧ search score w = ⟨none, Num.zero⟩) ∨ ∃ d < w, search score w = ⟨some d, score d⟩ := by
  induction w with
  | zero => exact .inl ⟨rfl, rfl⟩
  | succ w ih =>
    refine .inr ?_
    have hs : search score (w + 1) = searchStep score (search score w) w := by
      simp [search, List.range_succ, List.foldl_append]
    rw [hs]
    rcases ih with ⟨rfl, h⟩ | ⟨d, hd, h⟩
    · exact ⟨0, by omega, by simp [h, searchStep]⟩
    · rw [h]
      unfold searchStep
      split
      · exact ⟨w, by omega, rfl⟩
      · exact ⟨d, by omega, rfl⟩

/-- Everything `FRAME_DETECT` writes: `SCORE` is what the search found; `START` is the found offset plus `L_PRE` without
fallback, or `FALLBACK_START` with it. -/
theorem withDetection_cases (c : Cfg) (b : Block) (f : Found) :
    (∃ d, f.best = some d ∧ Num.lt Config.detThresh f.smax = true ∧
        b.withDetection c f = { b with start := d + c.lPre, score := f.smax, status := b.status.withDetFallback false }) ∨
      ((f.best = none ∨ Num.lt Config.detThresh f.smax = false) ∧
        b.withDetection c f = { b with start := c.fallbackStart, score := f.smax, status := b.status.withDetFallback true }) := by
  unfold Block.withDetection
  cases h : f.best with
  | none => exact .inr ⟨.inl rfl, rfl⟩
  | some d =>
    cases ht : Num.lt Config.detThresh f.smax with
    | true => exact .inl ⟨d, rfl, rfl, by simp⟩
    | false => exact .inr ⟨.inr rfl, by simp⟩

/-! Synchronization Trackers. -/

@[simp] theorem cfoRotate_data_length (c : Cfg) (θ : Num) (g : Grid) : (cfoRotate c θ g).data.length = g.data.length := by
  simp [cfoRotate]

@[simp] theorem cfoRotate_pilot_length (c : Cfg) (θ : Num) (g : Grid) : (cfoRotate c θ g).pilot.length = g.pilot.length := by
  simp [cfoRotate]

end Sys2Proof.Machine
end

