-- ==== Sys2Proof/Laws/PerInstr.lean ====
section
/-! SUPPORT. What is shown of every command, one lemma per constructor: its word carries its opcode in bits 31:24 and its
immediate in bits 23:0 (30_encoding.md R81, R82, R84). -/

namespace Sys2Proof.Laws.EncodeFields

/-- The two fields of the encoding of a well-formed command. -/
def Statement (i : Instr) : Prop := i.WellFormed → CmdWord.op (encode i) = i.opcode ∧ CmdWord.imm (encode i) = i.immediate

/-- The fields of a word put together from its two fields. -/
theorem fields_append (op : BitVec 8) (imm : BitVec 24) :
    CmdWord.op (op ++ imm) = op.toNat ∧ CmdWord.imm (op ++ imm) = imm.toNat := by
  have ho := op.isLt
  have hi := imm.isLt
  constructor
  · simp only [CmdWord.op, BitVec.extractLsb'_toNat, BitVec.toNat_append, Nat.shiftRight_eq_div_pow, Nat.shiftLeft_eq]
    rw [← Nat.shiftLeft_eq, ← Nat.shiftLeft_add_eq_or_of_lt hi, Nat.shiftLeft_eq]
    omega
  · simp only [CmdWord.imm, BitVec.extractLsb'_toNat, BitVec.toNat_append, Nat.shiftRight_eq_div_pow, Nat.shiftLeft_eq]
    rw [← Nat.shiftLeft_eq, ← Nat.shiftLeft_add_eq_or_of_lt hi, Nat.shiftLeft_eq]
    omega

/-- A command without an operand. -/
theorem of_plain {i : Instr} (hop : i.opcode < 2 ^ 8) (himm : i.immediate < 2 ^ 24) : Statement i := by
  intro _
  have h := fields_append (BitVec.ofNat 8 i.opcode) (BitVec.ofNat 24 i.immediate)
  rw [BitVec.toNat_ofNat, BitVec.toNat_ofNat, Nat.mod_eq_of_lt hop, Nat.mod_eq_of_lt himm] at h
  exact h

theorem nop : Statement .nop := of_plain (by decide) (by decide)
theorem txReset : Statement .txReset := of_plain (by decide) (by decide)
theorem runReset : Statement .runReset := of_plain (by decide) (by decide)
theorem crcGen : Statement .crcGen := of_plain (by decide) (by decide)
theorem crcVerify : Statement .crcVerify := of_plain (by decide) (by decide)
theorem tbAppend : Statement .tbAppend := of_plain (by decide) (by decide)
theorem tbSplit : Statement .tbSplit := of_plain (by decide) (by decide)
theorem repeatBits : Statement .repeatBits := of_plain (by decide) (by decide)
theorem majority : Statement .majority := of_plain (by decide) (by decide)
theorem interleave : Statement .interleave := of_plain (by decide) (by decide)
theorem deinterleave : Statement .deinterleave := of_plain (by decide) (by decide)
theorem tbBuild : Statement .tbBuild := of_plain (by decide) (by decide)
theorem tbProcess : Statement .tbProcess := of_plain (by decide) (by decide)
theorem constBuild (n : Nat) : Statement (.constBuild n) := fun h => of_plain (by simp [Instr.opcode]) h h
theorem modulate : Statement .modulate := of_plain (by decide) (by decide)
theorem demodulate : Statement .demodulate := of_plain (by decide) (by decide)
theorem gridInit : Statement .gridInit := of_plain (by decide) (by decide)
theorem gridMap : Statement .gridMap := of_plain (by decide) (by decide)
theorem gridExtract (n : Nat) : Statement (.gridExtract n) := fun h => of_plain (by simp [Instr.opcode]) h h
theorem grid2td : Statement .grid2td := of_plain (by decide) (by decide)
theorem td2grid : Statement .td2grid := of_plain (by decide) (by decide)
theorem preGen : Statement .preGen := of_plain (by decide) (by decide)
theorem cpAdd : Statement .cpAdd := of_plain (by decide) (by decide)
theorem cpRemove : Statement .cpRemove := of_plain (by decide) (by decide)
theorem frameBuild : Statement .frameBuild := of_plain (by decide) (by decide)
theorem frameDetect : Statement .frameDetect := of_plain (by decide) (by decide)
theorem frameExtract : Statement .frameExtract := of_plain (by decide) (by decide)
theorem cfoTrack : Statement .cfoTrack := of_plain (by decide) (by decide)
theorem cpeTrack : Statement .cpeTrack := of_plain (by decide) (by decide)
theorem scoTrack : Statement .scoTrack := of_plain (by decide) (by decide)

end Sys2Proof.Laws.EncodeFields
end

