-- ==== Sys2Proof/Laws/Scan.lean ====
section
/-! SUPPORT. The two ascending scans with a tie-break (47_arithmetic.md R327) over the order of the reals: what the nearest-point
search of the demapper and the frame-start search find. -/

namespace Sys2Proof.Machine

@[simp] theorem distSq_val (y p : Cplx) : (distSq y p).val = distR y.val p.val := by
  simp [distSq, distR, pow_two]

/-! The nearest point (42_constellation.md R155, R156). -/

/-- The scan over the points 1 to `n` finds, among the points 0 to `n`, the lowest index of the least distance. -/
theorem nearest_scan (pt : List Cplx) (y : Cplx) (n : Nat) :
    let m := (List.range' 1 n).foldl (nearer pt y) 0
    m ≤ n ∧ (∀ j ≤ n, distR y.val (cval pt m) ≤ distR y.val (cval pt j)) ∧
      ∀ j < m, distR y.val (cval pt m) < distR y.val (cval pt j) := by
  induction n with
  | zero => exact ⟨le_rfl, fun j hj => by simp [Nat.le_zero.mp hj], fun j hj => absurd hj (Nat.not_lt_zero j)⟩
  | succ n ih =>
    have hs : (List.range' 1 (n + 1)).foldl (nearer pt y) 0 =
        nearer pt y ((List.range' 1 n).foldl (nearer pt y) 0) (n + 1) := by
      rw [List.range'_concat, List.foldl_append]
      simp [Nat.add_comm]
    rw [hs]
    generalize (List.range' 1 n).foldl (nearer pt y) 0 = m at ih
    obtain ⟨hm, hle, hlt⟩ := ih
    have hc : Num.lt (distSq y (sampleAt pt (n + 1))) (distSq y (sampleAt pt m)) = true ↔
        distR y.val (cval pt (n + 1)) < distR y.val (cval pt m) := by rw [Num.lt_iff, distSq_val, distSq_val]; rfl
    unfold nearer
    split
    · rename_i h
      have h' := hc.mp h
      refine ⟨le_rfl, fun j hj => ?_, fun j hj => h'.trans_le (hle j (Nat.lt_succ_iff.mp hj))⟩
      rcases Nat.lt_or_eq_of_le hj with hj | rfl
      · exact h'.le.trans (hle j (Nat.lt_succ_iff.mp hj))
      · exact le_rfl
    · rename_i h
      have h' := not_lt.mp (mt hc.mpr h)
      refine ⟨hm.trans (Nat.le_succ n), fun j hj => ?_, hlt⟩
      rcases Nat.lt_or_eq_of_le hj with hj | rfl
      · exact hle j (Nat.lt_succ_iff.mp hj)
      · exact h'

/-- The chosen point is nearest, and every point before it is farther. -/
theorem nearest_spec {pt : List Cplx} (h : 0 < pt.length) (y : Cplx) :
    nearest pt y < pt.length ∧ (∀ j < pt.length, distR y.val (cval pt (nearest pt y)) ≤ distR y.val (cval pt j)) ∧
      ∀ j < nearest pt y, distR y.val (cval pt (nearest pt y)) < distR y.val (cval pt j) := by
  obtain ⟨-, h2, h3⟩ := nearest_scan pt y (pt.length - 1)
  exact ⟨nearest_lt h y, fun j hj => h2 j (by omega), h3⟩

/-- What a nearest point with every earlier one farther is: the chosen one. -/
theorem nearest_eq {pt : List Cplx} {y : Cplx} {i : Nat} (hi : i < pt.length)
    (hle : ∀ j < pt.length, distR y.val (cval pt i) ≤ distR y.val (cval pt j))
    (hlt : ∀ j < i, distR y.val (cval pt i) < distR y.val (cval pt j)) : nearest pt y = i := by
  obtain ⟨h1, h2, h3⟩ := nearest_spec (by omega : 0 < pt.length) y
  rcases Nat.lt_trichotomy (nearest pt y) i with h | h | h
  · exact absurd (hlt _ h) (not_lt.mpr (h2 i hi))
  · exact h
  · exact absurd (h3 _ h) (not_lt.mpr (hle _ h1))

/-! The frame-start search (44_frame_framer.md R201, R203). -/

/-- The search over at least one offset finds the lowest offset of the maximum score. -/
theorem search_spec (score : Nat → Num) {w : Nat} (h : 0 < w) :
    ∃ d < w, search score w = ⟨some d, score d⟩ ∧ (∀ d' < w, (score d').val ≤ (score d).val) ∧
      ∀ d' < d, (score d').val < (score d).val := by
  induction w with
  | zero => exact absurd h (Nat.lt_irrefl 0)
  | succ w ih =>
    have hs : search score (w + 1) = searchStep score (search score w) w := by
      simp [search, List.range_succ, List.foldl_append]
    rw [hs]
    rcases Nat.eq_zero_or_pos w with rfl | hw
    · exact ⟨0, by omega, by simp [search, searchStep], fun d' hd => by simp [Nat.lt_one_iff.mp hd],
        fun d' hd => absurd hd (Nat.not_lt_zero d')⟩
    · obtain ⟨d, hd, he, hmax, hlow⟩ := ih hw
      rw [he]
      unfold searchStep
      simp only [Option.isNone_some, Bool.false_or]
      split
      · rename_i hlt
        have hlt' := Num.lt_iff.mp hlt
        refine ⟨w, Nat.lt_succ_self w, rfl, fun d' hd' => ?_, fun d' hd' => (hmax d' hd').trans_lt hlt'⟩
        rcases Nat.lt_or_eq_of_le (Nat.lt_succ_iff.mp hd') with h' | rfl
        · exact (hmax d' h').trans hlt'.le
        · exact le_rfl
      · rename_i hlt
        have hlt' := not_lt.mp (mt Num.lt_iff.mpr hlt)
        refine ⟨d, Nat.lt_succ_of_lt hd, rfl, fun d' hd' => ?_, hlow⟩
        rcases Nat.lt_or_eq_of_le (Nat.lt_succ_iff.mp hd') with h' | rfl
        · exact hmax d' h'
        · exact hlt'

end Sys2Proof.Machine
end

