-- ==== Sys2Proof/Tests/Slice0.lean ====
section
/-! SUPPORT. Tests of the model against the vectors of 95_test_vectors.md, and for every obligation with hypotheses a state and
operands that meet them. Every expected value is written from the spec. -/

set_option Elab.async false

namespace Sys2Proof.Tests

open Sys2Proof.Machine

/-! The configuration of programs P1 and P3 (95_test_vectors.md), and states over it. -/

/-- P1, P3, G and T in one: K_REP = 3, 8 × 12 interleaver; N_SYM = 2, N_SC = 4, PILOT_IDX = [1], N_FFT = 4, N_CP = 1,
SYNC_BITS = [1,0,1,1]; identity tables, α = 0.5, EPS_CORR = 0. -/
def cfg : Cfg where
  nP := 8
  crcVariant := .xorThenShift
  kRep := 3
  ilvR := 8
  ilvC := 12
  bps := 2
  supportedBps := [2, 3, 4, 5, 6]
  bitmaps := [2, 3, 4, 5, 6].map fun b => (b, Config.identityTable b)
  nFft := 4
  nCp := 1
  nSym := 2
  nSc := 4
  pilotIdx := [1]
  pilotVal := ⟨.rat 1, .rat 0⟩
  scOffset := 0
  syncBits := [true, false, true, true]
  fallbackStart := 4
  alphaCfo := .rat (1 / 2)
  alphaCpe := .rat (1 / 2)
  alphaSco := .rat (1 / 2)
  scoMode := .uniform
  kCenter := .rat (3 / 2)
  epsCorr := .rat 0
  capBits := 96
  capSyms := 64
  capFrame := 64

/-- Configuration F: one OFDM symbol. -/
def cfgF : Cfg := { cfg with nSym := 1 }

/-- A state over a configuration and a block, with a host list. -/
def st (c : Cfg) (b : Block) (prog : List HostStep := []) : State := ⟨c, b, prog, 0, .nothing⟩

/-- The block a command leaves. -/
def after (i : Instr) (s : State) : Block :=
  match exec i s with
  | .next t => t.blk
  | .fault _ => s.blk
  | .refused _ => s.blk

/-- `STATUS` after a command, the word the host reads. -/
def statusAfter (i : Instr) (s : State) : BitVec 32 := (after i s).status.word

/-- `w` bits of a number, most significant first. -/
def msb (w n : Nat) : List Bit := (List.range w).map fun i => n.testBit (w - 1 - i)

/-- A complex number of rationals. -/
def z (re im : Rat := 0) : Cplx := ⟨.rat re, .rat im⟩

def j : Cplx := z 0 1

/-- `STATUS = 0x00000600`: `crc_fail` and `det_fallback`, no abort. -/
def flagged : Status := { Status.reset with crcFail := true, detFallback := true }

/-- `STATUS = 0x00000107`: `ERR_GRID_CAPACITY`, abort. -/
def aborted : Status := { Status.reset with code := .gridCapacity, abort := true }

/-- The 8-bit payload of P1. -/
def pay8 : List Bit := msb 8 0b10100101

/-- `crc_bits(0x784BA6)`. -/
def crc8 : List Bit := msb 24 0b011110000100101110100110

/-- P1's `ILV`. -/
def ilv96 : List Bit :=
  msb 96 0b100101101001011010010110011010010110100101101001101001111010011110100111011001000110010001100100

/-- P1's `COD`. -/
def cod96 : List Bit :=
  msb 96 0b111000111000000111000111000111111111111000000000000111000000111000111111111000111000000111111000

/-- The grid of V3.4. -/
def grid2 : Grid := ⟨[z 1, z, z (-1), z, j, z, z 1, z 0 (-1)], [z 1, z 1]⟩

/-- The time-domain symbols of V3.4. -/
def td2 : List Cplx := [z (1/2), z 1 (1/2), z (-1/2), z 1 (-1/2), z 1, z (-1) 1, j, z]

/-- P3's `CPS`. -/
def cps2 : List Cplx := [z 1 (-1/2), z (1/2), z 1 (1/2), z (-1/2), z 1 (-1/2), z, z 1, z (-1) 1, j, z]

/-- P3's `PRE`. -/
def pre4 : List Cplx := [z 1, z (-1), z 1, z 1]

/-- A block with every buffer valid and every size right, for `cfg`: every command completes from it. -/
def fullBlk : Block :=
  { Block.reset with
    pay := some pay8, crcb := some crc8, tot := some (pay8 ++ crc8), cod := some cod96, ilv := some ilv96
    syms := some [z 1, z (-1), z, j, z 1, z 0 (-1)], grid := some grid2, td := some td2, cps := some cps2, pre := some pre4
    frame := some (pre4 ++ cps2), const := some (buildConst cfg 2), scoPrev := some [z 1, z 1], start := 4 }

/-- Every buffer valid. -/
def full : State := st cfg fullBlk

/-- After hardware reset: no buffer valid. -/
def blank : State := st cfg Block.reset

/-- An aborted transmission with every buffer valid. -/
def stuck : State := st cfg { fullBlk with status := aborted }

/-! Well-formed commands (30_encoding.md R82). -/

theorem test_constBuild_imm_too_wide : ¬(Instr.constBuild 16777216).WellFormed := by decide
theorem test_gridExtract_imm_too_wide : ¬(Instr.gridExtract 16777216).WellFormed := by decide
theorem test_imm_max : (Instr.constBuild 16777215).WellFormed ∧ (Instr.gridExtract 16777215).WellFormed := by decide

/-! Decoding: the words of V0.1, V0.2 and V0.3, written out from 30_encoding.md R84. -/

theorem test_decode_nop : decode 0x00000000 = .ok .nop := by decide
theorem test_decode_txReset : decode 0x01000000 = .ok .txReset := by decide
theorem test_decode_runReset : decode 0x02000000 = .ok .runReset := by decide
theorem test_decode_crcGen : decode 0x10000000 = .ok .crcGen := by decide
theorem test_decode_crcVerify : decode 0x11000000 = .ok .crcVerify := by decide
theorem test_decode_tbAppend : decode 0x12000000 = .ok .tbAppend := by decide
theorem test_decode_tbSplit : decode 0x13000000 = .ok .tbSplit := by decide
theorem test_decode_repeatBits : decode 0x14000000 = .ok .repeatBits := by decide
theorem test_decode_majority : decode 0x15000000 = .ok .majority := by decide
theorem test_decode_interleave : decode 0x16000000 = .ok .interleave := by decide
theorem test_decode_deinterleave : decode 0x17000000 = .ok .deinterleave := by decide
theorem test_decode_tbBuild : decode 0x18000000 = .ok .tbBuild := by decide
theorem test_decode_tbProcess : decode 0x19000000 = .ok .tbProcess := by decide
theorem test_decode_constBuild_2 : decode 0x20000002 = .ok (.constBuild 2) := by decide
theorem test_decode_constBuild_max : decode 0x20FFFFFF = .ok (.constBuild 16777215) := by decide
theorem test_decode_modulate : decode 0x21000000 = .ok .modulate := by decide
theorem test_decode_demodulate : decode 0x22000000 = .ok .demodulate := by decide
theorem test_decode_gridInit : decode 0x30000000 = .ok .gridInit := by decide
theorem test_decode_gridMap : decode 0x31000000 = .ok .gridMap := by decide
theorem test_decode_gridExtract_36 : decode 0b00110010000000000000000000100100 = .ok (.gridExtract 36) := by decide
theorem test_decode_grid2td : decode 0x33000000 = .ok .grid2td := by decide
theorem test_decode_td2grid : decode 0x34000000 = .ok .td2grid := by decide
theorem test_decode_preGen : decode 0x40000000 = .ok .preGen := by decide
theorem test_decode_cpAdd : decode 0x41000000 = .ok .cpAdd := by decide
theorem test_decode_cpRemove : decode 0x42000000 = .ok .cpRemove := by decide
theorem test_decode_frameBuild : decode 0x43000000 = .ok .frameBuild := by decide
theorem test_decode_frameDetect : decode 0x44000000 = .ok .frameDetect := by decide
theorem test_decode_frameExtract : decode 0x45000000 = .ok .frameExtract := by decide
theorem test_decode_cfoTrack : decode 0x50000000 = .ok .cfoTrack := by decide
theorem test_decode_cpeTrack : decode 0x51000000 = .ok .cpeTrack := by decide
theorem test_decode_scoTrack : decode 0x52000000 = .ok .scoTrack := by decide
theorem test_decode_unassigned : decode 0x03000000 = .error (.unassignedOpcode 3) := by decide
theorem test_decode_unassigned_last : decode 0xFF000000 = .error (.unassignedOpcode 255) := by decide
theorem test_decode_nop_imm : decode 0x00000001 = .error (.nonzeroImmediate 0 1) := by decide
theorem test_decode_txReset_imm : decode 0x01000001 = .error (.nonzeroImmediate 1 1) := by decide
theorem test_table_word : decodeTableWord 32 0x32000024 = some (.gridExtract 36) := by decide
theorem test_table_word_illegal : decodeTableWord 32 0x1A000000 = none := by decide

/-! Control and errors (V0.3 to V0.8). -/

theorem test_nop_keeps_flags : statusAfter .nop (st cfg { Block.reset with status := flagged }) = 0x600 := by decide
theorem test_nop_refused : statusAfter .nop (st cfg { Block.reset with status := aborted }) = 0x102 := by decide
theorem test_txReset_keeps_tracker :
    after .txReset (st cfg { Block.reset with status := aborted, pay := some [], pre := some pre4, start := 3 }) =
      { Block.reset with pre := some pre4 } := by decide +kernel
theorem test_runReset : after .runReset stuck = Block.reset := by decide +kernel
theorem test_illegal_word : Block.reset.illegal.status.word = 0x101 := by decide
theorem test_illegal_while_aborted : ({ Block.reset with status := aborted } : Block).illegal.status.word = 0x102 := by decide

/-! Transport Block Codec (V1.1 to V1.10, P1, P2, P5). -/

theorem test_crcStep : crcStep .xorThenShift 0xFFFFFF true = 0xFFFFFE ∧ crcStep .xorThenShift 0xFFFFFF false = 0xF36608 ∧
    crcStep .shiftThenXor 0xFFFFFF false = 0x79B305 := by decide
theorem test_crcGen : (after .crcGen (st cfg { Block.reset with pay := some pay8 })).crcb = some crc8 := by decide +kernel
theorem test_crcGen_shiftThenXor :
    (after .crcGen (st { cfg with crcVariant := .shiftThenXor } { Block.reset with pay := some pay8 })).crcb =
      some (msb 24 0x08466F) := by decide +kernel
theorem test_crcVerify : (after .crcVerify full).tbvalid = true := by decide +kernel
theorem test_crcVerify_flipped :
    statusAfter .crcVerify (st cfg { fullBlk with tot := some (msb 8 0b00100101 ++ crc8) }) = 0x200 := by decide +kernel
theorem test_tbAppend :
    (after .tbAppend (st cfg { Block.reset with pay := some [true, false], crcb := some [true, true, true] })).tot =
      some [true, false, true, true, true] := by decide +kernel
theorem test_tbSplit_24 : (after .tbSplit (st cfg { Block.reset with tot := some crc8 })).pay = some [] := by decide +kernel
theorem test_tbSplit_23 : statusAfter .tbSplit (st cfg { Block.reset with tot := some (msb 23 0) }) = 0x109 := by decide +kernel
theorem test_repeat : (after .repeatBits (st cfg { Block.reset with tot := some [true, false] })).cod =
    some [true, true, true, false, false, false] := by decide +kernel
theorem test_repeat_capacity : statusAfter .repeatBits (st cfg { Block.reset with tot := some (msb 33 0) }) = 0x10A := by
  decide +kernel
theorem test_majority : (after .majority (st cfg { Block.reset with cod := some (msb 9 0b101001111) })).tot =
    some [true, false, true] := by decide +kernel
theorem test_majority_tie :
    (after .majority (st { cfg with kRep := 2 } { Block.reset with cod := some (msb 8 0b10110001) })).tot =
      some (msb 4 0b0100) := by decide +kernel
theorem test_interleave :
    (after .interleave (st { cfg with ilvR := 3, ilvC := 4 } { Block.reset with cod := some (msb 12 0b000001000000) })).ilv =
      some (msb 12 0b000010000000) := by decide +kernel
theorem test_deinterleave :
    (after .deinterleave (st { cfg with ilvR := 2, ilvC := 3 } { Block.reset with ilv := some (msb 6 0b001000) })).cod =
      some (msb 6 0b010000) := by decide +kernel
theorem test_tbBuild :
    after .tbBuild (st cfg { Block.reset with pay := some pay8 }) =
      { Block.reset with
        pay := some pay8, crcb := some crc8, tot := some (pay8 ++ crc8), cod := some cod96, ilv := some ilv96 } := by
  decide +kernel
theorem test_tbBuild_size :
    after .tbBuild (st cfg { Block.reset with pay := some (msb 7 0b1010010) }) =
      { Block.reset with
        pay := some (msb 7 0b1010010), status := { Status.reset with code := .ilvSize, abort := true } } := by
  decide +kernel
theorem test_tbProcess_burst :
    let b := after .tbProcess (st cfg { Block.reset with
      ilv := some (msb 96 0b100101101001011001101001011010010110100101101001101001111010011110100111011001000110010001100100) })
    b.pay = some pay8 ∧ b.tbvalid = true ∧ b.status.word = 0 := by decide +kernel
theorem test_tbProcess_uncorrectable :
    let b := after .tbProcess (st cfg { Block.reset with
      ilv := some (msb 96 0b000101100001011010010110011010010110100101101001101001111010011110100111011001000110010001100100) })
    b.pay = some (msb 8 0b00100101) ∧ b.tbvalid = false ∧ b.status.word = 0x200 := by decide +kernel

/-! Constellation Modulator (V2.2 to V2.4). -/

/-- `x` lies within 10⁻⁹ of the decimal `n·10⁻⁹`. -/
def near (x : Num) (n : Int) : Bool :=
  Num.lt (.rat ((n - 1) / 1000000000)) x && Num.lt x (.rat ((n + 1) / 1000000000))

theorem test_constBuild_points :
    (match (after (.constBuild 2) blank).const with
      | some k =>
        near (sampleAt k.pt 0).re (-466353026) && near (sampleAt k.pt 0).im 427217573 &&
          near (sampleAt k.pt 3).re (-1245574983) && near (sampleAt k.pt 3).im (-220324676) &&
          k.tup == [[false, false], [false, true], [true, false], [true, true]]
      | none => false) = true := by decide +kernel
theorem test_constBuild_range : statusAfter (.constBuild 7) blank = 0x105 ∧ statusAfter (.constBuild 1) blank = 0x105 := by
  decide +kernel
theorem test_modulate :
    (after .modulate (st cfg { fullBlk with ilv := some (msb 6 0b110001) })).syms =
      some [spiralPoint 4 3, spiralPoint 4 0, spiralPoint 4 1] := by decide +kernel
theorem test_modulate_length : statusAfter .modulate (st cfg { fullBlk with ilv := some (msb 3 0b101) }) = 0x106 := by
  decide +kernel
theorem test_demodulate :
    (after .demodulate (st cfg { fullBlk with syms := some [z (6/10) (9/10), z, z 100 (-100)] })).ilv =
      some (msb 6 0b100001) := by decide +kernel
theorem test_demodulate_point :
    (after .demodulate (st cfg { fullBlk with syms := some [spiralPoint 4 3, spiralPoint 4 1] })).ilv =
      some (msb 4 0b1101) := by decide +kernel

/-- V2.5: a tie between points 0 and 1, nearer than 2 and 3, is decided for the lower index. -/
theorem test_demodulate_tie :
    let pt := (buildConst cfg 2).pt
    nearest pt (Cplx.scale (.rat (1 / 2)) ((sampleAt pt 0).plus (sampleAt pt 1))) = 0 := by
  have h1 : ∀ a b : Cplx, Num.lt (distSq (Cplx.scale (.rat (1 / 2)) (a.plus b)) b)
      (distSq (Cplx.scale (.rat (1 / 2)) (a.plus b)) a) = false := by
    intro a b
    rw [Num.lt_eq_false_iff, distSq_val, distSq_val]
    simp [distR]
    nlinarith
  have h2 : nearer (buildConst cfg 2).pt
      (Cplx.scale (.rat (1 / 2)) ((sampleAt (buildConst cfg 2).pt 0).plus (sampleAt (buildConst cfg 2).pt 1))) 0 1 = 0 := by
    unfold nearer
    rw [h1]
    rfl
  have h3 : nearer (buildConst cfg 2).pt
      (Cplx.scale (.rat (1 / 2)) ((sampleAt (buildConst cfg 2).pt 0).plus (sampleAt (buildConst cfg 2).pt 1))) 0 2 = 0 := by
    decide +kernel
  have h4 : nearer (buildConst cfg 2).pt
      (Cplx.scale (.rat (1 / 2)) ((sampleAt (buildConst cfg 2).pt 0).plus (sampleAt (buildConst cfg 2).pt 1))) 0 3 = 0 := by
    decide +kernel
  show [1, 2, 3].foldl _ 0 = 0
  simp only [List.foldl_cons, List.foldl_nil, h2, h3, h4]

/-! Resource Grid Mapper (V3.1 to V3.6). -/

theorem test_gridInit : (after .gridInit blank).grid = some ⟨List.replicate 8 z, [z 1, z 1]⟩ := by decide +kernel
theorem test_gridMap :
    (after .gridMap (st cfg { fullBlk with grid := some ⟨List.replicate 8 z, [z 1, z 1]⟩ })).grid = some grid2 := by
  decide +kernel
theorem test_gridMap_capacity : statusAfter .gridMap (st cfg { fullBlk with syms := some (List.replicate 7 z) }) = 0x107 := by
  decide +kernel
theorem test_gridExtract : (after (.gridExtract 4) full).syms = some [z 1, z (-1), z, j] := by decide +kernel
theorem test_gridExtract_keeps_flags :
    statusAfter (.gridExtract 7) (st cfg { fullBlk with status := flagged }) = 0x707 := by decide +kernel
theorem test_grid2td : (after .grid2td full).td = some td2 := by decide +kernel
theorem test_grid2td_offset :
    ((after .grid2td (st { cfg with nSym := 1, nFft := 8, scOffset := 2 }
      { fullBlk with grid := some ⟨[z 1, z 5, z 1, z 1], [z 1]⟩ })).td.map fun x => sampleAt x 0) =
      some ⟨.root 2, .rat 0⟩ := by decide +kernel
theorem test_td2grid : (after .td2grid full).grid = some grid2 := by decide +kernel

/-! Frame Framer (V4.1 to V4.6). -/

theorem test_preGen : (after .preGen blank).pre = some pre4 := by decide +kernel
theorem test_cpAdd : (after .cpAdd full).cps = some cps2 := by decide +kernel
theorem test_cpRemove :
    (after .cpRemove (st cfgF { Block.reset with cps := some [z 9, z (1/2), z 1 (1/2), z (-1/2), z 1 (-1/2)] })).td =
      some [z (1/2), z 1 (1/2), z (-1/2), z 1 (-1/2)] := by decide +kernel
theorem test_cpRemove_size : statusAfter .cpRemove (st cfgF { Block.reset with cps := some [z, z, z, z] }) = 0x109 := by
  decide +kernel
theorem test_frameBuild : (after .frameBuild full).frame = some (pre4 ++ cps2) := by decide +kernel
theorem test_frameDetect_delayed :
    let b := after .frameDetect (st cfgF { fullBlk with frame := some ([z, z, z] ++ pre4 ++ [z, z]) })
    b.start = 7 ∧ b.score = .rat 1 ∧ b.status.word = 0 := by decide +kernel
theorem test_frameDetect_fallback :
    let b := after .frameDetect (st cfgF { fullBlk with frame := some (List.replicate 9 (z 1)) })
    b.start = 4 ∧ b.score = .rat (1 / 2) ∧ b.status.word = 0x400 := by decide +kernel
theorem test_frameExtract :
    (after .frameExtract (st cfgF { fullBlk with frame := some (pre4 ++ cps2.take 5) })).cps = some (cps2.take 5) := by
  decide +kernel
theorem test_frameExtract_short :
    statusAfter .frameExtract (st cfgF { fullBlk with frame := some (pre4 ++ cps2.take 5), start := 5 }) = 0x108 := by
  decide +kernel

/-! A configuration that is not consistent (00_scope.md R11, 70_reset_and_hazards.md R292; log entry 4). -/

theorem test_inconsistent_bins : statusAfter .grid2td (st { cfg with scOffset := 1 } fullBlk) = 0x109 := by decide +kernel
theorem test_inconsistent_pilots :
    statusAfter .gridMap (st { cfg with pilotIdx := [4] } fullBlk) = 0x109 ∧
      statusAfter .cfoTrack (st { cfg with pilotIdx := [1, 1] } fullBlk) = 0x109 := by decide +kernel
theorem test_inconsistent_prefix : statusAfter .cpAdd (st { cfg with nCp := 5 } fullBlk) = 0x109 := by decide +kernel

/-! Synchronization Trackers (V5.1 to V5.7, V5.11). -/

theorem test_cfoTrack :
    let b := after .cfoTrack (st cfg { fullBlk with grid := some ⟨[z 1, z, j, z (-1), z 2, z, z, z], [j, j]⟩ })
    b.cfo = ⟨.piMul (1 / 2), .piMul (1 / 2), 2, true⟩ ∧
      b.grid = some ⟨[z 0 (-1), z, z 1, j, z 0 (-2), z, z, z], [z 1, z 1]⟩ ∧ b.status.word = 0 := by decide +kernel
theorem test_cfoTrack_gated :
    let s := st { cfg with nSc := 5, pilotIdx := [1, 3] }
      { fullBlk with grid := some ⟨List.replicate 10 (z 1), [j, z (1/10), z (1/20), z]⟩ }
    after .cfoTrack s = { s.blk with cfo := ⟨.rat 0, .rat 0, 1, false⟩, status := { Status.reset with cfoSkip := true } } := by
  decide +kernel
theorem test_cfoTrack_near_zero :
    statusAfter .cfoTrack (st { cfg with epsCorr := .rat (1 / 100) } fullBlk) = 0x800 := by decide +kernel
/-- Pilots 3 + 4j: after `CFO_TRACK` they have the magnitude 5 and the phase 0, so `CPE_TRACK` finds both valid. -/
theorem test_cpeTrack_after_cfoTrack :
    let b := after .cfoTrack (st { cfg with epsCorr := .rat (1 / 100) }
      { fullBlk with grid := some ⟨[z 1, z, j, z (-1), z 2, z, z, z], [z 3 4, z 3 4]⟩ })
    b.status.word = 0 ∧ near (b.cfo.filt) 927295218 = true ∧
      (after .cpeTrack (st cfg b)).cpe.nvalid = 2 ∧ (after .cpeTrack (st cfg b)).status.word = 0 := by decide +kernel
theorem test_cpeTrack :
    let b := after .cpeTrack (st cfg { fullBlk with grid := some { grid2 with pilot := [j, z 1] } })
    b.cpe = ⟨.piMul (1 / 4), .piMul (1 / 4), 2, true⟩ ∧
      (b.grid.map fun g => (sampleAt g.data 0, g.pilot)) = some (⟨.root (1 / 2), .root (-1 / 2)⟩, [j, z 1]) := by
  decide +kernel
theorem test_cpeTrack_cancelled :
    let b := after .cpeTrack (st cfg { fullBlk with grid := some { grid2 with pilot := [j, z 0 (-1)] } })
    b.cpe.filt = .rat 0 ∧ (b.grid.map Grid.data) = some grid2.data ∧ b.status.word = 0 := by decide +kernel
theorem test_scoTrack_first :
    let b := after .scoTrack (st cfg { fullBlk with scoPrev := none })
    b.scoPrev = some [z 1, z 1] ∧ b.sco = ScoTracker.reset ∧ b.status.word = 0x2000 := by decide +kernel
theorem test_scoTrack_third :
    let b := after .scoTrack (st cfg { fullBlk with
      grid := some { grid2 with pilot := [j, j] }, scoPrev := some [j, j]
      sco := ⟨⟨.piMul (1 / 2), .piMul (1 / 2), 2, true⟩, .piMul (1 / 2), 1⟩ })
    b.sco = ⟨⟨.rat 0, .piMul (1 / 4), 2, true⟩, .piMul (3 / 4), 2⟩ ∧
      (b.grid.map fun g => sampleAt g.data 0) = some ⟨.root (-1 / 2), .root (-1 / 2)⟩ := by decide +kernel

/-! The host port, the registers and the step (20_memory.md R62, R63; P5; V4.5). -/

theorem test_hrd_invalid_refused : (Block.reset.hrd 4 0 0) = none := by decide +kernel
theorem test_hwr_pre_refused : Block.reset.hwr cfg 10 0 (.samples pre4) = none := by decide +kernel
theorem test_hwr_wrong_type : Block.reset.hwr cfg 5 0 (.bits []) = none := by decide +kernel
theorem test_csrw_start : (Block.reset.csrw 2 3).start = 3 ∧ Block.reset.csrw 3 7 = Block.reset := by decide +kernel
theorem test_csrr_constB : fullBlk.csrr 5 = .nat 2 ∧ Block.reset.csrr 5 = .nat 0 := by decide +kernel

/-- The state a step leaves, compared at its `STATUS` word, `pc` and result. -/
def stepView (s : State) : Option (BitVec 32 × Nat × HostResult) :=
  match step s with
  | .next t => some (t.blk.status.word, t.pc, t.result)
  | .fault _ => none
  | .refused _ => none

theorem test_step_illegal : stepView (st cfg Block.reset [.cmd 0x03000000]) = some (0x101, 1, .done) := by decide +kernel
theorem test_step_refused_hrd : stepView (st cfg Block.reset [.hrd 4 0 96]) = some (0, 1, .refusedAccess) := by decide +kernel
theorem test_step_csrw_cmd : stepView (st cfg Block.reset [.csrw 0 0x40000000]) = some (0, 1, .done) := by decide +kernel
theorem test_step_placed : stepView ((st cfg Block.reset).withFetchWord 32 0x32000007) = some (0x103, 1, .done) := by
  decide +kernel

/-! Witnesses: for every obligation with hypotheses, a state and operands that meet them, each clause at a boundary. -/

/-- `blank` with other buffers. -/
def run (b : Block) : State := st cfg b

theorem cfg_wf : cfg.Wf where
  kRep_pos := by decide
  ilvR_pos := by decide
  ilvC_pos := by decide
  bps_range := by decide
  supported_range := by decide
  tables := by decide +kernel
  nFft_pos := by decide
  nCp_le := by decide
  nSym_pos := by decide
  nSc_pos := by decide
  sc_fits := by decide
  pilots_ascending := by decide
  pilots_below := by decide
  pilotVal_ne := by
    intro h
    have := congrArg Complex.re h
    norm_num [cfg, Cplx.val, Num.val] at this
  lPre_pos := by decide
  alphaCfo_range := by norm_num [cfg, Num.val]
  alphaCpe_range := by norm_num [cfg, Num.val]
  alphaSco_range := by norm_num [cfg, Num.val]
  epsCorr_nonneg := by norm_num [cfg, Num.val]

theorem const2_ok : (buildConst cfg 2).Ok := buildConst_ok (by decide +kernel)

/-- The invariant holds of the state in which every buffer is valid. -/
theorem full_ok : fullBlk.Ok cfg where
  pay_cap := by rintro _ ⟨⟩; decide
  tot_cap := by rintro _ ⟨⟩; decide
  cod_cap := by rintro _ ⟨⟩; decide
  ilv_cap := by rintro _ ⟨⟩; decide
  syms_cap := by rintro _ ⟨⟩; decide
  grid_data_size := by rintro _ ⟨⟩; decide
  grid_pilot_size := by rintro _ ⟨⟩; decide
  td_size := by rintro _ ⟨⟩; decide
  cps_cap := by rintro _ ⟨⟩; decide
  pre_size := by rintro _ ⟨⟩; decide
  frame_cap := by rintro _ ⟨⟩; decide
  const_ok := by rintro _ ⟨⟩; exact const2_ok
  scoPrev_size := by rintro _ ⟨⟩; decide
  start_fits := by decide
  abort_iff := by decide
  valid_no_fail := by decide
  sco_init_iff := by decide
  sco_init_prev := by decide

/-- The 30 commands, the two operands at the values that `full` admits. -/
def commands : List Instr :=
  [.nop, .txReset, .runReset, .crcGen, .crcVerify, .tbAppend, .tbSplit, .repeatBits, .majority, .interleave, .deinterleave,
    .tbBuild, .tbProcess, .constBuild 6, .modulate, .demodulate, .gridInit, .gridMap, .gridExtract 6, .grid2td, .td2grid,
    .preGen, .cpAdd, .cpRemove, .frameBuild, .frameDetect, .frameExtract, .cfoTrack, .cpeTrack, .scoTrack]

theorem witness_DecodeOfEncode : (Instr.gridExtract 16777215).WellFormed ∧ Instr.nop.WellFormed := by decide
theorem witness_EncodeOfDecode : decode 0x32FFFFFF = .ok (.gridExtract 16777215) ∧ decode 0x52000000 = .ok .scoTrack := by decide
theorem witness_IllegalWords :
    blank.Running ∧ (∃ r, decode 0x03000000 = .error r) ∧ (∃ r, decode 0x52000001 = .error r) ∧ (1 : Nat) < 2 ∧ (6 : Nat) < 7 ∧
      full.Running ∧ full.blk.grid.isSome = true ∧ full.cfg.cap < 7 :=
  ⟨by decide, ⟨_, rfl⟩, ⟨_, rfl⟩, by decide, by decide, by decide, by decide, by decide⟩
theorem witness_StepRunsDecodedCommand :
    (st cfg fullBlk [.cmd 0x32000006]).fetch = some (.cmd 0x32000006) ∧ commandWord (.cmd 0x32000006) = some 0x32000006 ∧
      (st cfg fullBlk [.csrw 0 0x10000000]).fetch = some (.csrw 0 0x10000000) ∧
      commandWord (.csrw 0 0x10000000) = some 0x10000000 := by decide +kernel
theorem witness_StepFollowsTheHostList :
    blank.prog.length ≤ blank.pc ∧ (st cfg fullBlk [.csrr 0]).pc < (st cfg fullBlk [.csrr 0]).prog.length := by decide
theorem witness_DecodeOrder :
    stuck.blk.status.abort = true ∧ (0x01000001 : CmdWord) ≠ 0x01000000 ∧ (0x03000000 : CmdWord) ≠ 0x02000000 ∧ full.Running ∧
      (∃ r, decode 0x01000001 = .error r) ∧ decode 0x52000000 = .ok .scoTrack := by
  exact ⟨by decide, by decide, by decide, by decide, ⟨_, rfl⟩, by decide⟩
theorem witness_AbortedCommandsAreRefused :
    stuck.blk.status.abort = true ∧ (0x00000000 : CmdWord) ≠ 0x01000000 ∧ (0x00000000 : CmdWord) ≠ 0x02000000 := by decide
/-- Every command completes from `full`, and one error of each kind is raised. -/
theorem witness_ErrorTable :
    full.Running ∧ (commands.all fun i => errorOf full.cfg full.blk i == none) = true ∧
      errorOf cfg Block.reset .scoTrack = some .empty ∧ errorOf cfg fullBlk (.constBuild 7) = some .bpsRange ∧
      errorOf cfg fullBlk (.gridExtract 7) = some .gridCapacity ∧ stuck.blk.status.abort = true := by decide +kernel
theorem witness_RaiseChangesOnlyStatus :
    ∃ t, blank.issue 0x03000000 = .next t ∧ t.blk.status.code ≠ .ok := ⟨_, rfl, by decide⟩
theorem witness_NopKeepsEverything : blank.Running ∧ stuck.blk.status.abort = true := by decide
/-- The invariant holds of a state at each end of its host list, and a step from it answers a next state. -/
theorem witness_StepKeepsInv :
    (st cfg fullBlk [.cmd 0x43000000]).Inv ∧ (∃ t, step (st cfg fullBlk [.cmd 0x43000000]) = .next t) ∧ full.Inv :=
  ⟨⟨full_ok, by decide⟩, ⟨_, rfl⟩, ⟨full_ok, by decide⟩⟩
theorem witness_StepKeepsScoreBounded :
    (st cfg fullBlk [.cmd 0x44000000]).blk.ScoreBounded ∧ ({ fullBlk with score := .rat 1 } : Block).ScoreBounded ∧
      ∃ t, step (st cfg fullBlk [.cmd 0x44000000]) = .next t := by
  refine ⟨?_, ?_, ⟨_, rfl⟩⟩ <;> norm_num [Block.ScoreBounded, st, fullBlk, Block.reset, Num.val, Num.zero]
theorem witness_CommandsWriteOnlyTheirColumn : ∀ i ∈ commands, ∃ t, exec i full = .next t := by
  intro i _
  obtain ⟨b, hb⟩ := exec_replaces_blk i full
  exact ⟨_, hb⟩
theorem witness_HostStepsWriteOnlyTheirTarget :
    (st cfg fullBlk [.hwr 11 0 (.samples pre4)]).fetch = some (.hwr 11 0 (.samples pre4)) ∧
      commandWord (.hwr 11 0 (.samples pre4)) = none ∧ commandWord (.csrw 2 5) = none ∧
      (∃ t, step (st cfg fullBlk [.hwr 11 0 (.samples pre4)]) = .next t) ∧
      (∃ t, step (st cfg fullBlk [.csrw 2 5]) = .next t) := ⟨rfl, rfl, rfl, ⟨_, rfl⟩, ⟨_, rfl⟩⟩
theorem witness_AbortClearedOnlyByResets :
    ∃ t, step (st cfg { fullBlk with status := aborted } [.cmd 0x01000000]) = .next t ∧
      (st cfg { fullBlk with status := aborted } [.cmd 0x01000000]).blk.status.abort = true ∧ t.blk.status.abort = false :=
  ⟨_, rfl, rfl, rfl⟩
theorem witness_RunStateChangesOnlyByItsCommands :
    (after .cfoTrack full).cfo ≠ full.blk.cfo ∧ (after .cpeTrack full).cpe ≠ full.blk.cpe ∧
      (after .scoTrack full).sco ≠ full.blk.sco ∧ (after .scoTrack (run { fullBlk with scoPrev := none })).scoPrev ≠ none ∧
      (after .preGen blank).pre ≠ blank.blk.pre ∧ (after (.constBuild 6) full).const ≠ full.blk.const ∧
      (st cfg fullBlk [.cmd 0x50000000]).fetch = some (.cmd 0x50000000) ∧
      (∃ t, step (st cfg fullBlk [.cmd 0x50000000]) = .next t) := by
  refine ⟨by decide +kernel, by decide +kernel, by decide +kernel, by decide +kernel, by decide +kernel, by decide +kernel,
    rfl, ⟨_, rfl⟩⟩
theorem witness_TbvalidIsTheCrcResult :
    (∃ t, step (st cfg fullBlk [.cmd 0x11000000]) = .next t ∧ t.blk.tbvalid ≠ fullBlk.tbvalid) ∧
      (∃ t, step (st cfg { fullBlk with tbvalid := true } [.cmd 0x01000000]) = .next t ∧ t.blk.tbvalid ≠ true) :=
  ⟨⟨_, rfl, by decide +kernel⟩, ⟨_, rfl, by decide +kernel⟩⟩
/-- Allowed writes: a whole buffer at its capacity, the last element of a buffer, the whole of `TD`, the last pilot; writes that
are not allowed: one element too many, a partial write of an invalid buffer, a read-only buffer, the wrong type. -/
theorem witness_HostWrites :
    full.blk.Ok full.cfg ∧ (st cfg fullBlk [.hwr 0 7 (.bits [true])]).fetch = some (.hwr 0 7 (.bits [true])) ∧
      hostWriteAllowed cfg fullBlk 0 7 (.bits [true]) ∧ hostWriteAllowed cfg Block.reset 4 0 (.bits ilv96) ∧
      hostWriteAllowed cfg Block.reset 8 0 (.samples td2) ∧ hostWriteAllowed cfg fullBlk 7 1 (.samples [j]) ∧
      ¬hostWriteAllowed cfg fullBlk 4 0 (.bits (true :: ilv96)) ∧ ¬hostWriteAllowed cfg Block.reset 0 1 (.bits [true]) ∧
      ¬hostWriteAllowed cfg fullBlk 10 0 (.samples pre4) ∧ ¬hostWriteAllowed cfg fullBlk 0 0 (.samples [j]) := by
  refine ⟨full_ok, rfl, .inr ⟨by decide, pay8, rfl, by decide⟩, .inl ⟨rfl, by rintro _ ⟨⟩; decide⟩, .inl ⟨rfl, rfl⟩,
    ⟨_, rfl, by decide⟩, ?_, ?_, fun h => h, fun h => h⟩
  · rintro (⟨-, h⟩ | ⟨h, -⟩)
    · have := h 96 rfl; revert this; decide
    · exact absurd h (by decide)
  · rintro (⟨h, -⟩ | ⟨-, xs, h, -⟩)
    · exact absurd h (by decide)
    · cases h
theorem witness_HostReads :
    (st cfg fullBlk [.hrd 0 7 1]).fetch = some (.hrd 0 7 1) ∧
      (∃ d, fullBlk.content 0 = some d ∧ 7 + 1 ≤ d.len) ∧ Block.reset.content 4 = none ∧
      (∃ d, fullBlk.content 0 = some d ∧ d.len < 7 + 2) ∧ (15 : Nat) ≤ 15 ∧ Block.reset.const = none ∧
      fullBlk.const = some (buildConst cfg 2) ∧ (buildConst cfg 2).Ok :=
  ⟨rfl, ⟨_, rfl, by decide⟩, rfl, ⟨_, rfl, by decide⟩, by decide, rfl, rfl, const2_ok⟩
theorem witness_HostRegisters :
    (st cfg fullBlk [.csrr 22]).fetch = some (.csrr 22) ∧ (st cfg fullBlk [.csrw 0 0]).fetch = some (.csrw 0 0) ∧
      (st cfg fullBlk [.csrw 2 5]).fetch = some (.csrw 2 5) ∧ (st cfg fullBlk [.csrw 3 5]).fetch = some (.csrw 3 5) := by
  decide +kernel
theorem witness_CrcGen : blank.Running ∧ blank.blk.pay = none ∧ full.Running ∧ full.blk.pay = some pay8 := by decide
theorem witness_CrcVerify : blank.Running ∧ blank.blk.tot = none ∧ full.Running ∧ full.blk.tot = some (pay8 ++ crc8) := by decide
theorem witness_CrcDetectsSingleErrors :
    (run { Block.reset with pay := some (msb 72 5) }).Running ∧ (msb 72 5).length + 24 ≤ cfg.capBits := by decide
theorem witness_TbAppendAndTbSplit :
    blank.Running ∧ blank.blk.pay = none ∧ blank.blk.tot = none ∧ full.Running ∧ full.blk.crcb = some crc8 ∧
      (msb 72 0).length + crc8.length ≤ cfg.capBits ∧ cfg.capBits < (msb 73 0).length + crc8.length ∧
      (msb 23 0).length < 24 ∧ 24 ≤ (msb 24 0).length := by decide
theorem witness_Repeat :
    blank.Running ∧ blank.blk.tot = none ∧ (run { Block.reset with tot := some (msb 32 0) }).Running ∧
      cfg.kRep * (msb 32 0).length ≤ cfg.capBits ∧ cfg.capBits < cfg.kRep * (msb 33 0).length := by decide
theorem witness_Majority :
    blank.Running ∧ blank.blk.cod = none ∧ full.Running ∧ full.blk.cod = some cod96 ∧ cod96.length % cfg.kRep = 0 ∧
      (msb 4 0).length % cfg.kRep ≠ 0 := by decide
/-- One wrong copy of three in each of two bits. -/
theorem witness_MajorityCorrectsMinorities :
    let x := [true, false]
    let y := msb 6 0b101001
    (run { Block.reset with cod := some y }).Running ∧ 1 ≤ cfg.kRep ∧ y.length = cfg.kRep * x.length ∧
      ∀ i < x.length,
        2 * ((Finset.range cfg.kRep).filter fun j => bitAt y (i * cfg.kRep + j) ≠ bitAt x i).card < cfg.kRep := by
  decide +kernel
theorem witness_Interleave :
    blank.Running ∧ blank.blk.cod = none ∧ full.Running ∧ full.blk.cod = some cod96 ∧
      cod96.length = cfg.ilvR * cfg.ilvC ∧ (msb 95 0).length ≠ cfg.ilvR * cfg.ilvC := by decide
theorem witness_Deinterleave :
    blank.Running ∧ blank.blk.ilv = none ∧ full.Running ∧ full.blk.ilv = some ilv96 ∧
      ilv96.length = cfg.ilvR * cfg.ilvC ∧ (msb 97 0).length ≠ cfg.ilvR * cfg.ilvC := by decide
theorem witness_InterleaverRoundTrip :
    full.Running ∧ cod96.length = full.cfg.ilvR * full.cfg.ilvC ∧ full.blk.cod = some cod96 ∧
      ilv96.length = full.cfg.ilvR * full.cfg.ilvC ∧ full.blk.ilv = some ilv96 := by decide
theorem witness_TbBuildIsItsSteps :
    blank.Running ∧ blank.blk.pay = none ∧ full.Running ∧ full.blk.pay = some pay8 ∧
      cfg.capBits < cfg.kRep * ((msb 9 0).length + 24) ∧ cfg.capBits < (msb 73 0).length + 24 ∧
      cfg.kRep * ((msb 7 0).length + 24) ≤ cfg.capBits ∧ cfg.kRep * ((msb 7 0).length + 24) ≠ cfg.ilvR * cfg.ilvC ∧
      pay8.length + 24 ≤ cfg.capBits ∧ cfg.kRep * (pay8.length + 24) ≤ cfg.capBits ∧
      cfg.kRep * (pay8.length + 24) = cfg.ilvR * cfg.ilvC := by decide
theorem witness_TbProcessIsItsSteps :
    blank.Running ∧ blank.blk.ilv = none ∧ full.Running ∧ full.blk.ilv = some ilv96 ∧
      ilv96.length = cfg.ilvR * cfg.ilvC ∧ ilv96.length % cfg.kRep = 0 ∧ 24 ≤ ilv96.length / cfg.kRep ∧
      24 ≤ ilv96.length / 4 ∧ ilv96.length % 7 ≠ 0 ∧ ilv96.length / 5 < 24 ∧ (msb 95 0).length ≠ cfg.ilvR * cfg.ilvC := by
  decide
theorem witness_TransportBlockRoundTrip :
    full.Running ∧ full.blk.pay = some pay8 ∧ 1 ≤ cfg.kRep ∧ cfg.kRep * (pay8.length + 24) ≤ cfg.capBits ∧
      cfg.kRep * (pay8.length + 24) = cfg.ilvR * cfg.ilvC := by decide
theorem witness_ConstBuild :
    full.cfg.Wf ∧ full.Running ∧ 1 ∉ full.cfg.supportedBps ∧ 7 ∉ full.cfg.supportedBps ∧ 2 ∈ full.cfg.supportedBps ∧
      6 ∈ full.cfg.supportedBps := ⟨cfg_wf, by decide, by decide, by decide, by decide, by decide⟩
theorem witness_ConstellationMeanPower :
    full.cfg.Wf ∧ full.Running ∧ 6 ∈ full.cfg.supportedBps ∧ ∃ t, exec (.constBuild 6) full = .next t :=
  ⟨cfg_wf, by decide, by decide, ⟨_, rfl⟩⟩
theorem witness_Modulate :
    blank.Running ∧ blank.blk.ilv = none ∧ full.Running ∧ full.blk.ilv = some ilv96 ∧
      full.blk.const = some (buildConst cfg 2) ∧ (buildConst cfg 2).Ok ∧ ilv96.length % (buildConst cfg 2).b = 0 ∧
      ilv96.length / (buildConst cfg 2).b ≤ cfg.capSyms ∧ (msb 3 0).length % (buildConst cfg 2).b ≠ 0 ∧
      cfg.capSyms < (msb 130 0).length / (buildConst cfg 2).b :=
  ⟨by decide, by decide, by decide, rfl, rfl, const2_ok, by decide, by decide, by decide, by simp [msb, cfg]⟩
theorem witness_Demodulate :
    blank.Running ∧ blank.blk.syms = none ∧ full.Running ∧ full.blk.const = some (buildConst cfg 2) ∧ (buildConst cfg 2).Ok ∧
      (buildConst cfg 2).b * (List.replicate 48 j).length ≤ cfg.capBits ∧
      cfg.capBits < (buildConst cfg 2).b * (List.replicate 49 j).length :=
  ⟨by decide, by decide, by decide, rfl, const2_ok, by decide, by decide⟩
theorem witness_ModulationRoundTrip :
    full.cfg.Wf ∧ full.Running ∧ 2 ∈ full.cfg.supportedBps ∧ 6 ∈ full.cfg.supportedBps ∧ full.blk.ilv = some ilv96 ∧
      ilv96.length % 2 = 0 ∧ ilv96.length / 2 ≤ cfg.capSyms ∧ ilv96.length ≤ cfg.capBits ∧ ilv96.length % 6 = 0 :=
  ⟨cfg_wf, by decide, by decide, by decide, rfl, by decide, by decide, by decide, by decide⟩
theorem witness_TraversalOrder : cfg.Wf ∧ (5 : Nat) < cfg.cap ∧ (1 : Nat) < cfg.nSym ∧ 3 ∈ cfg.dataIdx :=
  ⟨cfg_wf, by decide, by decide, by decide⟩
theorem witness_GridInit : full.Running ∧ blank.Running := by decide
theorem witness_GridMap :
    full.cfg.Wf ∧ blank.Running ∧ blank.blk.syms = none ∧ full.Running ∧ full.blk.grid = some grid2 ∧
      grid2.data.length = cfg.nSym * cfg.nSc ∧ (List.replicate 6 j).length ≤ cfg.cap ∧ cfg.cap < (List.replicate 7 j).length ∧
      reCell cfg 5 = (1, 3) ∧ ∀ q < 5, reCell cfg q ≠ (1, 3) :=
  ⟨cfg_wf, by decide, by decide, by decide, rfl, by decide, by decide, by decide, by decide, by decide⟩
theorem witness_GridExtract :
    cfg.Wf ∧ blank.Running ∧ blank.blk.grid = none ∧ full.Running ∧ full.blk.grid = some grid2 ∧ 6 ≤ cfg.cap ∧ cfg.cap < 7 ∧
      6 ≤ cfg.capSyms ∧ ({ cfg with capSyms := 5 } : Cfg).capSyms < 6 := ⟨cfg_wf, by decide⟩
theorem witness_GridMapThenExtract :
    full.cfg.Wf ∧ full.Running ∧ full.blk.syms = some [z 1, z (-1), z, j, z 1, z 0 (-1)] ∧ full.blk.grid = some grid2 ∧
      grid2.data.length = cfg.nSym * cfg.nSc ∧ 6 ≤ cfg.cap ∧ 6 ≤ cfg.capSyms :=
  ⟨cfg_wf, by decide, rfl, rfl, by decide, by decide, by decide⟩
/-- A frequency vector that meets the three placement conditions, built from the grid's values. -/
theorem witness_Grid2Td :
    full.cfg.Wf ∧ blank.Running ∧ blank.blk.grid = none ∧ full.Running ∧ full.blk.grid = some grid2 ∧
      ∃ X : ℕ → ℕ → ℂ,
        (∀ l k, l < cfg.nSym → k < cfg.nSc → k ∉ cfg.pilotIdx → X l (cfg.scOffset + k) = cval grid2.data (l * cfg.nSc + k)) ∧
        (∀ l p, l < cfg.nSym → p < cfg.nPil →
          X l (cfg.scOffset + cfg.pilotIdx.getD p 0) = cval grid2.pilot (l * cfg.nPil + p)) ∧
        (∀ l m, l < cfg.nSym → m < cfg.nFft → m < cfg.scOffset ∨ cfg.scOffset + cfg.nSc ≤ m → X l m = 0) := by
  refine ⟨cfg_wf, by decide, by decide, by decide, rfl,
    fun l k => if k = 1 then cval grid2.pilot l else cval grid2.data (l * 4 + k), ?_, ?_, ?_⟩
  · intro l k _ _ hk
    have : k ≠ 1 := by simpa [cfg] using hk
    simp [cfg, this]
  · intro l p _ hp
    have : p = 0 := by simpa [cfg, Cfg.nPil] using hp
    subst this
    simp [cfg, Cfg.nPil]
  · intro l m _ hm h
    simp only [cfg] at hm h
    omega
theorem witness_Td2Grid :
    full.cfg.Wf ∧ blank.Running ∧ blank.blk.td = none ∧ full.Running ∧ full.blk.td = some td2 ∧ (1 : Nat) < cfg.nSym ∧
      3 ∉ cfg.pilotIdx ∧ 1 ∈ cfg.pilotIdx ∧ 0 < cfg.nPil :=
  ⟨cfg_wf, by decide, by decide, by decide, rfl, by decide, by decide, by decide, by decide⟩
theorem witness_GridTransformRoundTrip :
    full.cfg.Wf ∧ full.Running ∧ full.blk.grid = some grid2 ∧ grid2.pilot.length = cfg.nSym * cfg.nPil :=
  ⟨cfg_wf, by decide, rfl, by decide⟩
theorem witness_PreGen : full.Running ∧ 3 < cfg.lPre := by decide
theorem witness_CyclicPrefix :
    full.cfg.Wf ∧ blank.Running ∧ blank.blk.td = none ∧ blank.blk.cps = none ∧ full.Running ∧ full.blk.td = some td2 ∧
      td2.length = cfg.nSym * cfg.nFft ∧ cfg.lPl ≤ cfg.capFrame ∧ ({ cfg with capFrame := 9 } : Cfg).capFrame < cfg.lPl ∧
      full.blk.cps = some cps2 ∧ cps2.length = cfg.lPl ∧ (cps2.take 9).length ≠ cfg.lPl :=
  ⟨cfg_wf, by decide, by decide, by decide, by decide, rfl, by decide, by decide, by decide, rfl, by decide, by decide⟩
theorem witness_FrameBuildAndExtract :
    blank.Running ∧ blank.blk.pre = none ∧ blank.blk.frame = none ∧ full.Running ∧ full.blk.pre = some pre4 ∧
      full.blk.cps = some cps2 ∧ cps2.length = cfg.lPl ∧ cfg.lFrame ≤ cfg.capFrame ∧
      ({ cfg with capFrame := 13 } : Cfg).capFrame < cfg.lFrame ∧ (cps2.take 9).length ≠ cfg.lPl ∧
      full.blk.start + cfg.lPl ≤ (pre4 ++ cps2).length ∧ (pre4 ++ cps2).length < 5 + cfg.lPl := by
  refine ⟨by decide, by decide, by decide, by decide, rfl, rfl, ?_⟩
  decide
/-- A frame no longer than the preamble; one sample longer, irrational; a maximum above and one below 7/10 are
`test_frameDetect_delayed` and `test_frameDetect_fallback`. -/
theorem witness_FrameDetect :
    blank.Running ∧ blank.blk.pre = none ∧ full.Running ∧ full.blk.pre = some pre4 ∧ pre4.length ≤ cfg.lPre ∧
      cfg.lPre < (pre4 ++ [(⟨.root 2, .piMul 1⟩ : Cplx)]).length := by decide
theorem witness_FrameRoundTrip :
    full.cfg.Wf ∧ full.Running ∧ full.blk.cps = some cps2 ∧ cps2.length = cfg.lPl ∧ cfg.lFrame ≤ cfg.capFrame ∧
      1 ≤ cfg.lPl := ⟨cfg_wf, by decide, rfl, by decide, by decide, by decide⟩
/-- `EPS_CORR = 0`; the two thresholds at their boundaries. -/
theorem witness_Thresholds :
    cfg.epsCorr.val = 0 ∧ validPilot (z (1/10)) = false ∧ validPilot (z (11/100)) = true ∧
      nearZero { cfg with epsCorr := .rat (1/100) } (.rat (1/100)) = false ∧
      nearZero { cfg with epsCorr := .rat (1/100) } (.rat (-1/101)) = true := by
  refine ⟨by simp [cfg], ?_⟩
  decide +kernel
/-- Gated: no valid pilot of two; accepted: one valid pilot of three, exactly a third. Near zero and not: the tests above. -/
theorem witness_CfoTrack :
    cfg.Wf ∧ blank.Running ∧ blank.blk.grid = none ∧ full.Running ∧ full.blk.grid = some grid2 ∧
      ([z (1/10), z].filter validPilot).length = 0 ∧ 3 * ([j, z, z, z].filter validPilot).length < 4 ∧
      0 < ([j, z, z].filter validPilot).length ∧ 3 ≤ 3 * ([j, z, z].filter validPilot).length :=
  ⟨cfg_wf, by decide +kernel⟩
/-- Gated: one usable symbol of three; accepted: one of two, exactly half. -/
theorem witness_CpeTrack :
    cfg.Wf ∧ blank.Running ∧ blank.blk.grid = none ∧ full.Running ∧ full.blk.grid = some grid2 ∧
      ([[j], [z], [z]].filter fun v => (v.filter validPilot).length ≠ 0).length = 1 ∧ 2 * 1 < 3 ∧
      ([[j], [z]].filter fun v => (v.filter validPilot).length ≠ 0).length = 1 ∧ 2 ≤ 2 * 1 :=
  ⟨cfg_wf, by decide +kernel⟩
/-- First frame; gated: one valid pair of three; accepted: one of two, exactly half. -/
theorem witness_ScoTrack :
    cfg.Wf ∧ blank.Running ∧ blank.blk.grid = none ∧ full.Running ∧ full.blk.grid = some grid2 ∧
      (run { fullBlk with scoPrev := none }).blk.scoPrev = none ∧ full.blk.scoPrev = some [z 1, z 1] ∧
      2 * (([j, z, j].zip [z 1, z 1, z]).filter fun w => validPilot w.1 && validPilot w.2).length < 3 ∧
      2 ≤ 2 * (([j, z].zip [z 1, z 1]).filter fun w => validPilot w.1 && validPilot w.2).length :=
  ⟨cfg_wf, by decide +kernel⟩
/-- Fresh records, both pilots at the phase π/2, the previous pilots at the phase 0. -/
theorem witness_TrackerConvergence :
    let s := run { fullBlk with grid := some { grid2 with pilot := [j, j] } }
    let θ := Real.pi / 2
    Tracker.reset.init = false ∧ s.cfg.Wf ∧ s.Running ∧ s.blk.cfo.init = false ∧ s.blk.cpe.init = false ∧
      s.blk.sco.trk.init = false ∧ θ ∈ Set.Ioc (-Real.pi) Real.pi ∧ |θ| < Real.pi ∧ 0 < [j, j].length ∧
      [j, j].length = cfg.nSym * cfg.nPil ∧ s.blk.scoPrev = some [z 1, z 1] ∧ [z 1, z 1].length = [j, j].length ∧
      (∀ x ∈ [j, j], x.val = cfg.pilotVal.val * Complex.exp (θ * Complex.I) ∧ validPilot x = true) ∧
      (∀ x ∈ [z 1, z 1], validPilot x = true) ∧
      ∀ x < [z 1, z 1].length, cval [j, j] x = cval [z 1, z 1] x * Complex.exp (θ * Complex.I) := by
  have hpi := Real.pi_pos
  have hθ : |Real.pi / 2| < Real.pi := by rw [abs_of_pos (by linarith)]; linarith
  have hv : j.val = (z 1).val * Complex.exp ((Real.pi / 2 : ℝ) * Complex.I) := by
    rw [Complex.exp_mul_I, ← Complex.ofReal_cos, ← Complex.ofReal_sin, Real.cos_pi_div_two, Real.sin_pi_div_two]
    apply Complex.ext <;> simp [j, z, Cplx.val]
  have hp : validPilot j = true ∧ validPilot (z 1) = true := by decide +kernel
  refine ⟨rfl, cfg_wf, by decide, by decide, by decide, by decide, ⟨by linarith, by linarith⟩, hθ, by decide, by decide, rfl,
    by decide, ?_, ?_, ?_⟩
  · intro x hx
    simp only [List.mem_cons, List.not_mem_nil, or_false, or_self] at hx
    subst hx
    exact ⟨hv, hp.1⟩
  · simpa using hp.2
  · intro x hx
    have : x = 0 ∨ x = 1 := by simp at hx; omega
    rcases this with rfl | rfl <;> exact hv

end Sys2Proof.Tests
end

section
/-! SUPPORT. A legal word is the encoding of the command it decodes to (30_encoding.md R81, R84). -/

namespace Sys2Proof

theorem decodePlain_eq_ok {j i : Instr} {op imm : Nat} (h : decodePlain j op imm = .ok i) : imm = 0 ∧ i = j := by
  unfold decodePlain at h
  split at h
  · cases h; exact ⟨‹_›, rfl⟩
  · cases h

/-- The decoder reads the table of 30_encoding.md R84 backwards. -/
theorem decodeFields_eq_ok {op imm : Nat} {i : Instr} (h : decodeFields op imm = .ok i) :
    i.opcode = op ∧ i.immediate = imm := by
  unfold decodeFields at h
  split at h
  case h_14 | h_19 => cases h; exact ⟨rfl, rfl⟩
  case h_31 => cases h
  all_goals
    obtain ⟨rfl, rfl⟩ := decodePlain_eq_ok h
    exact ⟨rfl, rfl⟩

theorem CmdWord.imm_lt (w : CmdWord) : w.imm < 2 ^ 24 := (w.extractLsb' 0 24).isLt

/-- A word is its two fields joined. -/
theorem CmdWord.fields_join (w : CmdWord) : BitVec.ofNat 8 w.op ++ BitVec.ofNat 24 w.imm = w := by
  unfold CmdWord.op CmdWord.imm
  rw [BitVec.ofNat_toNat, BitVec.ofNat_toNat, BitVec.setWidth_eq, BitVec.setWidth_eq,
    BitVec.extractLsb'_append_extractLsb'_eq_extractLsb' (by rfl)]
  exact BitVec.extractLsb'_eq_self

theorem encode_of_decode {w : CmdWord} {i : Instr} (h : decode w = .ok i) : encode i = w := by
  obtain ⟨hop, himm⟩ := decodeFields_eq_ok h
  rw [encode, hop, himm, CmdWord.fields_join]

theorem immediate_lt_of_decode {w : CmdWord} {i : Instr} (h : decode w = .ok i) : i.immediate < 2 ^ 24 := by
  rw [(decodeFields_eq_ok h).2]
  exact w.imm_lt

/-- The word of `CONST_BUILD n` as a number (30_encoding.md R84). -/
theorem encode_constBuild {n : Nat} (h : n < 2 ^ 24) : encode (.constBuild n) = BitVec.ofNat 32 (0x20 * 2 ^ 24 + n) := by
  apply BitVec.eq_of_toNat_eq
  simp only [encode, Instr.opcode, Instr.immediate, BitVec.toNat_append, BitVec.toNat_ofNat, Nat.mod_eq_of_lt h]
  rw [← Nat.shiftLeft_add_eq_or_of_lt h, Nat.shiftLeft_eq]
  omega

end Sys2Proof
end

section
/-! SUPPORT. What the body of each command can end in, said once per command: the writes of the completed body with the conditions
under which it completes, or an error code. -/

namespace Sys2Proof.Machine

/-- A body ends in a block that meets `P`, or raises a code other than `OK` (60_exceptions.md R261, R265). -/
def EndsIn (P : Block → Prop) : Except Code Block → Prop
  | .ok b => P b
  | .error e => e ≠ .ok

@[simp] theorem endsIn_ok {P : Block → Prop} {b : Block} : EndsIn P (.ok b) ↔ P b := Iff.rfl
@[simp] theorem endsIn_error {P : Block → Prop} {e : Code} : EndsIn P (.error e) ↔ e ≠ .ok := Iff.rfl

theorem EndsIn.mono {P Q : Block → Prop} {body : Except Code Block} (h : EndsIn P body) (hPQ : ∀ b, P b → Q b) :
    EndsIn Q body := by
  cases body with
  | ok b => exact hPQ b h
  | error e => exact h

theorem EndsIn.of_ok {P : Block → Prop} {body : Except Code Block} {b : Block} (h : EndsIn P body) (hb : body = .ok b) :
    P b := by subst hb; exact h

theorem EndsIn.error_ne_ok {P : Block → Prop} {body : Except Code Block} {e : Code} (h : EndsIn P body)
    (he : body = .error e) : e ≠ .ok := by subst he; exact h

/-- A check of a body: the error where the condition holds, else the rest. -/
theorem endsIn_check {P : Block → Prop} {p : Prop} [Decidable p] {e : Code} {rest : Except Code Block}
    (h : ¬p → EndsIn P rest) (he : e ≠ .ok := by simp) : EndsIn P (if p then .error e else rest) := by
  split
  · exact he
  · exact h ‹_›

theorem endsIn_ifConsistent {P : Block → Prop} (ok : Bool) {b : Block} (h : P b) : EndsIn P (ifConsistent ok b) := by
  cases ok
  · simp
  · exact h

/-! Transport Block Codec. -/

theorem crcGenBody_endsIn (c : Cfg) (b : Block) :
    EndsIn (fun b' => ∃ p, b.pay = some p ∧ b' = { b with crcb := some (crcBits (crc24 c.crcVariant p)) })
      (crcGenBody c b) := by
  unfold crcGenBody
  split
  · simp
  · exact ⟨_, ‹_›, rfl⟩

theorem crcVerifyBody_endsIn (c : Cfg) (b : Block) :
    EndsIn (fun b' => ∃ t, b.tot = some t ∧ b' = b.withValidity (crcOk c t)) (crcVerifyBody c b) := by
  unfold crcVerifyBody
  split
  · simp
  · exact ⟨_, ‹_›, rfl⟩

theorem tbAppendBody_endsIn (c : Cfg) (b : Block) :
    EndsIn (fun b' => ∃ p r, b.pay = some p ∧ b.crcb = some r ∧ p.length + r.length ≤ c.capBits ∧
      b' = { b with tot := some (p ++ r) }) (tbAppendBody c b) := by
  unfold tbAppendBody
  split
  · exact endsIn_check fun h => ⟨_, _, ‹_›, ‹_›, by omega, rfl⟩
  · simp

theorem tbSplitBody_endsIn (b : Block) :
    EndsIn (fun b' => ∃ t, b.tot = some t ∧ 24 ≤ t.length ∧
      b' = { b with pay := some (payloadPart t), crcb := some (crcPart t) }) (tbSplitBody b) := by
  unfold tbSplitBody
  split
  · simp
  · exact endsIn_check fun h => ⟨_, ‹_›, by omega, rfl⟩

theorem repeatBody_endsIn (c : Cfg) (b : Block) :
    EndsIn (fun b' => ∃ t, b.tot = some t ∧ c.kRep * t.length ≤ c.capBits ∧ b' = { b with cod := some (repeatK c.kRep t) })
      (repeatBody c b) := by
  unfold repeatBody
  split
  · simp
  · exact endsIn_check fun h => ⟨_, ‹_›, by omega, rfl⟩

theorem majorityBody_endsIn (c : Cfg) (b : Block) :
    EndsIn (fun b' => ∃ y, b.cod = some y ∧ y.length % c.kRep = 0 ∧ b' = { b with tot := some (majorityK c.kRep y) })
      (majorityBody c b) := by
  unfold majorityBody
  split
  · simp
  · exact endsIn_check fun h => ⟨_, ‹_›, by omega, rfl⟩

theorem interleaveBody_endsIn (c : Cfg) (b : Block) :
    EndsIn (fun b' => ∃ x, b.cod = some x ∧ x.length = c.ilvR * c.ilvC ∧ b' = { b with ilv := some (interleave c x) })
      (interleaveBody c b) := by
  unfold interleaveBody
  split
  · simp
  · exact endsIn_check fun h => ⟨_, ‹_›, by tauto, rfl⟩

theorem deinterleaveBody_endsIn (c : Cfg) (b : Block) :
    EndsIn (fun b' => ∃ y, b.ilv = some y ∧ y.length = c.ilvR * c.ilvC ∧ b' = { b with cod := some (deinterleave c y) })
      (deinterleaveBody c b) := by
  unfold deinterleaveBody
  split
  · simp
  · exact endsIn_check fun h => ⟨_, ‹_›, by tauto, rfl⟩

theorem tbBuildBody_endsIn (c : Cfg) (b : Block) :
    EndsIn (fun b' => ∃ p r t d, b.pay = some p ∧ r = crcBits (crc24 c.crcVariant p) ∧ t = p ++ r ∧ d = repeatK c.kRep t ∧
      t.length ≤ c.capBits ∧ d.length ≤ c.capBits ∧ d.length = c.ilvR * c.ilvC ∧
      b' = { b with crcb := some r, tot := some t, cod := some d, ilv := some (interleave c d) }) (tbBuildBody c b) := by
  unfold tbBuildBody
  split
  · simp
  · exact endsIn_check fun ht => endsIn_check fun hd => endsIn_check fun hn =>
      ⟨_, _, _, _, ‹_›, rfl, rfl, rfl, by omega, by omega, by tauto, rfl⟩

theorem tbProcessBody_endsIn (c : Cfg) (b : Block) :
    EndsIn (fun b' => ∃ y d t, b.ilv = some y ∧ y.length = c.ilvR * c.ilvC ∧ d = deinterleave c y ∧ d.length % c.kRep = 0 ∧
      t = majorityK c.kRep d ∧ 24 ≤ t.length ∧
      b' = Block.withValidity
        { b with cod := some d, tot := some t, pay := some (payloadPart t), crcb := some (crcPart t) } (crcOk c t))
      (tbProcessBody c b) := by
  unfold tbProcessBody
  split
  · simp
  · exact endsIn_check fun hy => endsIn_check fun hd => endsIn_check fun ht =>
      ⟨_, _, _, ‹_›, by tauto, rfl, by omega, rfl, by omega, rfl⟩

/-! Constellation Modulator. -/

theorem constBuildBody_endsIn (c : Cfg) (n : Nat) (b : Block) :
    EndsIn (fun b' => c.supports n = true ∧ b' = { b with const := some (buildConst c n) }) (constBuildBody c n b) := by
  unfold constBuildBody
  split
  · exact ⟨‹_›, rfl⟩
  · simp

theorem modulateBody_endsIn (c : Cfg) (b : Block) :
    EndsIn (fun b' => ∃ bits k, b.ilv = some bits ∧ b.const = some k ∧ bits.length % k.b = 0 ∧
      bits.length / k.b ≤ c.capSyms ∧ b' = { b with syms := some (modulateBits k bits) }) (modulateBody c b) := by
  unfold modulateBody
  split
  · exact endsIn_check fun h0 => endsIn_check fun h => ⟨_, _, ‹_›, ‹_›, by omega, by omega, rfl⟩
  · simp

theorem demodulateBody_endsIn (c : Cfg) (b : Block) :
    EndsIn (fun b' => ∃ ys k, b.syms = some ys ∧ b.const = some k ∧ k.b * ys.length ≤ c.capBits ∧
      b' = { b with ilv := some (demodulateSyms k ys) }) (demodulateBody c b) := by
  unfold demodulateBody
  split
  · exact endsIn_check fun h => ⟨_, _, ‹_›, ‹_›, by omega, rfl⟩
  · simp

/-! Resource Grid Mapper. -/

theorem gridMapBody_endsIn (c : Cfg) (b : Block) :
    EndsIn (fun b' => ∃ ys g, b.syms = some ys ∧ b.grid = some g ∧ ys.length ≤ c.cap ∧
      b' = { b with grid := some { g with data := mapSyms c ys g.data } }) (gridMapBody c b) := by
  unfold gridMapBody
  split
  · exact endsIn_check fun h => endsIn_ifConsistent _ ⟨_, _, ‹_›, ‹_›, by omega, rfl⟩
  · simp

theorem gridExtractBody_endsIn (c : Cfg) (n : Nat) (b : Block) :
    EndsIn (fun b' => ∃ g, b.grid = some g ∧ n ≤ c.cap ∧ n ≤ c.capSyms ∧
      b' = { b with syms := some (extractSyms c n g.data) }) (gridExtractBody c n b) := by
  unfold gridExtractBody
  split
  · simp
  · exact endsIn_check fun hc => endsIn_check fun hs =>
      endsIn_ifConsistent _ ⟨_, ‹_›, by omega, by omega, rfl⟩

theorem grid2tdBody_endsIn (c : Cfg) (b : Block) :
    EndsIn (fun b' => ∃ g, b.grid = some g ∧ b' = { b with td := some (gridToTime c g) }) (grid2tdBody c b) := by
  unfold grid2tdBody
  split
  · simp
  · exact endsIn_ifConsistent _ ⟨_, ‹_›, rfl⟩

theorem td2gridBody_endsIn (c : Cfg) (b : Block) :
    EndsIn (fun b' => ∃ x, b.td = some x ∧ b' = { b with grid := some (timeToGrid c x) }) (td2gridBody c b) := by
  unfold td2gridBody
  split
  · simp
  · exact endsIn_ifConsistent _ ⟨_, ‹_›, rfl⟩

/-! Frame Framer. -/

theorem cpAddBody_endsIn (c : Cfg) (b : Block) :
    EndsIn (fun b' => ∃ x, b.td = some x ∧ c.lPl ≤ c.capFrame ∧ b' = { b with cps := some (addCps c x) })
      (cpAddBody c b) := by
  unfold cpAddBody
  split
  · simp
  · exact endsIn_check fun h => endsIn_ifConsistent _ ⟨_, ‹_›, by omega, rfl⟩

theorem cpRemoveBody_endsIn (c : Cfg) (b : Block) :
    EndsIn (fun b' => ∃ y, b.cps = some y ∧ y.length = c.lPl ∧ b' = { b with td := some (removeCps c y) })
      (cpRemoveBody c b) := by
  unfold cpRemoveBody
  split
  · simp
  · exact endsIn_check fun h => ⟨_, ‹_›, by omega, rfl⟩

theorem frameBuildBody_endsIn (c : Cfg) (b : Block) :
    EndsIn (fun b' => ∃ p y, b.pre = some p ∧ b.cps = some y ∧ y.length = c.lPl ∧ c.lFrame ≤ c.capFrame ∧
      b' = { b with frame := some (p ++ y) }) (frameBuildBody c b) := by
  unfold frameBuildBody
  split
  · exact endsIn_check fun hy => endsIn_check fun hc => ⟨_, _, ‹_›, ‹_›, by omega, by omega, rfl⟩
  · simp

theorem frameDetectBody_endsIn (c : Cfg) (b : Block) :
    EndsIn (fun b' => ∃ p r, b.pre = some p ∧ b.frame = some r ∧ b' = b.withDetection c (detect c r p))
      (frameDetectBody c b) := by
  unfold frameDetectBody
  split
  · exact ⟨_, _, ‹_›, ‹_›, rfl⟩
  · simp

theorem frameExtractBody_endsIn (c : Cfg) (b : Block) :
    EndsIn (fun b' => ∃ r, b.frame = some r ∧ b.start + c.lPl ≤ r.length ∧
      b' = { b with cps := some (slice r b.start c.lPl) }) (frameExtractBody c b) := by
  unfold frameExtractBody
  split
  · simp
  · exact endsIn_check fun h => ⟨_, ‹_›, by omega, rfl⟩

/-- A detected frame start lies inside the frame (44_frame_framer.md R201, R203). -/
theorem detect_best_lt {c : Cfg} {r p : List Cplx} {d : Nat} (h : (detect c r p).best = some d) :
    d + c.lPre < r.length := by
  unfold detect at h
  rcases search_cases (scoreAt c.lPre r p) (r.length - c.lPre) with ⟨-, hs⟩ | ⟨d', hd', hs⟩
  · simp [hs] at h
  · simp only [hs, Option.some.injEq] at h
    omega

/-! Synchronization Trackers. -/

theorem cfoTrackBody_endsIn (c : Cfg) (b : Block) :
    EndsIn (fun b' => ∃ g, b.grid = some g ∧ b' = b.cfoTracked c g) (cfoTrackBody c b) := by
  unfold cfoTrackBody
  split
  · simp
  · exact endsIn_ifConsistent _ ⟨_, ‹_›, rfl⟩

theorem cpeTrackBody_endsIn (c : Cfg) (b : Block) :
    EndsIn (fun b' => ∃ g, b.grid = some g ∧ b' = b.cpeTracked c g) (cpeTrackBody c b) := by
  unfold cpeTrackBody
  split
  · simp
  · exact endsIn_ifConsistent _ ⟨_, ‹_›, rfl⟩

theorem scoTrackBody_endsIn (c : Cfg) (b : Block) :
    EndsIn (fun b' => ∃ g, b.grid = some g ∧ b' = b.scoTracked c g) (scoTrackBody c b) := by
  unfold scoTrackBody
  split
  · simp
  · exact endsIn_ifConsistent _ ⟨_, ‹_›, rfl⟩

/-- What `CFO_TRACK` writes: its record, and the rotated grid unless the correction is skipped. -/
theorem cfoTracked_cases (c : Cfg) (b : Block) (g : Grid) :
    ∃ t, b.cfoTracked c g = { b with cfo := t, status := b.status.withCfoSkip true } ∨
      b.cfoTracked c g = { b with cfo := t, grid := some (cfoRotate c t.filt g), status := b.status.withCfoSkip false } := by
  unfold Block.cfoTracked
  dsimp only
  split
  · exact ⟨_, .inl rfl⟩
  · split
    · exact ⟨_, .inl rfl⟩
    · exact ⟨_, .inr rfl⟩

/-- What `CPE_TRACK` writes: its record, and the rotated data cells unless the correction is skipped. -/
theorem cpeTracked_cases (c : Cfg) (b : Block) (g : Grid) :
    ∃ t, b.cpeTracked c g = { b with cpe := t, status := b.status.withCpeSkip true } ∨
      b.cpeTracked c g = { b with
        cpe := t, grid := some { g with data := rotateData c (fun _ => unrotate t.filt) g.data }
        status := b.status.withCpeSkip false } := by
  unfold Block.cpeTracked
  dsimp only
  split
  · exact ⟨_, .inl rfl⟩
  · split
    · exact ⟨_, .inl rfl⟩
    · exact ⟨_, .inr rfl⟩

/-- The record `SCO_TRACK` writes: only a count, or an accepted estimate over stored pilots (46_sync_trackers.md R237). -/
def Block.ScoRecord (c : Cfg) (b : Block) (t : ScoTracker) : Prop :=
  (∃ n, t = b.sco.withCount n) ∨ ∃ new n, t = b.sco.accept c new n

/-- What `SCO_TRACK` writes: its record and the stored pilots, and the rotated data cells unless the correction is skipped. -/
theorem scoTracked_cases (c : Cfg) (b : Block) (g : Grid) :
    ∃ t, b.ScoRecord c t ∧ (b.scoTracked c g = b.scoSkipped g t ∨
      b.scoTracked c g = { b with
        sco := t, scoPrev := some g.pilot, grid := some { g with data := rotateData c (scoFactor c t.acc) g.data }
        status := b.status.withScoSkip false }) := by
  unfold Block.scoTracked
  split
  · exact ⟨_, .inl ⟨_, rfl⟩, .inl rfl⟩
  · dsimp only
    split
    · exact ⟨_, .inl ⟨_, rfl⟩, .inl rfl⟩
    · split
      · exact ⟨_, .inr ⟨_, _, rfl⟩, .inl rfl⟩
      · exact ⟨_, .inr ⟨_, _, rfl⟩, .inr rfl⟩

end Sys2Proof.Machine
end

section
/-! SUPPORT. The body of every command, and the frame of every command and host write: which parts of the block it writes
(30_encoding.md R84, 20_memory.md R62), every other part being kept. -/

namespace Sys2Proof.Machine

/-- The body of every command; for the two resets, which run outside the shell, the block they leave. -/
def commandBody (c : Cfg) (b : Block) : Instr → Except Code Block
  | .nop => .ok b
  | .txReset => .ok b.txReset
  | .runReset => .ok b.runReset
  | .crcGen => crcGenBody c b
  | .crcVerify => crcVerifyBody c b
  | .tbAppend => tbAppendBody c b
  | .tbSplit => tbSplitBody b
  | .repeatBits => repeatBody c b
  | .majority => majorityBody c b
  | .interleave => interleaveBody c b
  | .deinterleave => deinterleaveBody c b
  | .tbBuild => tbBuildBody c b
  | .tbProcess => tbProcessBody c b
  | .constBuild imm => constBuildBody c imm b
  | .modulate => modulateBody c b
  | .demodulate => demodulateBody c b
  | .gridInit => gridInitBody c b
  | .gridMap => gridMapBody c b
  | .gridExtract imm => gridExtractBody c imm b
  | .grid2td => grid2tdBody c b
  | .td2grid => td2gridBody c b
  | .preGen => preGenBody c b
  | .cpAdd => cpAddBody c b
  | .cpRemove => cpRemoveBody c b
  | .frameBuild => frameBuildBody c b
  | .frameDetect => frameDetectBody c b
  | .frameExtract => frameExtractBody c b
  | .cfoTrack => cfoTrackBody c b
  | .cpeTrack => cpeTrackBody c b
  | .scoTrack => scoTrackBody c b

/-- The two commands that are accepted while aborted (60_exceptions.md R266, R267). -/
abbrev IsReset (i : Instr) : Prop := i = .txReset ∨ i = .runReset

theorem exec_of_not_isReset {i : Instr} (h : ¬IsReset i) (s : State) :
    exec i s = s.runBody (commandBody s.cfg s.blk i) := by
  cases i with
  | txReset => simp at h
  | runReset => simp at h
  | _ => rfl

/-- A reset completes with the block it leaves, whose code is `OK` already. -/
theorem exec_of_isReset {i : Instr} (h : IsReset i) (s : State) :
    ∃ b, commandBody s.cfg s.blk i = .ok b ∧ exec i s = .next (s.withBlk (b.withCode .ok)) := by
  rcases h with rfl | rfl
  · exact ⟨_, rfl, rfl⟩
  · exact ⟨_, rfl, rfl⟩

/-! The code and `abort` are no part of the block's columns. -/

theorem same_withCode_iff {b b' : Block} {e : Code} {p : Part} : Part.Same b (b'.withCode e) p ↔ Part.Same b b' p := by
  cases p <;> rfl

theorem same_raise (b : Block) (e : Code) (p : Part) : Part.Same b (b.raise e) p := by cases p <;> rfl

theorem same_refl (b : Block) (p : Part) : Part.Same b b p := by cases p <;> rfl

/-- `b'` differs from `b` in the parts `ps` at most, and is not aborted unless `b` is. -/
structure Block.WritesOnly (ps : List Part) (b b' : Block) : Prop where
  running : b.status.abort = false → b'.status.abort = false
  same : ∀ p, p ∉ ps → Part.Same b b' p

/-! One write, by the part it names. -/

theorem writesOnly_pay (b : Block) (x : Option (List Bit)) : b.WritesOnly [.pay] { b with pay := x } :=
  ⟨id, fun p hp => by cases p with | pay => simp at hp | _ => rfl⟩

theorem writesOnly_crcb (b : Block) (x : Option (List Bit)) : b.WritesOnly [.crcb] { b with crcb := x } :=
  ⟨id, fun p hp => by cases p with | crcb => simp at hp | _ => rfl⟩

theorem writesOnly_tot (b : Block) (x : Option (List Bit)) : b.WritesOnly [.tot] { b with tot := x } :=
  ⟨id, fun p hp => by cases p with | tot => simp at hp | _ => rfl⟩

theorem writesOnly_cod (b : Block) (x : Option (List Bit)) : b.WritesOnly [.cod] { b with cod := x } :=
  ⟨id, fun p hp => by cases p with | cod => simp at hp | _ => rfl⟩

theorem writesOnly_ilv (b : Block) (x : Option (List Bit)) : b.WritesOnly [.ilv] { b with ilv := x } :=
  ⟨id, fun p hp => by cases p with | ilv => simp at hp | _ => rfl⟩

theorem writesOnly_syms (b : Block) (x : Option (List Cplx)) : b.WritesOnly [.syms] { b with syms := x } :=
  ⟨id, fun p hp => by cases p with | syms => simp at hp | _ => rfl⟩

theorem writesOnly_grid (b : Block) (x : Option Grid) : b.WritesOnly [.gridData, .gridPilot] { b with grid := x } :=
  ⟨id, fun p hp => by cases p with | gridData | gridPilot => simp at hp | _ => rfl⟩

theorem writesOnly_gridData {b : Block} {g : Grid} (hg : b.grid = some g) (x : List Cplx) :
    b.WritesOnly [.gridData] { b with grid := some { g with data := x } } :=
  ⟨id, fun p hp => by cases p with | gridData => simp at hp | gridPilot => simp [Part.Same, hg] | _ => rfl⟩

theorem writesOnly_gridPilot {b : Block} {g : Grid} (hg : b.grid = some g) (x : List Cplx) :
    b.WritesOnly [.gridPilot] { b with grid := some { g with pilot := x } } :=
  ⟨id, fun p hp => by cases p with | gridPilot => simp at hp | gridData => simp [Part.Same, hg] | _ => rfl⟩

theorem writesOnly_td (b : Block) (x : Option (List Cplx)) : b.WritesOnly [.td] { b with td := x } :=
  ⟨id, fun p hp => by cases p with | td => simp at hp | _ => rfl⟩

theorem writesOnly_cps (b : Block) (x : Option (List Cplx)) : b.WritesOnly [.cps] { b with cps := x } :=
  ⟨id, fun p hp => by cases p with | cps => simp at hp | _ => rfl⟩

theorem writesOnly_pre (b : Block) (x : Option (List Cplx)) : b.WritesOnly [.pre] { b with pre := x } :=
  ⟨id, fun p hp => by cases p with | pre => simp at hp | _ => rfl⟩

theorem writesOnly_frame (b : Block) (x : Option (List Cplx)) : b.WritesOnly [.frame] { b with frame := x } :=
  ⟨id, fun p hp => by cases p with | frame => simp at hp | _ => rfl⟩

theorem writesOnly_const (b : Block) (x : Option Const) : b.WritesOnly [.const] { b with const := x } :=
  ⟨id, fun p hp => by cases p with | const => simp at hp | _ => rfl⟩

theorem writesOnly_start (b : Block) (x : Nat) : b.WritesOnly [.start] { b with start := x } :=
  ⟨id, fun p hp => by cases p with | start => simp at hp | _ => rfl⟩

/-! The commands that write more than one buffer. -/

theorem writesOnly_refl (ps : List Part) (b : Block) : b.WritesOnly ps b := ⟨id, fun p _ => same_refl b p⟩

theorem writesOnly_txReset (b : Block) : b.WritesOnly (writes .txReset) b.txReset :=
  ⟨fun _ => rfl, fun p hp => by
    cases p with
    | cfo | cpe | sco | scoPrev | const | pre => rfl
    | _ => simp [writes, txParts] at hp⟩

theorem writesOnly_runReset (b : Block) : b.WritesOnly (writes .runReset) b.runReset :=
  ⟨fun _ => rfl, fun p hp => by cases p <;> simp [writes, txParts] at hp⟩

theorem writesOnly_withValidity (b : Block) (ok : Bool) : b.WritesOnly (writes .crcVerify) (b.withValidity ok) :=
  ⟨id, fun p hp => by cases p with | tbvalid | crcFail => simp [writes] at hp | _ => rfl⟩

theorem writesOnly_tbSplit (b : Block) (x y : Option (List Bit)) :
    b.WritesOnly (writes .tbSplit) { b with pay := x, crcb := y } :=
  ⟨id, fun p hp => by cases p with | pay | crcb => simp [writes] at hp | _ => rfl⟩

theorem writesOnly_tbBuild (b : Block) (w x y z : Option (List Bit)) :
    b.WritesOnly (writes .tbBuild) { b with crcb := w, tot := x, cod := y, ilv := z } :=
  ⟨id, fun p hp => by cases p with | crcb | tot | cod | ilv => simp [writes] at hp | _ => rfl⟩

theorem writesOnly_tbProcess (b : Block) (w x y z : Option (List Bit)) (ok : Bool) :
    b.WritesOnly (writes .tbProcess) (Block.withValidity { b with cod := w, tot := x, pay := y, crcb := z } ok) :=
  ⟨id, fun p hp => by cases p with | cod | tot | pay | crcb | tbvalid | crcFail => simp [writes] at hp | _ => rfl⟩

theorem writesOnly_detection (b : Block) (n : Nat) (x : Num) (fb : Bool) :
    b.WritesOnly (writes .frameDetect) { b with start := n, score := x, status := b.status.withDetFallback fb } :=
  ⟨id, fun p hp => by cases p with | start | score | detFallback => simp [writes] at hp | _ => rfl⟩

theorem writesOnly_withDetection (c : Cfg) (b : Block) (f : Found) :
    b.WritesOnly (writes .frameDetect) (b.withDetection c f) := by
  rcases withDetection_cases c b f with ⟨d, -, -, h⟩ | ⟨-, h⟩
  · rw [h]; exact writesOnly_detection b _ _ _
  · rw [h]; exact writesOnly_detection b _ _ _

theorem writesOnly_cfoTracked (c : Cfg) (b : Block) (g : Grid) : b.WritesOnly (writes .cfoTrack) (b.cfoTracked c g) := by
  obtain ⟨t, h | h⟩ := cfoTracked_cases c b g
  · rw [h]
    exact ⟨id, fun p hp => by cases p with | cfo | cfoSkip => simp [writes] at hp | _ => rfl⟩
  · rw [h]
    exact ⟨id, fun p hp => by cases p with | gridData | gridPilot | cfo | cfoSkip => simp [writes] at hp | _ => rfl⟩

theorem writesOnly_cpeTracked (c : Cfg) {b : Block} {g : Grid} (hg : b.grid = some g) :
    b.WritesOnly (writes .cpeTrack) (b.cpeTracked c g) := by
  obtain ⟨t, h | h⟩ := cpeTracked_cases c b g
  · rw [h]
    exact ⟨id, fun p hp => by cases p with | cpe | cpeSkip => simp [writes] at hp | _ => rfl⟩
  · rw [h]
    exact ⟨id, fun p hp => by
      cases p with
      | gridData | cpe | cpeSkip => simp [writes] at hp
      | gridPilot => simp [Part.Same, hg]
      | _ => rfl⟩

theorem writesOnly_scoTracked (c : Cfg) {b : Block} {g : Grid} (hg : b.grid = some g) :
    b.WritesOnly (writes .scoTrack) (b.scoTracked c g) := by
  obtain ⟨t, -, h | h⟩ := scoTracked_cases c b g
  · rw [h]
    exact ⟨id, fun p hp => by cases p with | sco | scoPrev | scoSkip => simp [writes] at hp | _ => rfl⟩
  · rw [h]
    exact ⟨id, fun p hp => by
      cases p with
      | gridData | sco | scoPrev | scoSkip => simp [writes] at hp
      | gridPilot => simp [Part.Same, hg]
      | _ => rfl⟩

/-- A completed body has written the command's column of 30_encoding.md R84 at most. -/
theorem commandBody_writesOnly (c : Cfg) (b : Block) (i : Instr) : EndsIn (b.WritesOnly (writes i)) (commandBody c b i) := by
  cases i with
  | nop => exact writesOnly_refl _ b
  | txReset => exact writesOnly_txReset b
  | runReset => exact writesOnly_runReset b
  | crcGen => exact (crcGenBody_endsIn c b).mono fun | _, ⟨_, _, rfl⟩ => writesOnly_crcb b _
  | crcVerify => exact (crcVerifyBody_endsIn c b).mono fun | _, ⟨_, _, rfl⟩ => writesOnly_withValidity b _
  | tbAppend => exact (tbAppendBody_endsIn c b).mono fun | _, ⟨_, _, _, _, _, rfl⟩ => writesOnly_tot b _
  | tbSplit => exact (tbSplitBody_endsIn b).mono fun | _, ⟨_, _, _, rfl⟩ => writesOnly_tbSplit b _ _
  | repeatBits => exact (repeatBody_endsIn c b).mono fun | _, ⟨_, _, _, rfl⟩ => writesOnly_cod b _
  | majority => exact (majorityBody_endsIn c b).mono fun | _, ⟨_, _, _, rfl⟩ => writesOnly_tot b _
  | interleave => exact (interleaveBody_endsIn c b).mono fun | _, ⟨_, _, _, rfl⟩ => writesOnly_ilv b _
  | deinterleave => exact (deinterleaveBody_endsIn c b).mono fun | _, ⟨_, _, _, rfl⟩ => writesOnly_cod b _
  | tbBuild =>
    exact (tbBuildBody_endsIn c b).mono fun | _, ⟨_, _, _, _, _, _, _, _, _, _, _, rfl⟩ => writesOnly_tbBuild b _ _ _ _
  | tbProcess =>
    exact (tbProcessBody_endsIn c b).mono fun | _, ⟨_, _, _, _, _, _, _, _, _, rfl⟩ => writesOnly_tbProcess b _ _ _ _ _
  | constBuild n => exact (constBuildBody_endsIn c n b).mono fun | _, ⟨_, rfl⟩ => writesOnly_const b _
  | modulate => exact (modulateBody_endsIn c b).mono fun | _, ⟨_, _, _, _, _, _, rfl⟩ => writesOnly_syms b _
  | demodulate => exact (demodulateBody_endsIn c b).mono fun | _, ⟨_, _, _, _, _, rfl⟩ => writesOnly_ilv b _
  | gridInit => exact writesOnly_grid b _
  | gridMap => exact (gridMapBody_endsIn c b).mono fun | _, ⟨_, _, _, hg, _, rfl⟩ => writesOnly_gridData hg _
  | gridExtract n => exact (gridExtractBody_endsIn c n b).mono fun | _, ⟨_, _, _, _, rfl⟩ => writesOnly_syms b _
  | grid2td => exact (grid2tdBody_endsIn c b).mono fun | _, ⟨_, _, rfl⟩ => writesOnly_td b _
  | td2grid => exact (td2gridBody_endsIn c b).mono fun | _, ⟨_, _, rfl⟩ => writesOnly_grid b _
  | preGen => exact writesOnly_pre b _
  | cpAdd => exact (cpAddBody_endsIn c b).mono fun | _, ⟨_, _, _, rfl⟩ => writesOnly_cps b _
  | cpRemove => exact (cpRemoveBody_endsIn c b).mono fun | _, ⟨_, _, _, rfl⟩ => writesOnly_td b _
  | frameBuild => exact (frameBuildBody_endsIn c b).mono fun | _, ⟨_, _, _, _, _, _, rfl⟩ => writesOnly_frame b _
  | frameDetect => exact (frameDetectBody_endsIn c b).mono fun | _, ⟨_, _, _, _, rfl⟩ => writesOnly_withDetection c b _
  | frameExtract => exact (frameExtractBody_endsIn c b).mono fun | _, ⟨_, _, _, rfl⟩ => writesOnly_cps b _
  | cfoTrack => exact (cfoTrackBody_endsIn c b).mono fun | _, ⟨_, _, rfl⟩ => writesOnly_cfoTracked c b _
  | cpeTrack => exact (cpeTrackBody_endsIn c b).mono fun | _, ⟨_, hg, rfl⟩ => writesOnly_cpeTracked c hg
  | scoTrack => exact (scoTrackBody_endsIn c b).mono fun | _, ⟨_, hg, rfl⟩ => writesOnly_scoTracked c hg

/-! Host writes. -/

/-- What an `HWR` that is not refused can leave of the block `b`, by the buffer it names (20_memory.md R62, R63). -/
inductive HwrOutcome (c : Cfg) (b : Block) (off : Nat) : Nat → HostData → Block → Prop where
  | pay {xs ys : List Bit} (h : writeVariable (some c.capBits) b.pay off xs = some ys) :
    HwrOutcome c b off 0 (.bits xs) { b with pay := some ys }
  | crcb {xs ys : List Bit} (h : writeVariable none b.crcb off xs = some ys) :
    HwrOutcome c b off 1 (.bits xs) { b with crcb := some ys }
  | tot {xs ys : List Bit} (h : writeVariable (some c.capBits) b.tot off xs = some ys) :
    HwrOutcome c b off 2 (.bits xs) { b with tot := some ys }
  | cod {xs ys : List Bit} (h : writeVariable (some c.capBits) b.cod off xs = some ys) :
    HwrOutcome c b off 3 (.bits xs) { b with cod := some ys }
  | ilv {xs ys : List Bit} (h : writeVariable (some c.capBits) b.ilv off xs = some ys) :
    HwrOutcome c b off 4 (.bits xs) { b with ilv := some ys }
  | syms {xs ys : List Cplx} (h : writeVariable (some c.capSyms) b.syms off xs = some ys) :
    HwrOutcome c b off 5 (.samples xs) { b with syms := some ys }
  | gridData {g : Grid} {xs ys : List Cplx} (hg : b.grid = some g) (h : writeInside (some g.data) off xs = some ys) :
    HwrOutcome c b off 6 (.samples xs) { b with grid := some { g with data := ys } }
  | gridPilot {g : Grid} {xs ys : List Cplx} (hg : b.grid = some g) (h : writeInside (some g.pilot) off xs = some ys) :
    HwrOutcome c b off 7 (.samples xs) { b with grid := some { g with pilot := ys } }
  | td {xs ys : List Cplx} (h : writeFixed (c.nSym * c.nFft) b.td off xs = some ys) :
    HwrOutcome c b off 8 (.samples xs) { b with td := some ys }
  | cps {xs ys : List Cplx} (h : writeVariable (some c.capFrame) b.cps off xs = some ys) :
    HwrOutcome c b off 9 (.samples xs) { b with cps := some ys }
  | frame {xs ys : List Cplx} (h : writeVariable (some c.capFrame) b.frame off xs = some ys) :
    HwrOutcome c b off 11 (.samples xs) { b with frame := some ys }

/-- Everything an `HWR` can do. -/
theorem hwr_outcome {c : Cfg} {b b' : Block} {id off : Nat} {seq : HostData} (h : b.hwr c id off seq = some b') :
    HwrOutcome c b off id seq b' := by
  unfold Block.hwr at h
  split at h
  · obtain ⟨ys, hys, rfl⟩ := Option.map_eq_some_iff.1 h; exact .pay hys
  · obtain ⟨ys, hys, rfl⟩ := Option.map_eq_some_iff.1 h; exact .crcb hys
  · obtain ⟨ys, hys, rfl⟩ := Option.map_eq_some_iff.1 h; exact .tot hys
  · obtain ⟨ys, hys, rfl⟩ := Option.map_eq_some_iff.1 h; exact .cod hys
  · obtain ⟨ys, hys, rfl⟩ := Option.map_eq_some_iff.1 h; exact .ilv hys
  · obtain ⟨ys, hys, rfl⟩ := Option.map_eq_some_iff.1 h; exact .syms hys
  · split at h
    · cases h
    · obtain ⟨ys, hys, rfl⟩ := Option.map_eq_some_iff.1 h; exact .gridData ‹_› hys
  · split at h
    · cases h
    · obtain ⟨ys, hys, rfl⟩ := Option.map_eq_some_iff.1 h; exact .gridPilot ‹_› hys
  · obtain ⟨ys, hys, rfl⟩ := Option.map_eq_some_iff.1 h; exact .td hys
  · obtain ⟨ys, hys, rfl⟩ := Option.map_eq_some_iff.1 h; exact .cps hys
  · obtain ⟨ys, hys, rfl⟩ := Option.map_eq_some_iff.1 h; exact .frame hys
  · cases h

/-- An `HWR` that is not refused writes the one buffer it names, and keeps `STATUS` (20_memory.md R62). -/
theorem hwr_writesOnly {c : Cfg} {b b' : Block} {id off : Nat} {seq : HostData} (h : b.hwr c id off seq = some b') :
    b'.status = b.status ∧ b.WritesOnly (hostWrites (.hwr id off seq)) b' := by
  cases hwr_outcome h with
  | pay => exact ⟨rfl, writesOnly_pay b _⟩
  | crcb => exact ⟨rfl, writesOnly_crcb b _⟩
  | tot => exact ⟨rfl, writesOnly_tot b _⟩
  | cod => exact ⟨rfl, writesOnly_cod b _⟩
  | ilv => exact ⟨rfl, writesOnly_ilv b _⟩
  | syms => exact ⟨rfl, writesOnly_syms b _⟩
  | gridData hg => exact ⟨rfl, writesOnly_gridData hg _⟩
  | gridPilot hg => exact ⟨rfl, writesOnly_gridPilot hg _⟩
  | td => exact ⟨rfl, writesOnly_td b _⟩
  | cps => exact ⟨rfl, writesOnly_cps b _⟩
  | frame => exact ⟨rfl, writesOnly_frame b _⟩

/-- A `CSRW` of a register other than `CMD` writes `START` at most, and keeps `STATUS` (40_control.md R105). -/
theorem csrw_writesOnly (b : Block) (n : Nat) (v : BitVec 32) :
    (b.csrw n v).status = b.status ∧ b.WritesOnly (hostWrites (.csrw n v)) (b.csrw n v) := by
  rcases eq_or_ne n 2 with rfl | hn
  · exact ⟨rfl, writesOnly_start b _⟩
  · rw [show b.csrw n v = b from if_neg hn]
    exact ⟨rfl, writesOnly_refl _ b⟩

end Sys2Proof.Machine
end

section
/-! SUPPORT. One command word and one host step, read backwards: everything either can do to the block (40_control.md R100, R105,
R108; 20_memory.md R62). -/

namespace Sys2Proof.Machine

/-- What a write of `w` to `CMD` can leave of the block `b`: the word is refused, or raises an error, or completes as the
command `i` (40_control.md R100). -/
inductive WordOutcome (c : Cfg) (b : Block) (w : CmdWord) : Block → Prop where
  | refused (ha : b.status.abort = true) : WordOutcome c b w b.refuse
  | raised {e : Code} (hrun : b.status.abort = false) (he : e ≠ .ok) : WordOutcome c b w (b.raise e)
  | completed {i : Instr} {b' : Block} (hw : decode w = .ok i) (hrun : b.status.abort = false ∨ IsReset i)
      (hb : commandBody c b i = .ok b') : WordOutcome c b w (b'.withCode .ok)

/-- Everything a command word can do. -/
theorem issue_outcome {s t : State} {w : CmdWord} (h : s.issue w = .next t) : WordOutcome s.cfg s.blk w t.blk := by
  cases hw : decode w with
  | error r =>
    rw [State.issue_illegal hw] at h
    cases h
    rcases s.blk.illegal_cases with ⟨ha, h⟩ | ⟨ha, h⟩
    · rw [State.withBlk_blk, h]; exact .refused ha
    · rw [State.withBlk_blk, h]; exact .raised ha (by simp)
  | ok i =>
    rw [State.issue_legal hw] at h
    by_cases hi : IsReset i
    · obtain ⟨b', hb, he⟩ := exec_of_isReset hi s
      rw [he] at h
      cases h
      exact .completed hw (.inr hi) hb
    · rw [exec_of_not_isReset hi, State.runBody_eq] at h
      cases h
      rcases s.blk.shell_cases (commandBody s.cfg s.blk i) with ⟨ha, h⟩ | ⟨ha, b', hb, h⟩ | ⟨ha, e, he, h⟩
      · rw [State.withBlk_blk, h]; exact .refused ha
      · rw [State.withBlk_blk, h]; exact .completed hw (.inl ha) hb
      · rw [State.withBlk_blk, h]; exact .raised ha ((commandBody_writesOnly s.cfg s.blk i).error_ne_ok he)

/-- What the host step `h` can leave of the block `b`. -/
inductive StepOutcome (c : Cfg) (b : Block) : HostStep → Block → Prop where
  | word {h : HostStep} {w : CmdWord} {b' : Block} (hw : commandWord h = some w) (ho : WordOutcome c b w b') :
      StepOutcome c b h b'
  | kept (h : HostStep) : StepOutcome c b h b
  | hwr {id off : Nat} {seq : HostData} {b' : Block} (hb : b.hwr c id off seq = some b') :
      StepOutcome c b (.hwr id off seq) b'
  | csrw (n : Nat) (v : BitVec 32) : StepOutcome c b (.csrw n v) (b.csrw n v)

/-- Everything a host step can do to the block. -/
theorem perform_outcome {s t : State} {h : HostStep} (ht : s.perform h = .next t) : StepOutcome s.cfg s.blk h t.blk := by
  cases h with
  | cmd w =>
    obtain ⟨u, hu, rfl⟩ := mapNext_eq_next ht
    exact .word rfl (issue_outcome (t := u) hu)
  | hwr id off seq =>
    cases ht
    unfold State.hostWrite
    split
    · exact .hwr ‹_›
    · exact .kept _
  | hrd id off n =>
    cases ht
    unfold State.hostRead
    split
    · exact .kept _
    · exact .kept _
  | csrw n v =>
    simp only [State.perform, State.hostCsrw] at ht
    split at ht
    · obtain ⟨u, hu, rfl⟩ := mapNext_eq_next ht
      exact .word (if_pos ‹_›) (issue_outcome (t := u) hu)
    · cases ht
      exact .csrw n v
  | csrr n =>
    cases ht
    exact .kept _

/-- Everything a step can do: an outcome for the block, the next index of the host's list, and nothing else but the result. -/
theorem step_outcome {s t : State} (ht : step s = .next t) :
    ∃ h, s.fetch = some h ∧ StepOutcome s.cfg s.blk h t.blk ∧ t.cfg = s.cfg ∧ t.prog = s.prog ∧ t.pc = s.pc + 1 := by
  obtain ⟨h, hf, hp⟩ := step_eq_next ht
  refine ⟨h, hf, perform_outcome hp, ?_⟩
  obtain ⟨b, r, hbr⟩ := s.perform_eq_next h
  rw [hbr] at hp
  cases hp
  exact ⟨rfl, rfl, rfl⟩

/-! What a step changed, and by which word (10_state.md R31, R34). -/

/-- A word that clears `abort` is a reset. -/
theorem WordOutcome.isReset_of_abort_cleared {c : Cfg} {b b' : Block} {w : CmdWord} (h : WordOutcome c b w b')
    (ha : b.status.abort = true) (ha' : b'.status.abort = false) : ∃ i, decode w = .ok i ∧ IsReset i := by
  cases h with
  | refused => simp [ha] at ha'
  | raised hrun => simp [ha] at hrun
  | completed hw hrun hb => exact ⟨_, hw, hrun.resolve_left (by simp [ha])⟩

/-- A step that clears `abort` performed the word of a reset. -/
theorem StepOutcome.isReset_of_abort_cleared {c : Cfg} {b b' : Block} {h : HostStep} (ho : StepOutcome c b h b')
    (ha : b.status.abort = true) (ha' : b'.status.abort = false) : ∃ i, commandWord h = some (encode i) ∧ IsReset i := by
  cases ho with
  | word hw ho =>
    obtain ⟨i, hi, hr⟩ := ho.isReset_of_abort_cleared ha ha'
    exact ⟨i, by rw [hw, encode_of_decode hi], hr⟩
  | kept => simp [ha] at ha'
  | hwr hb => simp [(hwr_writesOnly hb).1, ha] at ha'
  | csrw n v => simp [(csrw_writesOnly b n v).1, ha] at ha'

/-- A word that changes a part is the word of a command whose column names it (30_encoding.md R84). -/
theorem WordOutcome.writer {c : Cfg} {b b' : Block} {w : CmdWord} (h : WordOutcome c b w b') {p : Part}
    (hp : ¬Part.Same b b' p) : ∃ i, decode w = .ok i ∧ p ∈ writes i := by
  cases h with
  | refused => exact absurd (same_withCode_iff.2 (same_refl b p)) hp
  | raised => exact absurd (same_raise b _ p) hp
  | @completed i _ hw _ hb =>
    refine ⟨i, hw, ?_⟩
    by_contra hi
    exact hp (same_withCode_iff.2 (((commandBody_writesOnly c b i).of_ok hb).same p hi))

/-- A step that changes a part is a host access that names it, or the word of a command whose column does. -/
theorem StepOutcome.writer {c : Cfg} {b b' : Block} {h : HostStep} (ho : StepOutcome c b h b') {p : Part}
    (hp : ¬Part.Same b b' p) :
    p ∈ hostWrites h ∨ ∃ i, commandWord h = some (encode i) ∧ i.immediate < 2 ^ 24 ∧ p ∈ writes i := by
  cases ho with
  | word hw ho =>
    obtain ⟨i, hi, hpi⟩ := ho.writer hp
    exact .inr ⟨i, by rw [hw, encode_of_decode hi], immediate_lt_of_decode hi, hpi⟩
  | kept => exact absurd (same_refl b p) hp
  | hwr hb =>
    refine .inl ?_
    by_contra hn
    exact hp ((hwr_writesOnly hb).2.same p hn)
  | csrw n v =>
    refine .inl ?_
    by_contra hn
    exact hp ((csrw_writesOnly b n v).2.same p hn)

/-- Host accesses reach the per-transmission state only (20_memory.md R62, 10_state.md R38). -/
theorem hostWrites_subset_txParts (h : HostStep) : hostWrites h ⊆ txParts := by
  cases h with
  | hwr id off seq => simp only [hostWrites]; split <;> simp [txParts]
  | csrw n v => simp only [hostWrites]; split <;> simp [txParts]
  | cmd w => simp [hostWrites]
  | hrd id off n => simp [hostWrites]
  | csrr n => simp [hostWrites]

/-- A step that changes a part of the run state performed the word of a command whose column names it. -/
theorem runPart_writer {s t : State} {h : HostStep} (hf : s.fetch = some h) (ht : step s = .next t) {p : Part}
    (hrun : p ∉ txParts) (hp : ¬Part.Same s.blk t.blk p) :
    ∃ i, commandWord h = some (encode i) ∧ i.immediate < 2 ^ 24 ∧ p ∈ writes i := by
  rw [step_of_fetch hf] at ht
  exact ((perform_outcome ht).writer hp).resolve_left fun hm => hrun (hostWrites_subset_txParts h hm)

/-- A part of the run state that the command `j` and `RUN_RESET` alone write changes at one of their words. -/
theorem runPart_word {s t : State} {h : HostStep} (hf : s.fetch = some h) (ht : step s = .next t) {p : Part} {j : Instr}
    (hrun : p ∉ txParts) (hj : ∀ {i}, p ∈ writes i → i = j ∨ i = .runReset) (hp : ¬Part.Same s.blk t.blk p) :
    commandWord h = some (encode j) ∨ commandWord h = some (encode .runReset) := by
  obtain ⟨i, hw, -, hi⟩ := runPart_writer hf ht hrun hp
  rcases hj hi with rfl | rfl
  · exact .inl hw
  · exact .inr hw

/-! The commands whose column names a part of the run state. -/

theorem writer_cfo {i : Instr} (h : .cfo ∈ writes i) : i = .cfoTrack ∨ i = .runReset := by
  cases i with
  | cfoTrack | runReset => simp
  | _ => simp [writes, txParts] at h

theorem writer_cpe {i : Instr} (h : .cpe ∈ writes i) : i = .cpeTrack ∨ i = .runReset := by
  cases i with
  | cpeTrack | runReset => simp
  | _ => simp [writes, txParts] at h

theorem writer_sco {i : Instr} (h : .sco ∈ writes i) : i = .scoTrack ∨ i = .runReset := by
  cases i with
  | scoTrack | runReset => simp
  | _ => simp [writes, txParts] at h

theorem writer_scoPrev {i : Instr} (h : .scoPrev ∈ writes i) : i = .scoTrack ∨ i = .runReset := by
  cases i with
  | scoTrack | runReset => simp
  | _ => simp [writes, txParts] at h

theorem writer_pre {i : Instr} (h : .pre ∈ writes i) : i = .preGen ∨ i = .runReset := by
  cases i with
  | preGen | runReset => simp
  | _ => simp [writes, txParts] at h

theorem writer_const {i : Instr} (h : .const ∈ writes i) : (∃ n, i = .constBuild n) ∨ i = .runReset := by
  cases i with
  | constBuild | runReset => simp
  | _ => simp [writes, txParts] at h

end Sys2Proof.Machine
end

section
/-! SUPPORT. The invariant of the block (`Block.Ok`): each write that keeps it, and the condition under which it does. -/

namespace Sys2Proof.Machine

section
variable {c : Cfg} {b : Block}

theorem lenAtMost_some {α : Type} {m : Nat} {xs : List α} (h : xs.length ≤ m) : lenAtMost m (some xs) := by
  rintro _ ⟨⟩; exact h

theorem lenExactly_some {α : Type} {m : Nat} {xs : List α} (h : xs.length = m) : lenExactly m (some xs) := by
  rintro _ ⟨⟩; exact h

/-! One write to a buffer or a register. -/

theorem Block.Ok.set_pay (h : b.Ok c) {x : List Bit} (hx : x.length ≤ c.capBits) : Block.Ok c { b with pay := some x } :=
  { h with pay_cap := lenAtMost_some hx }

theorem Block.Ok.set_crcb (h : b.Ok c) (x : Option (List Bit)) : Block.Ok c { b with crcb := x } := { h with }

theorem Block.Ok.set_tot (h : b.Ok c) {x : List Bit} (hx : x.length ≤ c.capBits) : Block.Ok c { b with tot := some x } :=
  { h with tot_cap := lenAtMost_some hx }

theorem Block.Ok.set_cod (h : b.Ok c) {x : List Bit} (hx : x.length ≤ c.capBits) : Block.Ok c { b with cod := some x } :=
  { h with cod_cap := lenAtMost_some hx }

theorem Block.Ok.set_ilv (h : b.Ok c) {x : List Bit} (hx : x.length ≤ c.capBits) : Block.Ok c { b with ilv := some x } :=
  { h with ilv_cap := lenAtMost_some hx }

theorem Block.Ok.set_syms (h : b.Ok c) {x : List Cplx} (hx : x.length ≤ c.capSyms) : Block.Ok c { b with syms := some x } :=
  { h with syms_cap := lenAtMost_some hx }

theorem Block.Ok.set_grid (h : b.Ok c) {g : Grid} (hd : g.data.length = c.nSym * c.nSc)
    (hp : g.pilot.length = c.nSym * c.nPil) : Block.Ok c { b with grid := some g } :=
  { h with
    grid_data_size := by rintro _ ⟨⟩; exact hd
    grid_pilot_size := by rintro _ ⟨⟩; exact hp }

theorem Block.Ok.set_gridData (h : b.Ok c) {g : Grid} (hg : b.grid = some g) {x : List Cplx}
    (hx : x.length = g.data.length) : Block.Ok c { b with grid := some { g with data := x } } :=
  h.set_grid (hx.trans (h.grid_data_size g hg)) (h.grid_pilot_size g hg)

theorem Block.Ok.set_gridPilot (h : b.Ok c) {g : Grid} (hg : b.grid = some g) {x : List Cplx}
    (hx : x.length = g.pilot.length) : Block.Ok c { b with grid := some { g with pilot := x } } :=
  h.set_grid (h.grid_data_size g hg) (hx.trans (h.grid_pilot_size g hg))

theorem Block.Ok.set_td (h : b.Ok c) {x : List Cplx} (hx : x.length = c.nSym * c.nFft) :
    Block.Ok c { b with td := some x } := { h with td_size := lenExactly_some hx }

theorem Block.Ok.set_cps (h : b.Ok c) {x : List Cplx} (hx : x.length ≤ c.capFrame) : Block.Ok c { b with cps := some x } :=
  { h with cps_cap := lenAtMost_some hx }

theorem Block.Ok.set_pre (h : b.Ok c) {x : List Cplx} (hx : x.length = c.lPre) : Block.Ok c { b with pre := some x } :=
  { h with pre_size := lenExactly_some hx }

theorem Block.Ok.set_frame (h : b.Ok c) {x : List Cplx} (hx : x.length ≤ c.capFrame) :
    Block.Ok c { b with frame := some x } := { h with frame_cap := lenAtMost_some hx }

theorem Block.Ok.set_const (h : b.Ok c) {k : Const} (hk : k.Ok) : Block.Ok c { b with const := some k } :=
  { h with const_ok := by rintro _ ⟨⟩; exact hk }

theorem Block.Ok.set_start (h : b.Ok c) {n : Nat} (hn : c.capFrame < 2 ^ 32 → c.fallbackStart < 2 ^ 32 → n < 2 ^ 32) :
    Block.Ok c { b with start := n } := { h with start_fits := hn }

theorem Block.Ok.set_score (h : b.Ok c) (x : Num) : Block.Ok c { b with score := x } := { h with }

theorem Block.Ok.set_cfo (h : b.Ok c) (t : Tracker) : Block.Ok c { b with cfo := t } := { h with }

theorem Block.Ok.set_cpe (h : b.Ok c) (t : Tracker) : Block.Ok c { b with cpe := t } := { h with }

/-- The SCO record and the stored pilots are written together (46_sync_trackers.md R237). -/
theorem Block.Ok.set_sco (h : b.Ok c) {t : ScoTracker} {x : List Cplx} (ht : t.trk.init = true ↔ 0 < t.nupd)
    (hx : x.length = c.nSym * c.nPil) : Block.Ok c { b with sco := t, scoPrev := some x } :=
  { h with scoPrev_size := lenExactly_some hx, sco_init_iff := ht, sco_init_prev := fun _ => rfl }

/-! One write to `STATUS` (10_state.md R31). -/

/-- A flag other than `crc_fail` is written freely. -/
theorem Block.Ok.set_status (h : b.Ok c) {st : Status} (hc : st.code = b.status.code) (ha : st.abort = b.status.abort)
    (hf : st.crcFail = b.status.crcFail) : Block.Ok c { b with status := st } :=
  { h with
    abort_iff := by simpa [hc, ha] using h.abort_iff
    valid_no_fail := by simpa [hf] using h.valid_no_fail }

theorem Block.Ok.withValidity (h : b.Ok c) (ok : Bool) : (b.withValidity ok).Ok c :=
  { h with valid_no_fail := by simp }

theorem Block.Ok.withCode_ok (h : b.Ok c) (ha : b.status.abort = false) : (b.withCode .ok).Ok c :=
  { h with abort_iff := by simp [ha] }

theorem Block.Ok.refuse (h : b.Ok c) (ha : b.status.abort = true) : b.refuse.Ok c := { h with abort_iff := by simp [ha] }

theorem Block.Ok.raise (h : b.Ok c) {e : Code} (he : e ≠ .ok) : (b.raise e).Ok c :=
  { h with abort_iff := by simp [Status.raised, he] }

/-! The resets (40_control.md R102, R103). -/

theorem reset_ok (c : Cfg) : Block.reset.Ok c := by
  constructor <;> simp [lenAtMost, lenExactly, Block.reset, Status.reset, ScoTracker.reset, Tracker.reset]

theorem Block.Ok.txReset (h : b.Ok c) : b.txReset.Ok c :=
  { reset_ok c with
    pre_size := h.pre_size, const_ok := h.const_ok, scoPrev_size := h.scoPrev_size
    sco_init_iff := h.sco_init_iff, sco_init_prev := h.sco_init_prev }

/-! The commands that write more than one part. -/

theorem Block.Ok.detection (h : b.Ok c) {n : Nat} (hn : c.capFrame < 2 ^ 32 → c.fallbackStart < 2 ^ 32 → n < 2 ^ 32)
    (x : Num) (fb : Bool) : Block.Ok c { b with start := n, score := x, status := b.status.withDetFallback fb } :=
  ((h.set_start hn).set_score x).set_status rfl rfl rfl

theorem Block.Ok.withDetection (h : b.Ok c) {f : Found} (hf : ∀ d, f.best = some d → d + c.lPre ≤ c.capFrame) :
    (b.withDetection c f).Ok c := by
  rcases withDetection_cases c b f with ⟨d, hd, -, hw⟩ | ⟨-, hw⟩
  · have hstart := hf d hd
    exact hw ▸ h.detection (fun hcap _ => by omega) _ _
  · exact hw ▸ h.detection (fun _ hfb => hfb) _ _

theorem Block.Ok.cfoTracked (h : b.Ok c) {g : Grid} (hg : b.grid = some g) : (b.cfoTracked c g).Ok c := by
  obtain ⟨t, ht | ht⟩ := cfoTracked_cases c b g
  · rw [ht]
    exact (h.set_cfo t).set_status rfl rfl rfl
  · rw [ht]
    have hgrid := h.set_grid (g := cfoRotate c t.filt g) (by simp [h.grid_data_size g hg]) (by simp [h.grid_pilot_size g hg])
    exact (hgrid.set_cfo t).set_status rfl rfl rfl

theorem Block.Ok.cpeTracked (h : b.Ok c) {g : Grid} (hg : b.grid = some g) : (b.cpeTracked c g).Ok c := by
  obtain ⟨t, ht | ht⟩ := cpeTracked_cases c b g
  · rw [ht]
    exact (h.set_cpe t).set_status rfl rfl rfl
  · rw [ht]
    exact ((h.set_gridData hg (rotateData_length ..)).set_cpe t).set_status rfl rfl rfl

/-- The filter of the SCO record is seeded exactly when an update has been counted (46_sync_trackers.md R233, R237). -/
theorem Block.ScoRecord.init_iff {t : ScoTracker} (ht : b.ScoRecord c t) (h : b.Ok c) :
    t.trk.init = true ↔ 0 < t.nupd := by
  rcases ht with ⟨n, rfl⟩ | ⟨new, n, rfl⟩
  · exact h.sco_init_iff
  · simp

theorem Block.Ok.scoTracked (h : b.Ok c) {g : Grid} (hg : b.grid = some g) : (b.scoTracked c g).Ok c := by
  obtain ⟨t, hrec, ht | ht⟩ := scoTracked_cases c b g
  · rw [ht]
    exact (h.set_sco (hrec.init_iff h) (h.grid_pilot_size g hg)).set_status rfl rfl rfl
  · rw [ht]
    have hgrid := h.set_gridData hg (rotateData_length c (scoFactor c t.acc) g.data)
    exact (hgrid.set_sco (hrec.init_iff h) (h.grid_pilot_size g hg)).set_status rfl rfl rfl

/-! The commands of the Transport Block Codec. -/

theorem tbSplitBody_keeps_ok (h : b.Ok c) : EndsIn (Block.Ok c) (tbSplitBody b) := by
  refine (tbSplitBody_endsIn b).mono ?_
  rintro _ ⟨t, ht, -, rfl⟩
  have := h.tot_cap t ht
  exact (h.set_pay (by simp; omega)).set_crcb _

theorem majorityBody_keeps_ok (h : b.Ok c) : EndsIn (Block.Ok c) (majorityBody c b) := by
  refine (majorityBody_endsIn c b).mono ?_
  rintro _ ⟨y, hy, -, rfl⟩
  exact h.set_tot (by simpa using (Nat.div_le_self _ _).trans (h.cod_cap y hy))

theorem interleaveBody_keeps_ok (h : b.Ok c) : EndsIn (Block.Ok c) (interleaveBody c b) := by
  refine (interleaveBody_endsIn c b).mono ?_
  rintro _ ⟨x, hx, hn, rfl⟩
  exact h.set_ilv (by simpa [← hn] using h.cod_cap x hx)

theorem deinterleaveBody_keeps_ok (h : b.Ok c) : EndsIn (Block.Ok c) (deinterleaveBody c b) := by
  refine (deinterleaveBody_endsIn c b).mono ?_
  rintro _ ⟨y, hy, hn, rfl⟩
  exact h.set_cod (by simpa [← hn] using h.ilv_cap y hy)

theorem tbBuildBody_keeps_ok (h : b.Ok c) : EndsIn (Block.Ok c) (tbBuildBody c b) := by
  refine (tbBuildBody_endsIn c b).mono ?_
  rintro _ ⟨p, r, t, d, -, -, -, -, ht, hd, hn, rfl⟩
  exact (((h.set_crcb _).set_tot ht).set_cod hd).set_ilv (by simpa [← hn] using hd)

theorem tbProcessBody_keeps_ok (h : b.Ok c) : EndsIn (Block.Ok c) (tbProcessBody c b) := by
  refine (tbProcessBody_endsIn c b).mono ?_
  rintro _ ⟨y, d, t, hy, hn, hd, -, ht, -, rfl⟩
  have hdlen : d.length ≤ c.capBits := by simpa [hd, ← hn] using h.ilv_cap y hy
  have htlen : t.length ≤ c.capBits := by simpa [ht] using (Nat.div_le_self _ _).trans hdlen
  exact ((((h.set_cod hdlen).set_tot htlen).set_pay (by simp; omega)).set_crcb _).withValidity _

/-! The commands of the other units whose result's size needs an argument. -/

theorem demodulateBody_keeps_ok (h : b.Ok c) : EndsIn (Block.Ok c) (demodulateBody c b) := by
  refine (demodulateBody_endsIn c b).mono ?_
  rintro _ ⟨ys, k, -, hk, hn, rfl⟩
  exact h.set_ilv (by rwa [demodulateSyms_length (h.const_ok k hk), Nat.mul_comm])

theorem frameBuildBody_keeps_ok (h : b.Ok c) : EndsIn (Block.Ok c) (frameBuildBody c b) := by
  refine (frameBuildBody_endsIn c b).mono ?_
  rintro _ ⟨p, y, hp, -, hy, hn, rfl⟩
  have := h.pre_size p hp
  exact h.set_frame (by rwa [List.length_append, this, hy])

theorem frameDetectBody_keeps_ok (h : b.Ok c) : EndsIn (Block.Ok c) (frameDetectBody c b) := by
  refine (frameDetectBody_endsIn c b).mono ?_
  rintro _ ⟨p, r, -, hr, rfl⟩
  have := h.frame_cap r hr
  exact h.withDetection fun d hd => by have := detect_best_lt hd; omega

theorem frameExtractBody_keeps_ok (h : b.Ok c) : EndsIn (Block.Ok c) (frameExtractBody c b) := by
  refine (frameExtractBody_endsIn c b).mono ?_
  rintro _ ⟨r, hr, hn, rfl⟩
  have := h.frame_cap r hr
  exact h.set_cps (by simp; omega)

/-- A body that completes keeps the invariant. -/
theorem commandBody_keeps_ok (h : b.Ok c) (i : Instr) : EndsIn (Block.Ok c) (commandBody c b i) := by
  cases i with
  | nop => exact h
  | txReset => exact h.txReset
  | runReset => exact reset_ok c
  | crcGen => exact (crcGenBody_endsIn c b).mono fun | _, ⟨_, _, rfl⟩ => h.set_crcb _
  | crcVerify => exact (crcVerifyBody_endsIn c b).mono fun | _, ⟨_, _, rfl⟩ => h.withValidity _
  | tbAppend => exact (tbAppendBody_endsIn c b).mono fun | _, ⟨_, _, _, _, hn, rfl⟩ => h.set_tot (by simpa using hn)
  | tbSplit => exact tbSplitBody_keeps_ok h
  | repeatBits => exact (repeatBody_endsIn c b).mono fun | _, ⟨_, _, hn, rfl⟩ => h.set_cod (by simpa using hn)
  | majority => exact majorityBody_keeps_ok h
  | interleave => exact interleaveBody_keeps_ok h
  | deinterleave => exact deinterleaveBody_keeps_ok h
  | tbBuild => exact tbBuildBody_keeps_ok h
  | tbProcess => exact tbProcessBody_keeps_ok h
  | constBuild n => exact (constBuildBody_endsIn c n b).mono fun | _, ⟨hs, rfl⟩ => h.set_const (buildConst_ok hs)
  | modulate => exact (modulateBody_endsIn c b).mono fun | _, ⟨_, _, _, _, _, hn, rfl⟩ => h.set_syms (by simpa using hn)
  | demodulate => exact demodulateBody_keeps_ok h
  | gridInit => exact h.set_grid (by simp [freshGrid]) (by simp [freshGrid])
  | gridMap => exact (gridMapBody_endsIn c b).mono fun | _, ⟨_, _, _, hg, _, rfl⟩ => h.set_gridData hg (by simp)
  | gridExtract n =>
    exact (gridExtractBody_endsIn c n b).mono fun | _, ⟨_, _, _, hn, rfl⟩ => h.set_syms (by simpa using hn)
  | grid2td => exact (grid2tdBody_endsIn c b).mono fun | _, ⟨_, _, rfl⟩ => h.set_td (by simp)
  | td2grid => exact (td2gridBody_endsIn c b).mono fun | _, ⟨_, _, rfl⟩ => h.set_grid (by simp) (by simp)
  | preGen => exact h.set_pre (by simp)
  | cpAdd => exact (cpAddBody_endsIn c b).mono fun | _, ⟨_, _, hn, rfl⟩ => h.set_cps ((addCps_length_le c _).trans hn)
  | cpRemove => exact (cpRemoveBody_endsIn c b).mono fun | _, ⟨_, _, hy, rfl⟩ => h.set_td (removeCps_length hy)
  | frameBuild => exact frameBuildBody_keeps_ok h
  | frameDetect => exact frameDetectBody_keeps_ok h
  | frameExtract => exact frameExtractBody_keeps_ok h
  | cfoTrack => exact (cfoTrackBody_endsIn c b).mono fun | _, ⟨_, hg, rfl⟩ => h.cfoTracked hg
  | cpeTrack => exact (cpeTrackBody_endsIn c b).mono fun | _, ⟨_, hg, rfl⟩ => h.cpeTracked hg
  | scoTrack => exact (scoTrackBody_endsIn c b).mono fun | _, ⟨_, hg, rfl⟩ => h.scoTracked hg

/-! The host's accesses (20_memory.md R62, R63). -/

theorem writeInside_length {α : Type} {xs seq ys : List α} {off : Nat} (h : writeInside (some xs) off seq = some ys) :
    ys.length = xs.length := by
  obtain ⟨_, ⟨⟩, -, -, hlen⟩ := writeInside_eq_some h
  exact hlen

theorem writeVariable_length_le {α : Type} {m : Nat} {buf : Option (List α)} {off : Nat} {seq ys : List α}
    (hbuf : lenAtMost m buf) (h : writeVariable (some m) buf off seq = some ys) : ys.length ≤ m := by
  rcases writeVariable_eq_some h with ⟨-, rfl, hm⟩ | ⟨-, xs, hxs, -, -, hlen⟩
  · exact hm m rfl
  · exact hlen ▸ hbuf xs hxs

theorem writeFixed_length {α : Type} {m : Nat} {buf : Option (List α)} {off : Nat} {seq ys : List α}
    (hbuf : lenExactly m buf) (h : writeFixed m buf off seq = some ys) : ys.length = m := by
  rcases writeFixed_eq_some h with ⟨-, hm, rfl⟩ | ⟨xs, hxs, -, -, hlen⟩
  · exact hm
  · exact hlen ▸ hbuf xs hxs

theorem HwrOutcome.keeps_ok {b' : Block} {id off : Nat} {seq : HostData} (ho : HwrOutcome c b off id seq b') (h : b.Ok c) :
    b'.Ok c := by
  cases ho with
  | pay hw => exact h.set_pay (writeVariable_length_le h.pay_cap hw)
  | crcb hw => exact h.set_crcb _
  | tot hw => exact h.set_tot (writeVariable_length_le h.tot_cap hw)
  | cod hw => exact h.set_cod (writeVariable_length_le h.cod_cap hw)
  | ilv hw => exact h.set_ilv (writeVariable_length_le h.ilv_cap hw)
  | syms hw => exact h.set_syms (writeVariable_length_le h.syms_cap hw)
  | gridData hg hw => exact h.set_gridData hg (writeInside_length hw)
  | gridPilot hg hw => exact h.set_gridPilot hg (writeInside_length hw)
  | td hw => exact h.set_td (writeFixed_length h.td_size hw)
  | cps hw => exact h.set_cps (writeVariable_length_le h.cps_cap hw)
  | frame hw => exact h.set_frame (writeVariable_length_le h.frame_cap hw)

theorem Block.Ok.csrw (h : b.Ok c) (n : Nat) (v : BitVec 32) : (b.csrw n v).Ok c := by
  unfold Block.csrw
  split
  · exact h.set_start fun _ _ => v.isLt
  · exact h

/-! Words and steps. -/

/-- A block is running after a command that completed: the command ran because the block was, or it was a reset. -/
theorem running_of_completed {b' : Block} {i : Instr} (hrun : b.status.abort = false ∨ IsReset i)
    (hb : commandBody c b i = .ok b') : b'.status.abort = false := by
  rcases hrun with ha | rfl | rfl
  · exact ((commandBody_writesOnly c b i).of_ok hb).running ha
  · cases hb; rfl
  · cases hb; rfl

theorem WordOutcome.keeps_ok {b' : Block} {w : CmdWord} (ho : WordOutcome c b w b') (h : b.Ok c) : b'.Ok c := by
  cases ho with
  | refused ha => exact h.refuse ha
  | raised _ he => exact h.raise he
  | completed _ hrun hb => exact ((commandBody_keeps_ok h _).of_ok hb).withCode_ok (running_of_completed hrun hb)

theorem StepOutcome.keeps_ok {b' : Block} {e : HostStep} (ho : StepOutcome c b e b') (h : b.Ok c) : b'.Ok c := by
  cases ho with
  | word _ hw => exact hw.keeps_ok h
  | kept => exact h
  | hwr hb => exact (hwr_outcome hb).keeps_ok h
  | csrw n v => exact h.csrw n v

theorem pc_lt_of_fetch {s : State} {e : HostStep} (h : s.fetch = some e) : s.pc < s.prog.length :=
  (List.getElem?_eq_some_iff.1 h).1

end

end Sys2Proof.Machine
end

section
/-! Obligations of 10_state.md: the state after reset, the invariant, and what only the resets or a unit's own command change. -/

namespace Sys2Proof.Machine

/-- Settles O15: every outcome of a step keeps the block's invariant, and the index moves from inside the list by one. -/
theorem stepKeepsInv : Obligations.StepKeepsInv := by
  intro s t hs ht
  obtain ⟨e, hf, ho, hcfg, hprog, hpc⟩ := step_outcome ht
  have hlt := pc_lt_of_fetch hf
  exact ⟨hcfg ▸ ho.keeps_ok hs.blk_ok, by rw [hprog, hpc]; omega⟩

/-- Settles O19. -/
theorem abortClearedOnlyByResets : Obligations.AbortClearedOnlyByResets := by
  intro s t ht ha ha'
  obtain ⟨e, hf, ho, -⟩ := step_outcome ht
  obtain ⟨i, hw, rfl | rfl⟩ := ho.isReset_of_abort_cleared ha ha'
  · exact ⟨e, hf, .inl hw⟩
  · exact ⟨e, hf, .inr hw⟩

/-- Settles O20: a part of the run state changes at the word of a command whose column names it, and these are its own command
and `RUN_RESET`. -/
theorem runStateChangesOnlyByItsCommands : Obligations.RunStateChangesOnlyByItsCommands := by
  intro s t h hf ht
  refine ⟨runPart_word hf ht (p := .cfo) (by decide) writer_cfo, runPart_word hf ht (p := .cpe) (by decide) writer_cpe,
    runPart_word hf ht (p := .sco) (by decide) writer_sco, runPart_word hf ht (p := .scoPrev) (by decide) writer_scoPrev,
    runPart_word hf ht (p := .pre) (by decide) writer_pre, fun hne => ?_⟩
  obtain ⟨i, hw, himm, hi⟩ := runPart_writer hf ht (p := .const) (by decide) hne
  rcases writer_const hi with ⟨n, rfl⟩ | rfl
  · exact .inl ⟨n, himm, by rw [hw, encode_constBuild (n := n) himm]⟩
  · exact .inr hw

/-! After reset every buffer is invalid and every register reads 0 (10_state.md R36). -/

theorem content_reset (id : Nat) : Block.reset.content id = none := by
  unfold Block.content
  split <;> rfl

theorem csrr_reset (n : Nat) : Block.reset.csrr n = .nat 0 ∨ Block.reset.csrr n = .real Num.zero := by
  unfold Block.csrr
  split
  case h_3 | h_6 | h_7 | h_10 | h_11 | h_14 | h_15 | h_18 => exact .inr rfl
  all_goals exact .inl rfl

/-- Settles O13. -/
theorem resetState : Obligations.ResetState :=
  ⟨content_reset, by decide, csrr_reset, by decide, fun _ => rfl⟩

/-- Settles O14. -/
theorem invAtReset : Obligations.InvAtReset := ⟨reset_ok _, Nat.le_refl 0⟩

end Sys2Proof.Machine
end

section
/-! SUPPORT. The elements a host access moves, said once for bits and for samples: what a read returns, and what a write that is
not refused leaves in the buffer it names (20_memory.md R62, R63). -/

namespace Sys2Proof.Machine

/-! Reads of an element sequence. -/

/-- `wrap` is one of the two element types of the host port, a sequence of bits or of samples (20_memory.md R60). -/
structure ElementType {α : Type} (wrap : List α → HostData) : Prop where
  len : ∀ xs, (wrap xs).len = xs.length
  read : ∀ xs off n, (wrap xs).read off n = if off + n ≤ xs.length then some (wrap (slice xs off n)) else none

theorem elementType_bits : ElementType HostData.bits := ⟨fun _ => rfl, fun _ _ _ => rfl⟩

theorem elementType_samples : ElementType HostData.samples := ⟨fun _ => rfl, fun _ _ _ => rfl⟩

theorem slice_one {α : Type} (xs : List α) (i : Nat) : slice xs i 1 = xs[i]?.toList := by
  rw [slice, List.take_one, List.head?_drop]

theorem slice_all {α : Type} (xs : List α) : slice xs 0 xs.length = xs := by simp [slice]

/-- What is read where `seq` was written is `seq`. -/
theorem slice_overwrite {α : Type} {xs seq : List α} {off : Nat} (h : off + seq.length ≤ xs.length) :
    slice (overwrite xs off seq) off seq.length = seq := by
  refine List.ext_getElem? fun i => ?_
  rcases Nat.lt_or_ge i seq.length with hi | hi
  · rw [slice_getElem? _ hi, overwrite_getElem? h, if_pos (by omega), Nat.add_sub_cancel_left]
  · rw [List.getElem?_eq_none (by simp; omega), List.getElem?_eq_none hi]

section
variable {α : Type} {wrap : List α → HostData}

theorem ElementType.read_one (hw : ElementType wrap) (xs : List α) (i : Nat) :
    (wrap xs).read i 1 = xs[i]?.map fun x => wrap [x] := by
  rw [hw.read, slice_one]
  split
  case isTrue h => simp [List.getElem?_eq_getElem h]
  case isFalse h => simp [List.getElem?_eq_none (Nat.not_lt.1 h)]

/-- A read that stays inside returns the elements from `off` on. -/
theorem ElementType.read_inside (hw : ElementType wrap) {xs : List α} {off n : Nat} (h : off + n ≤ (wrap xs).len) :
    ∃ r, (wrap xs).read off n = some r ∧ r.len = n ∧ ∀ i < n, r.read i 1 = (wrap xs).read (off + i) 1 := by
  rw [hw.len] at h
  refine ⟨wrap (slice xs off n), by rw [hw.read, if_pos h], by rw [hw.len, slice_length]; omega, fun i hi => ?_⟩
  rw [hw.read_one, hw.read_one, slice_getElem? _ hi]

theorem ElementType.read_beyond (hw : ElementType wrap) {xs : List α} {off n : Nat} (h : (wrap xs).len < off + n) :
    (wrap xs).read off n = none := by
  rw [hw.len] at h
  rw [hw.read, if_neg (by omega)]

end

theorem HostData.read_inside {d : HostData} {off n : Nat} (h : off + n ≤ d.len) :
    ∃ r, d.read off n = some r ∧ r.len = n ∧ ∀ i < n, r.read i 1 = d.read (off + i) 1 := by
  cases d with
  | bits xs => exact elementType_bits.read_inside h
  | samples xs => exact elementType_samples.read_inside h

theorem HostData.read_beyond {d : HostData} {off n : Nat} (h : d.len < off + n) : d.read off n = none := by
  cases d with
  | bits xs => exact elementType_bits.read_beyond h
  | samples xs => exact elementType_samples.read_beyond h

/-! The step of an `HRD`. -/

theorem hrd_of_content {b : Block} {id : Nat} {d : HostData} (h : b.content id = some d) (off n : Nat) :
    b.hrd id off n = d.read off n := by simp [Block.hrd, h]

theorem hrd_invalid {b : Block} {id : Nat} (h : b.content id = none) (off n : Nat) : b.hrd id off n = none := by
  simp [Block.hrd, h]

theorem step_hrd_returned {s : State} {id off n : Nat} {r : HostData} (hf : s.fetch = some (.hrd id off n))
    (h : s.blk.hrd id off n = some r) : step s = .next (s.advance (.data r)) := by
  simp [step_of_fetch hf, State.perform, State.hostRead, h]

theorem step_hrd_refused {s : State} {id off n : Nat} (hf : s.fetch = some (.hrd id off n))
    (h : s.blk.hrd id off n = none) : step s = .next (s.advance .refusedAccess) := by
  simp [step_of_fetch hf, State.perform, State.hostRead, h]

/-- The tuples of the constellation as the host reads them: bit `j` of tuple `i` lies at `i·b + j` (10_state.md R23). -/
theorem Const.Ok.flatten_tup {k : Const} (h : k.Ok) :
    k.tup.flatten.length = 2 ^ k.b * k.b ∧
      ∀ i j, j < k.b → k.tup.flatten[i * k.b + j]? = k.tup[i]?.bind fun t => t[j]? := by
  rw [← List.flatMap_id, ← h.tup_size]
  exact ⟨flatMap_length_of k.tup h.tup_bits, fun i j hj => flatMap_getElem? k.tup h.tup_bits hj⟩

/-- No buffer has an id above 14 (10_state.md R23). -/
theorem content_of_ge {id : Nat} (h : 15 ≤ id) (b : Block) : b.content id = none := by
  unfold Block.content
  split
  case h_16 => rfl
  all_goals omega

/-! When a write is not refused. -/

section
variable {α : Type} {buf : Option (List α)} {off : Nat} {seq : List α}

theorem writeInside_isSome : (writeInside buf off seq).isSome ↔ insideValid buf off seq.length := by
  cases buf with
  | none => simp [writeInside]
  | some xs => simp [writeInside, insideValid]

theorem writeVariable_isSome {cap : Option Nat} :
    (writeVariable cap buf off seq).isSome ↔ fitsVariable cap buf off seq.length := by
  unfold writeVariable
  split
  case isTrue h =>
    cases cap with
    | none => simp [fitsVariable, h]
    | some m => simp [fitsVariable, h]
  case isFalse h => rw [writeInside_isSome, fitsVariable, and_iff_right (Nat.pos_of_ne_zero h)]; simp [h]

theorem writeFixed_isSome {size : Nat} :
    (writeFixed size buf off seq).isSome ↔ (off = 0 ∧ seq.length = size) ∨ insideValid buf off seq.length := by
  unfold writeFixed
  split
  case isTrue h => simp [h]
  case isFalse h => rw [writeInside_isSome, or_iff_right h]

end

/-- The conditions of 20_memory.md R62 and R63 are those under which `HWR` acts. -/
theorem hwr_isSome_iff (c : Cfg) (b : Block) (id off : Nat) (seq : HostData) :
    (b.hwr c id off seq).isSome ↔ hostWriteAllowed c b id off seq := by
  unfold Block.hwr
  split
  case h_1 | h_2 | h_3 | h_4 | h_5 | h_6 | h_10 | h_11 => rw [Option.isSome_map]; exact writeVariable_isSome
  case h_7 | h_8 =>
    cases hg : b.grid with
    | none => simp [hostWriteAllowed, hg]
    | some g => rw [Option.isSome_map, writeInside_isSome]; simp [hostWriteAllowed, hg]
  case h_9 => rw [Option.isSome_map]; exact writeFixed_isSome
  case h_12 => simp [hostWriteAllowed]

/-! What a write leaves. -/

/-- What the buffer holds (`d`) after `seq` was written at `off` to what it held before (`old?`, nothing where it was invalid);
`fixed` says that the buffer has a fixed shape (20_memory.md R62). -/
structure Wrote (fixed : Prop) (old? : Option HostData) (off : Nat) (seq d : HostData) : Prop where
  written : d.read off seq.len = some seq
  whole : off = 0 → ¬fixed ∨ old? = none → d = seq
  others : ∀ old, old? = some old → 0 < off ∨ fixed →
    d.len = old.len ∧ ∀ i, i < off ∨ off + seq.len ≤ i → d.read i 1 = old.read i 1

section
variable {α : Type} {wrap : List α → HostData} {fixed : Prop} {buf : Option (List α)} {off : Nat} {seq ys : List α}

/-- A write over elements inside the buffer. -/
theorem ElementType.wrote_overwrite (hw : ElementType wrap) {xs : List α} (h : off + seq.length ≤ xs.length)
    (hf : 0 < off ∨ fixed) : Wrote fixed (some (wrap xs)) off (wrap seq) (wrap (overwrite xs off seq)) where
  written := by rw [hw.len, hw.read, overwrite_length h, if_pos h, slice_overwrite h]
  whole h0 hn := absurd hf (by simp [h0, hn.resolve_right (by simp)])
  others := by
    rintro _ ⟨⟩ -
    refine ⟨by rw [hw.len, hw.len, overwrite_length h], fun i hi => ?_⟩
    rw [hw.len] at hi
    rw [hw.read_one, hw.read_one, overwrite_getElem? h, if_neg (by omega)]

/-- A write of the whole buffer, of the old length where the shape is fixed. -/
theorem ElementType.wrote_whole (hw : ElementType wrap) (h : fixed → ∀ xs, buf = some xs → xs.length = seq.length) :
    Wrote fixed (buf.map wrap) 0 (wrap seq) (wrap seq) where
  written := by rw [hw.len, hw.read, if_pos (by omega), slice_all]
  whole _ _ := rfl
  others := by
    rintro old hold hf
    obtain ⟨xs, hxs, rfl⟩ := Option.map_eq_some_iff.1 hold
    have hlen : xs.length = seq.length := h (hf.resolve_left (by simp)) xs hxs
    refine ⟨by rw [hw.len, hw.len, hlen], fun i hi => ?_⟩
    rw [hw.len] at hi
    rw [hw.read_one, hw.read_one, List.getElem?_eq_none (by omega), List.getElem?_eq_none (by omega)]

theorem ElementType.wrote_inside (hw : ElementType wrap) (hf : 0 < off ∨ fixed) (h : writeInside buf off seq = some ys) :
    Wrote fixed (buf.map wrap) off (wrap seq) (wrap ys) := by
  obtain ⟨xs, rfl, hle, rfl, -⟩ := writeInside_eq_some h
  exact hw.wrote_overwrite hle hf

theorem ElementType.wrote_variable (hw : ElementType wrap) {cap : Option Nat} (hf : ¬fixed)
    (h : writeVariable cap buf off seq = some ys) : Wrote fixed (buf.map wrap) off (wrap seq) (wrap ys) := by
  rcases writeVariable_eq_some h with ⟨rfl, rfl, -⟩ | ⟨hoff, xs, rfl, hle, rfl, -⟩
  · exact hw.wrote_whole fun hfix => absurd hfix hf
  · exact hw.wrote_overwrite hle (.inl hoff)

theorem ElementType.wrote_fixed (hw : ElementType wrap) {size : Nat} (hf : fixed) (hbuf : lenExactly size buf)
    (h : writeFixed size buf off seq = some ys) : Wrote fixed (buf.map wrap) off (wrap seq) (wrap ys) := by
  rcases writeFixed_eq_some h with ⟨rfl, hlen, rfl⟩ | ⟨xs, rfl, hle, rfl, -⟩
  · exact hw.wrote_whole fun _ xs hxs => (hbuf xs hxs).trans hlen.symm
  · exact hw.wrote_overwrite hle (.inr hf)

end

/-- An `HWR` that is not refused leaves its elements in the buffer it names. -/
theorem HwrOutcome.wrote {c : Cfg} {b b' : Block} {id off : Nat} {seq : HostData} (ho : HwrOutcome c b off id seq b')
    (hok : b.Ok c) : ∃ d, b'.content id = some d ∧ Wrote (fixedShape id) (b.content id) off seq d := by
  cases ho with
  | pay h | crcb h | tot h | cod h | ilv h => exact ⟨_, rfl, elementType_bits.wrote_variable (by decide) h⟩
  | syms h | cps h | frame h => exact ⟨_, rfl, elementType_samples.wrote_variable (by decide) h⟩
  | gridData hg h | gridPilot hg h =>
    refine ⟨_, rfl, ?_⟩
    simpa [Block.content, hg] using elementType_samples.wrote_inside (.inr (by decide)) h
  | td h => exact ⟨_, rfl, elementType_samples.wrote_fixed (by decide) hok.td_size h⟩

/-! The step of an `HWR`. -/

theorem step_hwr_done {s : State} {id off : Nat} {seq : HostData} {b : Block} (hf : s.fetch = some (.hwr id off seq))
    (h : s.blk.hwr s.cfg id off seq = some b) : step s = .next ((s.withBlk b).advance .done) := by
  simp [step_of_fetch hf, State.perform, State.hostWrite, h]

theorem step_hwr_refused {s : State} {id off : Nat} {seq : HostData} (hf : s.fetch = some (.hwr id off seq))
    (h : s.blk.hwr s.cfg id off seq = none) : step s = .next (s.advance .refusedAccess) := by
  simp [step_of_fetch hf, State.perform, State.hostWrite, h]

/-! The frame of a host step that is no command word. -/

theorem StepOutcome.frame {c : Cfg} {b b' : Block} {h : HostStep} (ho : StepOutcome c b h b') (hw : commandWord h = none) :
    b'.status = b.status ∧ ∀ p, p ∉ hostWrites h → Part.Same b b' p := by
  cases ho with
  | word hw' => rw [hw] at hw'; cases hw'
  | kept => exact ⟨rfl, fun p _ => same_refl b p⟩
  | hwr hb =>
    obtain ⟨hst, hwrites⟩ := hwr_writesOnly hb
    exact ⟨hst, hwrites.same⟩
  | csrw n v =>
    obtain ⟨hst, hwrites⟩ := csrw_writesOnly b n v
    exact ⟨hst, hwrites.same⟩

end Sys2Proof.Machine
end

section
/-! Obligations of 20_memory.md: what a host step may change, and what the host port's writes and reads do. -/

namespace Sys2Proof.Machine

/-- Settles O18: the step performed the entry at `pc`, and its outcome has the frame of a host access. -/
theorem hostStepsWriteOnlyTheirTarget : Obligations.HostStepsWriteOnlyTheirTarget := by
  intro s t h hf hw ht
  obtain ⟨e, he, ho, hcfg, hprog, -⟩ := step_outcome ht
  obtain rfl : e = h := Option.some.inj (he.symm.trans hf)
  exact ⟨hcfg, hprog, ho.frame hw⟩

/-- Settles O22: `HWR` acts exactly when it is allowed, and then leaves its elements in the buffer it names. -/
theorem HostPort.hostWrites : Obligations.HostWrites := by
  intro s id off seq hok hf
  rw [← hwr_isSome_iff]
  cases hb : s.blk.hwr s.cfg id off seq with
  | none => exact ⟨by simp, fun _ => step_hwr_refused hf hb⟩
  | some b =>
    obtain ⟨d, hd, hwrote⟩ := (hwr_outcome hb).wrote hok
    exact ⟨fun _ => ⟨b, d, step_hwr_done hf hb, hd, hwrote.written, hwrote.whole, hwrote.others⟩, by simp⟩

/-- Settles O23: a read returns the elements of its buffer or is refused; the ids follow the table of 10_state.md R23. -/
theorem hostReads : Obligations.HostReads := by
  refine ⟨fun s id off n hf => ⟨fun d hd hle => ?_, fun h => step_hrd_refused hf ?_⟩, fun b =>
    ⟨rfl, rfl, rfl, rfl, rfl, rfl, rfl, rfl, rfl, rfl, rfl, rfl, rfl, fun hk => ?_, fun k hk hok => ?_, rfl, fun id hid => ?_⟩⟩
  · obtain ⟨r, hr, hlen, hread⟩ := HostData.read_inside hle
    exact ⟨r, step_hrd_returned hf ((hrd_of_content hd off n).trans hr), hlen, hread⟩
  · rcases h with hinv | ⟨d, hd, hlt⟩
    · exact hrd_invalid hinv off n
    · exact (hrd_of_content hd off n).trans (HostData.read_beyond hlt)
  · simp [Block.content, hk]
  · obtain ⟨hlen, hbits⟩ := hok.flatten_tup
    exact ⟨k.tup.flatten, by simp [Block.content, hk], hlen, fun i j _ hj => hbits i j hj⟩
  · exact content_of_ge hid b

end Sys2Proof.Machine
end

section
/-! SUPPORT. The decoder and the encoder as inverse maps, and the legal fields of a word (30_encoding.md R81, R84, R85). -/

namespace Sys2Proof

/-! Every well-formed command (30_encoding.md R82, R84). -/

theorem Instr.opcode_lt (i : Instr) : i.opcode < 2 ^ 8 := by cases i <;> simp [Instr.opcode]

theorem Instr.wellFormed_iff (i : Instr) : i.WellFormed ↔ i.immediate < 2 ^ 24 := by
  cases i with
  | constBuild b => exact Iff.rfl
  | gridExtract n => exact Iff.rfl
  | _ => simp [Instr.immediate]

/-- The decoder undoes each row of the table. -/
theorem decodeFields_opcode_immediate (i : Instr) : decodeFields i.opcode i.immediate = .ok i := by cases i <;> rfl

theorem decode_encode {i : Instr} (h : i.WellFormed) : decode (encode i) = .ok i := by
  obtain ⟨hop, himm⟩ := Laws.EncodeFields.of_plain i.opcode_lt (i.wellFormed_iff.1 h) h
  rw [decode, hop, himm, decodeFields_opcode_immediate]

/-! Words as numbers. -/

theorem CmdWord.op_eq_div (w : CmdWord) : w.op = w.toNat / 2 ^ 24 := by
  have hw := w.isLt
  simp only [CmdWord.op, BitVec.extractLsb'_toNat, Nat.shiftRight_eq_div_pow]
  omega

theorem CmdWord.imm_eq_mod (w : CmdWord) : w.imm = w.toNat % 2 ^ 24 := by
  simp [CmdWord.imm, BitVec.extractLsb'_toNat]

theorem encode_eq_ofNat {i : Instr} (h : i.WellFormed) : encode i = BitVec.ofNat 32 (i.opcode * 2 ^ 24 + i.immediate) := by
  have himm := i.wellFormed_iff.1 h
  have hop := i.opcode_lt
  apply BitVec.eq_of_toNat_eq
  rw [encode, BitVec.toNat_append, BitVec.toNat_ofNat, BitVec.toNat_ofNat, BitVec.toNat_ofNat, Nat.mod_eq_of_lt himm,
    ← Nat.shiftLeft_add_eq_or_of_lt himm, Nat.shiftLeft_eq]
  omega

theorem decode_ofNat {i : Instr} (h : i.WellFormed) : decode (BitVec.ofNat 32 (i.opcode * 2 ^ 24 + i.immediate)) = .ok i := by
  rw [← encode_eq_ofNat h, decode_encode h]

/-! Illegal words (30_encoding.md R85). -/

/-- The opcode lies in a range the table of 30_encoding.md R84 does not list. -/
def UnassignedOpcode (op : Nat) : Prop :=
  (0x03 ≤ op ∧ op ≤ 0x0F) ∨ (0x1A ≤ op ∧ op ≤ 0x1F) ∨ (0x23 ≤ op ∧ op ≤ 0x2F) ∨ (0x35 ≤ op ∧ op ≤ 0x3F) ∨
    (0x46 ≤ op ∧ op ≤ 0x4F) ∨ 0x53 ≤ op

theorem not_unassigned_opcode (i : Instr) : ¬UnassignedOpcode i.opcode := by
  cases i <;> simp [UnassignedOpcode, Instr.opcode]

/-- A command with an operand other than 0 has one of the two opcodes that take one. -/
theorem opcode_of_immediate_ne_zero {i : Instr} (h : i.immediate ≠ 0) : i.opcode = 0x20 ∨ i.opcode = 0x32 := by
  cases i with
  | constBuild b => exact .inl rfl
  | gridExtract n => exact .inr rfl
  | _ => exact absurd rfl h

theorem decodePlain_eq_error {i : Instr} {op imm : Nat} {r : Illegal} (h : decodePlain i op imm = .error r) : imm ≠ 0 := by
  unfold decodePlain at h
  split at h
  · cases h
  · assumption

/-- Why the decoder rejects: each listed opcode without an operand rejects by its immediate, the last arm by its opcode. -/
theorem decodeFields_eq_error {op imm : Nat} {r : Illegal} (h : decodeFields op imm = .error r) :
    UnassignedOpcode op ∨ (imm ≠ 0 ∧ op ≠ 0x20 ∧ op ≠ 0x32) := by
  unfold decodeFields at h
  split at h
  case h_14 | h_19 => cases h
  case h_31 =>
    simp only [imp_false] at *
    exact .inl (by unfold UnassignedOpcode; omega)
  all_goals exact .inr ⟨decodePlain_eq_error h, by decide, by decide⟩

theorem decodeFields_error_iff (op imm : Nat) :
    (∃ r, decodeFields op imm = .error r) ↔ UnassignedOpcode op ∨ (imm ≠ 0 ∧ op ≠ 0x20 ∧ op ≠ 0x32) := by
  constructor
  · rintro ⟨r, h⟩
    exact decodeFields_eq_error h
  · intro h
    cases hd : decodeFields op imm with
    | error r => exact ⟨r, rfl⟩
    | ok i =>
      obtain ⟨rfl, rfl⟩ := decodeFields_eq_ok hd
      rcases h with hop | ⟨himm, h20, h32⟩
      · exact absurd hop (not_unassigned_opcode i)
      · exact absurd (opcode_of_immediate_ne_zero himm) (by simp [h20, h32])

end Sys2Proof
end

section
/-! SUPPORT. One command word, read forwards: when it is refused, when it raises, which parts it keeps, and the host step that
writes it (30_encoding.md R84 to R86, 40_control.md R100, R105). -/

namespace Sys2Proof.Machine

theorem exec_aborted {s : State} {i : Instr} (ha : s.blk.status.abort = true) (hi : ¬IsReset i) :
    exec i s = .next (s.withBlk s.blk.refuse) := by rw [exec_of_not_isReset hi, State.runBody_aborted ha]

theorem exec_error {s : State} {i : Instr} {e : Code} (hrun : s.Running) (hi : ¬IsReset i)
    (he : commandBody s.cfg s.blk i = .error e) : exec i s = s.raised e := by
  rw [exec_of_not_isReset hi, he, State.runBody_error hrun]

/-- While aborted, every word but the two resets is refused, legal or not. -/
theorem State.issue_aborted {s : State} {w : CmdWord} (ha : s.blk.status.abort = true) (htx : w ≠ 0x01000000)
    (hrr : w ≠ 0x02000000) : s.issue w = .next (s.withBlk s.blk.refuse) := by
  cases hw : decode w with
  | ok i =>
    have hi : ¬IsReset i := by
      rintro (rfl | rfl)
      · exact htx (encode_of_decode hw).symm
      · exact hrr (encode_of_decode hw).symm
    rw [State.issue_legal hw, exec_aborted ha hi]
  | error r => rw [State.issue_illegal hw, Block.illegal, if_pos ha]

theorem State.issue_illegal_running {s : State} {w : CmdWord} {r : Illegal} (hrun : s.Running) (hw : decode w = .error r) :
    s.issue w = s.raised .illegalCmd := by
  rw [State.issue_illegal hw, Block.illegal, if_neg (by simp [hrun])]
  rfl

/-! Operands out of range (42_constellation.md R153, 43_resource_grid.md R174). -/

theorem constBuildBody_out_of_range (c : Cfg) {n : Nat} (b : Block) (h : n < 2 ∨ 6 < n) :
    constBuildBody c n b = .error .bpsRange := by
  have hs : c.supports n ≠ true := by
    intro hs
    simp only [Cfg.supports, Bool.and_eq_true, decide_eq_true_eq] at hs
    omega
  rw [constBuildBody, if_neg hs]

theorem gridExtractBody_out_of_range {c : Cfg} {n : Nat} {b : Block} (hg : b.grid.isSome = true) (hn : c.cap < n) :
    gridExtractBody c n b = .error .gridCapacity := by
  obtain ⟨g, hg⟩ := Option.isSome_iff_exists.1 hg
  simp [gridExtractBody, hg, hn]

/-! The frame of a command (30_encoding.md R84). -/

/-- The shell writes what the body writes, and nothing where it refuses or raises. -/
theorem shell_same {ps : List Part} {b : Block} {body : Except Code Block} (h : EndsIn (b.WritesOnly ps) body) {p : Part}
    (hp : p ∉ ps) : Part.Same b (b.shell body) p := by
  rcases b.shell_cases body with ⟨-, hs⟩ | ⟨-, b', hb, hs⟩ | ⟨-, e, -, hs⟩
  · rw [hs]; exact same_withCode_iff.2 (same_refl b p)
  · rw [hs]; exact same_withCode_iff.2 ((h.of_ok hb).same p hp)
  · rw [hs]; exact same_raise b e p

theorem exec_same {i : Instr} {s t : State} (h : exec i s = .next t) {p : Part} (hp : p ∉ writes i) :
    Part.Same s.blk t.blk p := by
  have hw := commandBody_writesOnly s.cfg s.blk i
  by_cases hi : IsReset i
  · obtain ⟨b, hb, he⟩ := exec_of_isReset hi s
    obtain rfl := Host.Outcome.next.inj (he.symm.trans h)
    exact same_withCode_iff.2 ((hw.of_ok hb).same p hp)
  · rw [exec_of_not_isReset hi, State.runBody_eq] at h
    obtain rfl := Host.Outcome.next.inj h
    exact shell_same hw hp

/-! The host step of a command word (40_control.md R105, R108). -/

theorem perform_of_commandWord {s : State} {h : HostStep} {w : CmdWord} (hw : commandWord h = some w) :
    s.perform h = mapNext (State.advance .done) (s.issue w) := by
  cases h with
  | cmd v =>
    obtain rfl := Option.some.inj hw
    rfl
  | csrw n v =>
    by_cases hn : n = 0
    · obtain rfl := Option.some.inj ((if_pos hn).symm.trans hw)
      exact if_pos hn
    · exact absurd ((if_neg hn).symm.trans hw) (by simp)
  | hwr id off seq => cases hw
  | hrd id off n => cases hw
  | csrr n => cases hw

end Sys2Proof.Machine
end

section
/-! Obligations of 30_encoding.md: the decoder and the encoder, the illegal words, and what a command word does. -/

namespace Sys2Proof.Machine

/-- Settles O1: the word of a command carries its opcode and immediate, and the decoder undoes that row of the table. -/
theorem decodeOfEncode : Obligations.DecodeOfEncode := fun _ h => decode_encode h

/-- Settles O2. -/
theorem encodeOfDecode : Obligations.EncodeOfDecode := fun _ i h =>
  ⟨i.wellFormed_iff.2 (immediate_lt_of_decode h), encode_of_decode h⟩

/-- Settles O3: the rejected fields of a word, and the errors of a command whose operand is out of range. -/
theorem illegalWords : Obligations.IllegalWords := by
  refine ⟨fun w => ?_, fun s w r hrun hw => State.issue_illegal_running hrun hw, fun n hn => ?_,
    fun s n hrun hn => exec_error hrun (by simp) (constBuildBody_out_of_range s.cfg s.blk hn),
    fun s n hrun hg hn => exec_error hrun (by simp) (gridExtractBody_out_of_range hg hn)⟩
  · have h := decodeFields_error_iff w.op w.imm
    rw [CmdWord.op_eq_div, CmdWord.imm_eq_mod] at h
    simpa only [decode, CmdWord.op_eq_div, CmdWord.imm_eq_mod, UnassignedOpcode, or_assoc] using h
  · exact ⟨decode_ofNat (i := .constBuild n) hn, decode_ofNat (i := .gridExtract n) hn⟩

/-- Settles O7. -/
theorem decodeOrder : Obligations.DecodeOrder := fun s _ =>
  ⟨fun ha htx hrr => State.issue_aborted ha htx hrr, fun _ hrun hw => State.issue_illegal_running hrun hw,
    fun _ _ hw => State.issue_legal hw s⟩

/-- Settles O17: a command replaces the block only, and in the block the parts its body writes. -/
theorem commandsWriteOnlyTheirColumn : Obligations.CommandsWriteOnlyTheirColumn := by
  intro i s t h
  have hsame := fun p hp => exec_same h (p := p) hp
  obtain ⟨b, hb⟩ := exec_replaces_blk i s
  obtain rfl := Host.Outcome.next.inj (hb.symm.trans h)
  exact ⟨rfl, rfl, rfl, rfl, hsame⟩

/-- Settles O4: each word is the encoding of its well-formed command. -/
theorem wordsOfTheTable : Obligations.WordsOfTheTable :=
  ⟨decode_encode (i := .nop) trivial, decode_encode (i := .txReset) trivial, decode_encode (i := .runReset) trivial,
    decode_encode (i := .crcGen) trivial, decode_encode (i := .tbBuild) trivial, decode_encode (i := .tbProcess) trivial,
    decode_encode (i := .constBuild 2) (by decide), decode_encode (i := .constBuild 16777215) (by decide),
    decode_encode (i := .demodulate) trivial, decode_encode (i := .gridExtract 36) (by decide),
    decode_encode (i := .td2grid) trivial, decode_encode (i := .frameDetect) trivial,
    decode_encode (i := .frameExtract) trivial, decode_encode (i := .scoTrack) trivial⟩

/-- Settles O5: the host step of a command word issues it, and a legal word runs its command. -/
theorem stepRunsDecodedCommand : Obligations.StepRunsDecodedCommand := by
  refine ⟨fun s h w i hf hw hi => ?_, fun s w => ?_⟩
  · obtain ⟨b, hb⟩ := exec_replaces_blk i s
    refine ⟨b, hb, ?_⟩
    rw [step_of_fetch hf, perform_of_commandWord hw, State.issue_legal hi, hb, mapNext_next]
    rfl
  · rw [State.fetch_withFetchWord, Nat.mod_eq_of_lt w.isLt, BitVec.ofNat_toNat, BitVec.setWidth_eq]

end Sys2Proof.Machine
end

section
/-! SUPPORT. The control commands and the register accesses of the host, said once: the word of a command, the list's end, the
completion of `NOP`, the idempotence of `TX_RESET`, the value of the `STATUS` word, and the step of a `CSRR` and of a `CSRW`
(10_state.md R30, R31; 40_control.md R100 to R102, R105, R108). -/

namespace Sys2Proof.Machine

theorem spells_encode {i : Instr} (h : i.WellFormed) : Spells (encode i) i := ⟨rfl, decode_encode h⟩

/-! Commands (40_control.md R100 to R102). -/

theorem exec_ok {s : State} {i : Instr} {b : Block} (hrun : s.Running) (hi : ¬IsReset i)
    (hb : commandBody s.cfg s.blk i = .ok b) : exec i s = s.done b := by
  rw [exec_of_not_isReset hi, hb, State.runBody_ok hrun]

theorem exec_txReset (s : State) : exec .txReset s = .next (s.withBlk s.blk.txReset) := rfl

/-- `TX_RESET` writes constants, none of them read from what it clears. -/
theorem Block.txReset_txReset (b : Block) : b.txReset.txReset = b.txReset := rfl

theorem exec_txReset_twice (s : State) :
    exec .txReset (s.withBlk s.blk.txReset) = .next (s.withBlk s.blk.txReset) := by
  rw [exec_txReset, State.withBlk_blk, Block.txReset_txReset]
  rfl

/-! The host's list (40_control.md R108). -/

theorem State.fetch_eq_none_iff {s : State} : s.fetch = none ↔ s.prog.length ≤ s.pc := List.getElem?_eq_none_iff

theorem State.fetch_of_pc_lt {s : State} (h : s.pc < s.prog.length) : ∃ e, s.fetch = some e :=
  ⟨_, List.getElem?_eq_getElem h⟩

/-! The `STATUS` word as a number (10_state.md R31). -/

/-- Bits joined to a vector on the right are its low bits. -/
theorem toNat_append_eq_add {m n : Nat} (x : BitVec m) (y : BitVec n) : (x ++ y).toNat = 2 ^ n * x.toNat + y.toNat := by
  rw [BitVec.toNat_append, ← Nat.shiftLeft_add_eq_or_of_lt y.isLt, Nat.shiftLeft_eq, Nat.mul_comm]

theorem toNat_ofBool_eq_bitVal (x : Bool) : (BitVec.ofBool x).toNat = bitVal x := by cases x <;> rfl

theorem Status.word_toNat (st : Status) :
    st.word.toNat = st.code.number.toNat + 2 ^ 8 * bitVal st.abort + 2 ^ 9 * bitVal st.crcFail +
      2 ^ 10 * bitVal st.detFallback + 2 ^ 11 * bitVal st.cfoSkip + 2 ^ 12 * bitVal st.cpeSkip +
      2 ^ 13 * bitVal st.scoSkip := by
  simp only [Status.word, toNat_append_eq_add, toNat_ofBool_eq_bitVal, BitVec.toNat_zero]
  ring

/-! Register reads (10_state.md R30, 40_control.md R105). -/

theorem csrr_status (b : Block) : b.csrr 1 = .nat b.status.word.toNat := rfl

theorem csrr_constB (b : Block) : b.csrr 5 = .nat (b.const.elim 0 Const.b) := by
  rw [Block.csrr]
  cases b.const <;> rfl

/-- `CMD` and the numbers the table of 10_state.md R30 does not list read 0. -/
theorem csrr_unassigned {n : Nat} (h : n = 0 ∨ n = 6 ∨ n = 7 ∨ 23 ≤ n) (b : Block) : b.csrr n = .nat 0 := by
  unfold Block.csrr
  split
  case h_21 => rfl
  all_goals omega

theorem step_csrr {s : State} {n : Nat} (hf : s.fetch = some (.csrr n)) : step s = .next (s.advance (s.blk.csrr n)) :=
  step_of_fetch hf

/-! Register writes (40_control.md R105). -/

theorem csrw_start (b : Block) (v : BitVec 32) : b.csrw 2 v = { b with start := v.toNat } := rfl

theorem csrw_ignored {n : Nat} (h : n ≠ 2) (b : Block) (v : BitVec 32) : b.csrw n v = b := if_neg h

/-- The step of a command word: the word is issued, and the host step returns. -/
theorem step_of_commandWord {s : State} {h : HostStep} {w : CmdWord} (hf : s.fetch = some h)
    (hw : commandWord h = some w) :
    ∃ b, s.issue w = .next (s.withBlk b) ∧ step s = .next ((s.withBlk b).advance .done) := by
  obtain ⟨b, hb⟩ := s.issue_replaces_blk w
  exact ⟨b, hb, by rw [step_of_fetch hf, perform_of_commandWord hw, hb, mapNext_next]⟩

theorem step_csrw {s : State} {n : Nat} {v : BitVec 32} (hf : s.fetch = some (.csrw n v)) (hn : n ≠ 0) :
    step s = .next ((s.withBlk (s.blk.csrw n v)).advance .done) := by
  rw [step_of_fetch hf, State.perform, State.hostCsrw, if_neg hn]

end Sys2Proof.Machine
end

section
/-! Obligations of 40_control.md: the step along the host's list, `NOP`, `TX_RESET`, and the register accesses of the host. -/

namespace Sys2Proof.Machine

/-- Settles O6: there is an entry at `pc` exactly before the list's end, and performing it moves `pc` by one. -/
theorem stepFollowsTheHostList : Obligations.StepFollowsTheHostList := by
  refine fun s => ⟨fun hend => step_ended (State.fetch_eq_none_iff.2 hend), fun hlt => ?_⟩
  obtain ⟨e, hf⟩ := State.fetch_of_pc_lt hlt
  obtain ⟨b, r, hb⟩ := s.perform_eq_next e
  exact ⟨(s.withBlk b).advance r, (step_of_fetch hf).trans hb, rfl, rfl, rfl⟩

/-- Settles O11: the body of `NOP` leaves the block as it is, so the shell's code is all that is written. -/
theorem nopKeepsEverything : Obligations.NopKeepsEverything :=
  ⟨spells_encode (i := .nop) trivial, fun _ => ⟨fun hrun => exec_ok hrun (by simp) rfl, fun ha => exec_aborted ha (by simp)⟩⟩

/-- Settles O12: `TX_RESET` runs outside the shell, aborted or not, and a second one finds what the first one left. -/
theorem txResetClearsTransmission : Obligations.TxResetClearsTransmission :=
  ⟨spells_encode (i := .txReset) trivial, fun s => ⟨s.withBlk s.blk.txReset, exec_txReset s, exec_txReset_twice s, rfl⟩⟩

/-- Settles O24: each number reads its register of the table, and a write reaches `CMD` and `START` only. -/
theorem hostRegisters : Obligations.HostRegisters := by
  refine ⟨fun s n hf => step_csrr hf, fun b => ⟨?status, rfl, rfl, rfl, csrr_constB b, rfl, rfl, rfl, rfl, rfl, rfl, rfl, rfl,
    rfl, rfl, rfl, rfl, rfl, rfl, rfl, fun n hn => csrr_unassigned hn b⟩, rfl, fun s n v hf => ⟨?cmd, ?start, ?ignored⟩⟩
  case status => rw [csrr_status, Status.word_toNat]
  case cmd =>
    rintro rfl
    exact step_of_commandWord hf rfl
  case start =>
    rintro rfl
    rw [step_csrw hf (by decide), csrw_start]
    rfl
  case ignored =>
    intro h0 h2
    rw [step_csrw hf h0, csrw_ignored h2]
    rfl

end Sys2Proof.Machine
end

section
/-! SUPPORT. The CRC register (41_transport_block_codec.md R121 to R126): its value as a number, its step as a linear map in either
variant, and what a flipped bit adds to it. -/

namespace Sys2Proof.Machine

/-! The register as a number. -/

theorem crcInject_toNat (reg : CrcReg) (bit : Bit) :
    (crcInject reg bit).toNat = reg.toNat ^^^ (if bit then 2 ^ 23 else 0) := by
  cases bit <;> simp [crcInject]

/-- A 25-bit value shifted once and cut to the register's width (47_arithmetic.md R320). -/
theorem shiftLeft_setWidth_toNat (u : BitVec 25) : ((u <<< 1).setWidth 24).toNat = 2 * u.toNat % 2 ^ 24 := by
  rw [BitVec.toNat_setWidth, BitVec.toNat_shiftLeft, Nat.mod_mod_of_dvd _ (by norm_num), Nat.shiftLeft_eq, Nat.mul_comm, pow_one]

theorem setWidth_25_toNat (t : CrcReg) : (t.setWidth 25).toNat = t.toNat :=
  BitVec.toNat_setWidth_of_le (by norm_num)

theorem crcStep_toNat (v : CrcVariant) (reg : CrcReg) (bit : Bit) :
    (crcStep v reg bit).toNat = crcStepNat v reg.toNat bit := by
  have hpoly : Config.crcPoly.toNat = 0x1864CFB := rfl
  cases v with
  | xorThenShift =>
    simp only [crcStep, crcStepNat, shiftLeft_setWidth_toNat, ← crcInject_toNat, BitVec.testBit_toNat]
    split
    · rw [BitVec.toNat_xor, setWidth_25_toNat, hpoly]
    · rw [setWidth_25_toNat]
  | shiftThenXor =>
    simp only [crcStep, crcStepNat, ← crcInject_toNat, BitVec.testBit_toNat, BitVec.setWidth_xor, BitVec.toNat_xor,
      shiftLeft_setWidth_toNat, setWidth_25_toNat, Nat.xor_mod_two_pow]
    split <;> rfl

theorem crcFrom_toNat (v : CrcVariant) (reg : CrcReg) (bits : List Bit) :
    (crcFrom v reg bits).toNat = bits.foldl (crcStepNat v) reg.toNat := by
  induction bits generalizing reg with
  | nil => rfl
  | cons x xs ih => rw [List.foldl_cons, ← crcStep_toNat]; exact ih _

theorem crc24_toNat (v : CrcVariant) (bits : List Bit) : (crc24 v bits).toNat = crcNat v bits := crcFrom_toNat v _ bits

theorem crc24_eq_zero_iff (v : CrcVariant) (bits : List Bit) : crc24 v bits = 0 ↔ crcNat v bits = 0 := by
  rw [← crc24_toNat]
  exact BitVec.toNat_inj.symm

theorem crcOk_eq (c : Cfg) (t : List Bit) : crcOk c t = decide (crcNat c.crcVariant t = 0) := by
  rw [crcOk, Bool.eq_iff_iff, beq_iff_eq, decide_eq_true_iff, crc24_eq_zero_iff]

theorem crcBits_crc24 (v : CrcVariant) (p : List Bit) :
    crcBits (crc24 v p) = (List.range 24).map fun i => (crcNat v p).testBit (23 - i) := by
  rw [← crc24_toNat]
  rfl

/-! The step as a linear map. -/

/-- What the shifted register is XORed with when the bit shifted out is 1. In the variant that XORs before it shifts, bit 24 of
`2·CRC_POLY` is lost and the constant is even. -/
def crcFeedback : CrcVariant → CrcReg
  | .xorThenShift => 0x0C99F6
  | .shiftThenXor => 0x864CFB

/-- The part of a CRC step after the incoming bit is injected. -/
def crcShift (v : CrcVariant) (t : CrcReg) : CrcReg := t <<< 1 ^^^ (if t.getLsbD 23 then crcFeedback v else 0)

theorem crcStep_eq_crcShift (v : CrcVariant) (reg : CrcReg) (bit : Bit) : crcStep v reg bit = crcShift v (crcInject reg bit) := by
  have hshift : ∀ t : CrcReg, (t.setWidth 25 <<< 1).setWidth 24 = t <<< 1 := fun t => by
    apply BitVec.eq_of_toNat_eq
    rw [shiftLeft_setWidth_toNat, setWidth_25_toNat, BitVec.toNat_shiftLeft, Nat.shiftLeft_eq, Nat.mul_comm, pow_one]
  cases v with
  | xorThenShift =>
    simp only [crcStep, crcShift]
    split
    · rw [BitVec.shiftLeft_xor_distrib, BitVec.setWidth_xor, hshift]; rfl
    · rw [hshift]; exact BitVec.xor_zero.symm
  | shiftThenXor =>
    simp only [crcStep, crcShift, BitVec.setWidth_xor, hshift]
    split <;> rfl

theorem crcShift_xor (v : CrcVariant) (a d : CrcReg) : crcShift v (a ^^^ d) = crcShift v a ^^^ crcShift v d := by
  have hfeedback : ∀ x y : Bool, (if x ^^ y then crcFeedback v else 0) =
      (if x then crcFeedback v else 0) ^^^ (if y then crcFeedback v else 0) := fun x y => by
    cases x <;> cases y <;> simp
  rw [crcShift, BitVec.shiftLeft_xor_distrib, BitVec.getLsbD_xor, hfeedback, crcShift, crcShift]
  ac_rfl

theorem crcInject_xor (a d : CrcReg) (bit : Bit) : crcInject (a ^^^ d) bit = crcInject a bit ^^^ d := by
  unfold crcInject
  ac_rfl

theorem crcInject_not (reg : CrcReg) (bit : Bit) : crcInject reg (!bit) = crcInject reg bit ^^^ 0x800000 := by
  cases bit
  · simp [crcInject]
  · simp [crcInject]

/-- A difference of two registers goes through the same bits by shifts alone. -/
theorem crcFrom_xor (v : CrcVariant) (a d : CrcReg) (bits : List Bit) :
    crcFrom v (a ^^^ d) bits = crcFrom v a bits ^^^ (crcShift v)^[bits.length] d := by
  induction bits generalizing a d with
  | nil => rfl
  | cons x xs ih =>
    have hstep : crcStep v (a ^^^ d) x = crcStep v a x ^^^ crcShift v d := by
      simp only [crcStep_eq_crcShift, crcInject_xor, crcShift_xor]
    calc crcFrom v (a ^^^ d) (x :: xs) = crcFrom v (crcStep v a x ^^^ crcShift v d) xs := by rw [← hstep]; rfl
      _ = crcFrom v a (x :: xs) ^^^ (crcShift v)^[(x :: xs).length] d := ih _ _

/-- A flipped bit adds to the register the top bit shifted by the bits from it on. -/
theorem crcFrom_flipBit (v : CrcVariant) (a : CrcReg) {bits : List Bit} {i : Nat} (hi : i < bits.length) :
    crcFrom v a (flipBit bits i) = crcFrom v a bits ^^^ (crcShift v)^[bits.length - i] 0x800000 := by
  induction bits generalizing a i with
  | nil => simp at hi
  | cons x xs ih =>
    cases i with
    | zero =>
      have hstep : crcStep v a (!x) = crcStep v a x ^^^ crcShift v 0x800000 := by
        simp only [crcStep_eq_crcShift, crcInject_not, crcShift_xor]
      calc crcFrom v a (flipBit (x :: xs) 0) = crcFrom v (crcStep v a x ^^^ crcShift v 0x800000) xs := by rw [← hstep]; rfl
        _ = crcFrom v a (x :: xs) ^^^ (crcShift v)^[(x :: xs).length] 0x800000 := crcFrom_xor v _ _ xs
    | succ i =>
      rw [List.length_cons, Nat.add_sub_add_right]
      exact ih (crcStep v a x) (Nat.lt_of_succ_lt_succ hi)

/-! A single difference never dies out. -/

/-- A difference that no number of shifts makes zero: it is not zero, and in the variant whose feedback constant is even it is
itself even (the only other register that this variant shifts to zero is odd). -/
structure CrcPersists (v : CrcVariant) (d : CrcReg) : Prop where
  ne_zero : d ≠ 0
  even : v = .xorThenShift → d.getLsbD 0 = false

theorem crcShift_getLsbD_zero (v : CrcVariant) (d : CrcReg) :
    (crcShift v d).getLsbD 0 = (d.getLsbD 23 && (crcFeedback v).getLsbD 0) := by
  unfold crcShift
  cases h : d.getLsbD 23 <;> simp

theorem CrcPersists.crcShift {v : CrcVariant} {d : CrcReg} (h : CrcPersists v d) : CrcPersists v (crcShift v d) := by
  refine ⟨fun hzero => ?_, fun hv => by rw [crcShift_getLsbD_zero, hv]; simp [crcFeedback]⟩
  have hbits : d <<< 1 = if d.getLsbD 23 then crcFeedback v else 0 := BitVec.xor_eq_zero_iff.1 hzero
  cases htop : d.getLsbD 23 with
  | false =>
    rw [htop, if_neg (by simp)] at hbits
    refine h.ne_zero (BitVec.eq_of_getLsbD_eq fun i hi => ?_)
    rcases Nat.lt_or_ge i 23 with hlt | hge
    · have hnext : (d <<< 1).getLsbD (i + 1) = false := by rw [hbits]; exact BitVec.getLsbD_zero
      rw [BitVec.getLsbD_shiftLeft] at hnext
      simpa [show i + 1 < 24 by omega] using hnext
    · obtain rfl : i = 23 := by omega
      exact htop
  | true =>
    rw [htop, if_pos rfl] at hbits
    cases v with
    | xorThenShift =>
      have hodd : d.getLsbD 0 = true := by simpa [crcFeedback] using congrArg (BitVec.getLsbD · 1) hbits
      exact absurd (hodd.symm.trans (h.even rfl)) (by simp)
    | shiftThenXor =>
      have hlow := congrArg (BitVec.getLsbD · 0) hbits
      simp [crcFeedback] at hlow

theorem crcPersists_topBit (v : CrcVariant) : CrcPersists v 0x800000 := ⟨by decide, fun _ => by decide⟩

theorem crcPersists_iterate (v : CrcVariant) (n : Nat) : CrcPersists v ((crcShift v)^[n] 0x800000) := by
  induction n with
  | zero => exact crcPersists_topBit v
  | succ n ih => rw [Function.iterate_succ_apply']; exact ih.crcShift

/-! The CRC bits of a register bring it to zero. -/

/-- A bit equal to the top bit is shifted out with it. -/
theorem crcStep_topBit (v : CrcVariant) (a : CrcReg) : crcStep v a (a.getLsbD 23) = a <<< 1 := by
  have hclear : (crcInject a (a.getLsbD 23)).getLsbD 23 = false := by
    rw [crcInject, BitVec.getLsbD_xor]; cases a.getLsbD 23 <;> rfl
  have hrest : crcInject a (a.getLsbD 23) <<< 1 = a <<< 1 := by
    cases a.getLsbD 23 <;> simp [crcInject, BitVec.shiftLeft_xor_distrib]
  rw [crcStep_eq_crcShift, crcShift, hclear, hrest]
  exact BitVec.xor_zero

theorem crcFrom_append (v : CrcVariant) (a : CrcReg) (xs ys : List Bit) :
    crcFrom v a (xs ++ ys) = crcFrom v (crcFrom v a xs) ys := List.foldl_append

theorem crcFrom_crcBits_take (v : CrcVariant) (r : CrcReg) {n : Nat} (h : n ≤ 24) :
    crcFrom v r ((List.range n).map fun i => r.getLsbD (23 - i)) = r <<< n := by
  induction n with
  | zero => simp [crcFrom]
  | succ n ih =>
    have htop : r.getLsbD (23 - n) = (r <<< n).getLsbD 23 := by
      simp [BitVec.getLsbD_shiftLeft, -BitVec.getLsbD_eq_getElem, show ¬23 < n by omega]
    rw [List.range_succ, List.map_append, crcFrom_append, ih (by omega), List.map_singleton,
      htop]
    exact (crcStep_topBit v _).trans (BitVec.shiftLeft_add r n 1).symm

theorem crc24_append_crcBits (v : CrcVariant) (p : List Bit) : crc24 v (p ++ crcBits (crc24 v p)) = 0 := by
  have h := crcFrom_crcBits_take v (crc24 v p) (Nat.le_refl 24)
  rw [crc24, crcFrom_append]
  exact h.trans (BitVec.shiftLeft_eq_zero (by omega))

/-- Every single-bit error of accepted bits is detected (41_transport_block_codec.md R126). -/
theorem crc24_flipBit_ne_zero {v : CrcVariant} {bits : List Bit} (h : crc24 v bits = 0) {i : Nat} (hi : i < bits.length) :
    crc24 v (flipBit bits i) ≠ 0 := by
  rw [crc24, crcFrom_flipBit v _ hi, ← crc24, h]
  exact fun hz => (crcPersists_iterate v _).ne_zero (BitVec.zero_xor.symm.trans hz)

end Sys2Proof.Machine
end

section
/-! SUPPORT. The codec's sequences as inverse maps (41_transport_block_codec.md R128 to R134), what each of its single commands does
(R124 to R136), and commands one after another. -/

namespace Sys2Proof.Machine

/-! Bit sequences by their elements. -/

theorem ext_bitAt {xs ys : List Bit} (hlen : xs.length = ys.length) (h : ∀ i < xs.length, bitAt xs i = bitAt ys i) :
    xs = ys := by
  refine List.ext_getElem hlen fun i hx hy => ?_
  rw [← bitAt_of_lt hx, ← bitAt_of_lt hy, h i hx]

/-! Majority decoding (41_transport_block_codec.md R131). -/

/-- The ones of a slice as a sum; elements beyond the sequence count 0 on both sides. -/
theorem ones_slice (y : List Bit) (a n : Nat) : ones (slice y a n) = ∑ j ∈ Finset.range n, bitVal (bitAt y (a + j)) := by
  induction n with
  | zero => simp [slice, ones]
  | succ n ih =>
    have hnext : ones (y[a + n]?).toList = bitVal (bitAt y (a + n)) := by
      rw [bitAt, List.getD_eq_getElem?_getD]
      rcases y[a + n]? with - | - | - <;> rfl
    have hsplit : slice y a (n + 1) = slice y a n ++ (y[a + n]?).toList := by
      rw [slice, List.take_add_one, List.getElem?_drop, slice]
    rw [hsplit, ones, List.countP_append, ← ones, ← ones, ih, hnext, Finset.sum_range_succ]

theorem majorityK_bitAt {k : Nat} {y : List Bit} {i : Nat} (hi : i < (majorityK k y).length) :
    bitAt (majorityK k y) i = decide (k < 2 * ∑ j ∈ Finset.range k, bitVal (bitAt y (i * k + j))) := by
  rw [majorityK_length] at hi
  rw [← ones_slice]
  exact bitAt_map_range hi

/-- A majority outvotes fewer than half wrong copies. -/
theorem majority_of_minority_wrong {k : Nat} {f : Nat → Bit} {x : Bit}
    (h : 2 * ((Finset.range k).filter fun j => f j ≠ x).card < k) :
    decide (k < 2 * ∑ j ∈ Finset.range k, bitVal (f j)) = x := by
  have hones : ∑ j ∈ Finset.range k, bitVal (f j) = ((Finset.range k).filter fun j => f j = true).card :=
    (Finset.card_filter _ _).symm
  rw [hones]
  cases x with
  | false =>
    simp only [ne_eq, Bool.not_eq_false] at h
    simp only [decide_eq_false_iff_not]
    omega
  | true =>
    have hsplit := Finset.card_filter_add_card_filter_not (s := Finset.range k) (fun j => f j = true)
    rw [Finset.card_range] at hsplit
    simp only [ne_eq] at h
    simp only [decide_eq_true_eq]
    omega

theorem majorityK_eq_of_minorities_wrong {k : Nat} {x y : List Bit} (hk : 1 ≤ k) (hlen : y.length = k * x.length)
    (h : ∀ i < x.length, 2 * ((Finset.range k).filter fun j => bitAt y (i * k + j) ≠ bitAt x i).card < k) :
    majorityK k y = x := by
  have hx : (majorityK k y).length = x.length := by rw [majorityK_length, hlen, Nat.mul_div_cancel_left _ hk]
  refine ext_bitAt hx fun i hi => ?_
  rw [majorityK_bitAt hi]
  exact majority_of_minority_wrong (h i (hx ▸ hi))

theorem majorityK_repeatK {k : Nat} (hk : 1 ≤ k) (x : List Bit) : majorityK k (repeatK k x) = x := by
  refine majorityK_eq_of_minorities_wrong hk (repeatK_length k x) fun i _ => ?_
  have hnone : ((Finset.range k).filter fun j => bitAt (repeatK k x) (i * k + j) ≠ bitAt x i) = ∅ :=
    Finset.filter_eq_empty_iff.2 fun j hj => not_not.2 (repeatK_bitAt (Finset.mem_range.1 hj))
  rw [hnone, Finset.card_empty]
  omega

/-! The interleaver (41_transport_block_codec.md R133, R134). -/

/-- Every index of a matrix with rows of `w` elements is that of a cell. -/
theorem exists_cell {n w i : Nat} (h : i < n * w) : ∃ r k, r < n ∧ k < w ∧ i = r * w + k := by
  have hw : 0 < w := Nat.pos_of_mul_pos_left (Nat.zero_lt_of_lt h)
  exact ⟨i / w, i % w, Nat.div_lt_of_lt_mul (Nat.mul_comm n w ▸ h), Nat.mod_lt i hw, (Nat.div_add_mod' i w).symm⟩

theorem deinterleave_interleave {c : Cfg} {x : List Bit} (h : x.length = c.ilvR * c.ilvC) :
    deinterleave c (interleave c x) = x := by
  refine ext_bitAt (by rw [deinterleave_length, h]) fun i hi => ?_
  rw [deinterleave_length] at hi
  obtain ⟨r, k, hr, hk, rfl⟩ := exists_cell hi
  rw [deinterleave_bitAt c _ hr hk, interleave_bitAt c x hr hk]

theorem interleave_deinterleave {c : Cfg} {y : List Bit} (h : y.length = c.ilvR * c.ilvC) :
    interleave c (deinterleave c y) = y := by
  refine ext_bitAt (by rw [interleave_length, h]) fun i hi => ?_
  rw [interleave_length, Nat.mul_comm] at hi
  obtain ⟨k, r, hk, hr, rfl⟩ := exists_cell hi
  rw [interleave_bitAt c _ hr hk, deinterleave_bitAt c y hr hk]

/-! Total bits cut back into payload and CRC bits (41_transport_block_codec.md R128). -/

theorem payloadPart_append {p r : List Bit} (h : r.length = 24) : payloadPart (p ++ r) = p := by
  rw [payloadPart, List.length_append, h, Nat.add_sub_cancel, List.take_left]

theorem crcPart_append {p r : List Bit} (h : r.length = 24) : crcPart (p ++ r) = r := by
  rw [crcPart, List.length_append, h, Nat.add_sub_cancel, List.drop_left]

/-! The commands: each error with its condition, and the completion (41_transport_block_codec.md R124 to R136). -/

section
variable {s : State} {p r t x y : List Bit}

theorem exec_crcGen_empty (hrun : s.Running) (h : s.blk.pay = none) : exec .crcGen s = s.raised .empty :=
  exec_error hrun (by simp) (by simp [commandBody, crcGenBody, h])

theorem exec_crcGen_done (hrun : s.Running) (h : s.blk.pay = some p) :
    exec .crcGen s = s.done { s.blk with crcb := some (crcBits (crc24 s.cfg.crcVariant p)) } :=
  exec_ok hrun (by simp) (by simp [commandBody, crcGenBody, h])

theorem exec_crcVerify_empty (hrun : s.Running) (h : s.blk.tot = none) : exec .crcVerify s = s.raised .empty :=
  exec_error hrun (by simp) (by simp [commandBody, crcVerifyBody, h])

theorem exec_crcVerify_done (hrun : s.Running) (h : s.blk.tot = some t) :
    exec .crcVerify s = s.done (s.blk.withValidity (crcOk s.cfg t)) :=
  exec_ok hrun (by simp) (by simp [commandBody, crcVerifyBody, h])

theorem exec_tbAppend_empty (hrun : s.Running) (h : s.blk.pay = none ∨ s.blk.crcb = none) :
    exec .tbAppend s = s.raised .empty := by
  refine exec_error hrun (by simp) ?_
  simp only [commandBody, tbAppendBody]
  split
  · simp_all
  · rfl

theorem exec_tbAppend_over_capacity (hrun : s.Running) (hp : s.blk.pay = some p) (hr : s.blk.crcb = some r)
    (h : s.cfg.capBits < p.length + r.length) : exec .tbAppend s = s.raised .capacity :=
  exec_error hrun (by simp) (by simp [commandBody, tbAppendBody, hp, hr, h])

theorem exec_tbAppend_done (hrun : s.Running) (hp : s.blk.pay = some p) (hr : s.blk.crcb = some r)
    (h : p.length + r.length ≤ s.cfg.capBits) : exec .tbAppend s = s.done { s.blk with tot := some (p ++ r) } :=
  exec_ok hrun (by simp) (by simp [commandBody, tbAppendBody, hp, hr, h])

theorem exec_tbSplit_empty (hrun : s.Running) (h : s.blk.tot = none) : exec .tbSplit s = s.raised .empty :=
  exec_error hrun (by simp) (by simp [commandBody, tbSplitBody, h])

theorem exec_tbSplit_short (hrun : s.Running) (ht : s.blk.tot = some t) (h : t.length < 24) :
    exec .tbSplit s = s.raised .size :=
  exec_error hrun (by simp) (by simp [commandBody, tbSplitBody, ht, h])

theorem exec_tbSplit_done (hrun : s.Running) (ht : s.blk.tot = some t) (h : 24 ≤ t.length) :
    exec .tbSplit s = s.done { s.blk with pay := some (payloadPart t), crcb := some (crcPart t) } :=
  exec_ok hrun (by simp) (by simp [commandBody, tbSplitBody, ht, h])

theorem exec_repeatBits_empty (hrun : s.Running) (h : s.blk.tot = none) : exec .repeatBits s = s.raised .empty :=
  exec_error hrun (by simp) (by simp [commandBody, repeatBody, h])

theorem exec_repeatBits_over_capacity (hrun : s.Running) (ht : s.blk.tot = some t) (h : s.cfg.capBits < s.cfg.kRep * t.length) :
    exec .repeatBits s = s.raised .capacity :=
  exec_error hrun (by simp) (by simp [commandBody, repeatBody, ht, h])

theorem exec_repeatBits_done (hrun : s.Running) (ht : s.blk.tot = some t) (h : s.cfg.kRep * t.length ≤ s.cfg.capBits) :
    exec .repeatBits s = s.done { s.blk with cod := some (repeatK s.cfg.kRep t) } :=
  exec_ok hrun (by simp) (by simp [commandBody, repeatBody, ht, h])

theorem exec_majority_empty (hrun : s.Running) (h : s.blk.cod = none) : exec .majority s = s.raised .empty :=
  exec_error hrun (by simp) (by simp [commandBody, majorityBody, h])

theorem exec_majority_partial_group (hrun : s.Running) (hy : s.blk.cod = some y) (h : y.length % s.cfg.kRep ≠ 0) :
    exec .majority s = s.raised .size :=
  exec_error hrun (by simp) (by simp [commandBody, majorityBody, hy, h])

theorem exec_majority_done (hrun : s.Running) (hy : s.blk.cod = some y) (h : y.length % s.cfg.kRep = 0) :
    exec .majority s = s.done { s.blk with tot := some (majorityK s.cfg.kRep y) } :=
  exec_ok hrun (by simp) (by simp [commandBody, majorityBody, hy, h])

theorem exec_interleave_empty (hrun : s.Running) (h : s.blk.cod = none) : exec .interleave s = s.raised .empty :=
  exec_error hrun (by simp) (by simp [commandBody, interleaveBody, h])

theorem exec_interleave_wrong_size (hrun : s.Running) (hx : s.blk.cod = some x) (h : x.length ≠ s.cfg.ilvR * s.cfg.ilvC) :
    exec .interleave s = s.raised .ilvSize :=
  exec_error hrun (by simp) (by simp [commandBody, interleaveBody, hx, h])

theorem exec_interleave_done (hrun : s.Running) (hx : s.blk.cod = some x) (h : x.length = s.cfg.ilvR * s.cfg.ilvC) :
    exec .interleave s = s.done { s.blk with ilv := some (interleave s.cfg x) } :=
  exec_ok hrun (by simp) (by simp [commandBody, interleaveBody, hx, h])

theorem exec_deinterleave_empty (hrun : s.Running) (h : s.blk.ilv = none) : exec .deinterleave s = s.raised .empty :=
  exec_error hrun (by simp) (by simp [commandBody, deinterleaveBody, h])

theorem exec_deinterleave_wrong_size (hrun : s.Running) (hy : s.blk.ilv = some y) (h : y.length ≠ s.cfg.ilvR * s.cfg.ilvC) :
    exec .deinterleave s = s.raised .ilvSize :=
  exec_error hrun (by simp) (by simp [commandBody, deinterleaveBody, hy, h])

theorem exec_deinterleave_done (hrun : s.Running) (hy : s.blk.ilv = some y) (h : y.length = s.cfg.ilvR * s.cfg.ilvC) :
    exec .deinterleave s = s.done { s.blk with cod := some (deinterleave s.cfg y) } :=
  exec_ok hrun (by simp) (by simp [commandBody, deinterleaveBody, hy, h])

end

/-! Commands one after another. -/

/-- A command that completes hands its block on to the next. -/
theorem execAll_cons {i : Instr} {is : List Instr} {s : State} {b : Block} {o : Host.Outcome State Fault Refusal}
    (h : exec i s = s.done b) (hrest : execAll is (s.withBlk (b.withCode .ok)) = o) : execAll (i :: is) s = o := by
  have hnext : thenExec i (.next s) = .next (s.withBlk (b.withCode .ok)) := h
  rw [execAll, List.foldl_cons, hnext, ← execAll, hrest]

end Sys2Proof.Machine
end

section
/-! SUPPORT. `TB_BUILD` and `TB_PROCESS`: their errors, what they leave, that each is its four steps, and that the second undoes the
first (41_transport_block_codec.md R120, R138, R139); then what can change `TBVALID` (R140). -/

namespace Sys2Proof.Machine

/-! Total bits (41_transport_block_codec.md R124, R127). -/

/-- The total bits of a payload: the payload and its CRC bits. -/
def totalBits (c : Cfg) (p : List Bit) : List Bit := p ++ crcBits (crc24 c.crcVariant p)

theorem totalBits_def (c : Cfg) (p : List Bit) : totalBits c p = p ++ crcBits (crc24 c.crcVariant p) := rfl

@[simp] theorem totalBits_length (c : Cfg) (p : List Bit) : (totalBits c p).length = p.length + 24 := by simp [totalBits]

/-- The total bits of a payload verify (41_transport_block_codec.md R126). -/
theorem crcOk_totalBits (c : Cfg) (p : List Bit) : crcOk c (totalBits c p) = true :=
  beq_iff_eq.2 (crc24_append_crcBits c.crcVariant p)

/-- A single wrong bit among them is detected (41_transport_block_codec.md R126). -/
theorem crcOk_flipBit_totalBits {c : Cfg} {p : List Bit} {i : Nat} (hi : i < (totalBits c p).length) :
    crcOk c (flipBit (totalBits c p) i) = false :=
  beq_eq_false_iff_ne.2 (crc24_flipBit_ne_zero (crc24_append_crcBits c.crcVariant p) hi)

theorem payloadPart_totalBits (c : Cfg) (p : List Bit) : payloadPart (totalBits c p) = p :=
  payloadPart_append (crcBits_length _)

theorem crcPart_totalBits (c : Cfg) (p : List Bit) : crcPart (totalBits c p) = crcBits (crc24 c.crcVariant p) :=
  crcPart_append (crcBits_length _)

/-! `TB_BUILD` (41_transport_block_codec.md R138). -/

/-- What `TB_BUILD` leaves for the payload `p`. -/
def Block.built (c : Cfg) (b : Block) (p : List Bit) : Block :=
  { b with
    crcb := some (crcBits (crc24 c.crcVariant p)), tot := some (totalBits c p), cod := some (repeatK c.kRep (totalBits c p))
    ilv := some (interleave c (repeatK c.kRep (totalBits c p))) }

section
variable {s : State} {p : List Bit}

theorem exec_tbBuild_empty (hrun : s.Running) (h : s.blk.pay = none) : exec .tbBuild s = s.raised .empty :=
  exec_error hrun (by simp) (by simp [commandBody, tbBuildBody, h])

/-- The body of `TB_BUILD` by the lengths it checks. -/
theorem tbBuildBody_some {c : Cfg} {b : Block} (hp : b.pay = some p) :
    tbBuildBody c b =
      if c.capBits < p.length + 24 then .error .capacity
      else if c.capBits < c.kRep * (p.length + 24) then .error .capacity
      else if c.kRep * (p.length + 24) ≠ c.ilvR * c.ilvC then .error .ilvSize
      else .ok (b.built c p) := by
  simp only [tbBuildBody, hp, ← totalBits_def, repeatK_length, totalBits_length, Block.built]

theorem exec_tbBuild_over_capacity (hrun : s.Running) (hp : s.blk.pay = some p)
    (h : s.cfg.capBits < p.length + 24 ∨ s.cfg.capBits < s.cfg.kRep * (p.length + 24)) :
    exec .tbBuild s = s.raised .capacity := by
  refine exec_error hrun (by simp) ((tbBuildBody_some hp).trans ?_)
  split
  · rfl
  · rw [if_pos (h.resolve_left ‹_›)]

theorem exec_tbBuild_wrong_size (hrun : s.Running) (hp : s.blk.pay = some p) (htot : p.length + 24 ≤ s.cfg.capBits)
    (hcod : s.cfg.kRep * (p.length + 24) ≤ s.cfg.capBits) (h : s.cfg.kRep * (p.length + 24) ≠ s.cfg.ilvR * s.cfg.ilvC) :
    exec .tbBuild s = s.raised .ilvSize := by
  refine exec_error hrun (by simp) ((tbBuildBody_some hp).trans ?_)
  rw [if_neg (Nat.not_lt.2 htot), if_neg (Nat.not_lt.2 hcod), if_pos h]

theorem exec_tbBuild_done (hrun : s.Running) (hp : s.blk.pay = some p) (htot : p.length + 24 ≤ s.cfg.capBits)
    (hcod : s.cfg.kRep * (p.length + 24) ≤ s.cfg.capBits) (h : s.cfg.kRep * (p.length + 24) = s.cfg.ilvR * s.cfg.ilvC) :
    exec .tbBuild s = s.done (s.blk.built s.cfg p) := by
  refine exec_ok hrun (by simp) ((tbBuildBody_some hp).trans ?_)
  rw [if_neg (Nat.not_lt.2 htot), if_neg (Nat.not_lt.2 hcod), if_neg (not_not.2 h)]

end

/-! `TB_PROCESS` (41_transport_block_codec.md R139). -/

/-- What `TB_PROCESS` leaves for the interleaved bits `y`. -/
def Block.processed (c : Cfg) (b : Block) (y : List Bit) : Block :=
  let d := deinterleave c y
  let t := majorityK c.kRep d
  Block.withValidity { b with cod := some d, tot := some t, pay := some (payloadPart t), crcb := some (crcPart t) } (crcOk c t)

section
variable {s : State} {y : List Bit}

theorem exec_tbProcess_empty (hrun : s.Running) (h : s.blk.ilv = none) : exec .tbProcess s = s.raised .empty :=
  exec_error hrun (by simp) (by simp [commandBody, tbProcessBody, h])

theorem exec_tbProcess_wrong_size (hrun : s.Running) (hy : s.blk.ilv = some y)
    (h : y.length ≠ s.cfg.ilvR * s.cfg.ilvC) : exec .tbProcess s = s.raised .ilvSize :=
  exec_error hrun (by simp) (by simp [commandBody, tbProcessBody, hy, h])

/-- The body of `TB_PROCESS` after its size check, by the lengths it checks. -/
theorem tbProcessBody_some {c : Cfg} {b : Block} (hy : b.ilv = some y) (hsize : y.length = c.ilvR * c.ilvC) :
    tbProcessBody c b =
      if y.length % c.kRep ≠ 0 then .error .size
      else if y.length / c.kRep < 24 then .error .size
      else .ok (b.processed c y) := by
  simp only [tbProcessBody, hy, majorityK_length, deinterleave_length, ← hsize, Block.processed]
  rw [if_neg (not_not.2 rfl)]

theorem exec_tbProcess_size (hrun : s.Running) (hy : s.blk.ilv = some y) (hsize : y.length = s.cfg.ilvR * s.cfg.ilvC)
    (h : y.length % s.cfg.kRep ≠ 0 ∨ y.length / s.cfg.kRep < 24) : exec .tbProcess s = s.raised .size := by
  refine exec_error hrun (by simp) ((tbProcessBody_some hy hsize).trans ?_)
  split
  · rfl
  · rw [if_pos (h.resolve_left ‹_›)]

theorem exec_tbProcess_done (hrun : s.Running) (hy : s.blk.ilv = some y) (hsize : y.length = s.cfg.ilvR * s.cfg.ilvC)
    (hgroups : y.length % s.cfg.kRep = 0) (htot : 24 ≤ y.length / s.cfg.kRep) :
    exec .tbProcess s = s.done (s.blk.processed s.cfg y) := by
  refine exec_ok hrun (by simp) ((tbProcessBody_some hy hsize).trans ?_)
  rw [if_neg (not_not.2 hgroups), if_neg (Nat.not_lt.2 htot)]

end

/-- The receive path undoes the transmit path: deinterleaving, majority and the cut give back, one by one, what interleaving,
repetition and the CRC made of the payload (41_transport_block_codec.md R120). -/
theorem exec_tbProcess_of_sent {s : State} {p : List Bit} (hrun : s.Running) (hk : 1 ≤ s.cfg.kRep)
    (hsize : s.cfg.kRep * (p.length + 24) = s.cfg.ilvR * s.cfg.ilvC)
    (hy : s.blk.ilv = some (interleave s.cfg (repeatK s.cfg.kRep (totalBits s.cfg p)))) :
    exec .tbProcess s = s.done (Block.withValidity
      { s.blk with
        cod := some (repeatK s.cfg.kRep (totalBits s.cfg p)), tot := some (totalBits s.cfg p), pay := some p
        crcb := some (crcBits (crc24 s.cfg.crcVariant p)) }
      true) := by
  have hd : deinterleave s.cfg (interleave s.cfg (repeatK s.cfg.kRep (totalBits s.cfg p))) =
      repeatK s.cfg.kRep (totalBits s.cfg p) :=
    deinterleave_interleave (by rw [repeatK_length, totalBits_length, hsize])
  have hlen : (interleave s.cfg (repeatK s.cfg.kRep (totalBits s.cfg p))).length = s.cfg.kRep * (p.length + 24) := by
    rw [interleave_length, hsize]
  have hgroups : s.cfg.kRep * (p.length + 24) % s.cfg.kRep = 0 := Nat.mul_mod_right _ _
  have hquot : s.cfg.kRep * (p.length + 24) / s.cfg.kRep = p.length + 24 := Nat.mul_div_cancel_left _ hk
  rw [exec_tbProcess_done hrun hy (hlen.trans hsize) (hlen ▸ hgroups) (by rw [hlen, hquot]; omega), Block.processed]
  simp only [hd, majorityK_repeatK hk, payloadPart_totalBits, crcPart_totalBits, crcOk_totalBits]

/-! Commands one after another. -/

theorem execAll_interleave_deinterleave {s : State} {x : List Bit} (hrun : s.Running)
    (hx : x.length = s.cfg.ilvR * s.cfg.ilvC) (hcod : s.blk.cod = some x) :
    execAll [.interleave, .deinterleave] s = s.done { s.blk with ilv := some (interleave s.cfg x), cod := some x } := by
  refine execAll_cons (exec_interleave_done hrun hcod hx) ?_
  refine Eq.trans (exec_deinterleave_done hrun rfl (interleave_length s.cfg x)) ?_
  rw [State.withBlk_cfg, deinterleave_interleave hx]
  rfl

theorem execAll_deinterleave_interleave {s : State} {y : List Bit} (hrun : s.Running)
    (hy : y.length = s.cfg.ilvR * s.cfg.ilvC) (hilv : s.blk.ilv = some y) :
    execAll [.deinterleave, .interleave] s = s.done { s.blk with cod := some (deinterleave s.cfg y), ilv := some y } := by
  refine execAll_cons (exec_deinterleave_done hrun hilv hy) ?_
  refine Eq.trans (exec_interleave_done hrun rfl (deinterleave_length s.cfg y)) ?_
  rw [State.withBlk_cfg, interleave_deinterleave hy]
  rfl

theorem execAll_crcGen_tbAppend {s : State} {p : List Bit} (hrun : s.Running) (hp : s.blk.pay = some p)
    (hcap : p.length + 24 ≤ s.cfg.capBits) :
    execAll [.crcGen, .tbAppend] s =
      s.done { s.blk with crcb := some (crcBits (crc24 s.cfg.crcVariant p)), tot := some (totalBits s.cfg p) } := by
  refine execAll_cons (exec_crcGen_done hrun hp) ?_
  exact exec_tbAppend_done hrun hp rfl (by simpa using hcap)

/-- `TB_BUILD` is its four steps (41_transport_block_codec.md R138). -/
theorem execAll_build_steps {s : State} {p : List Bit} (hrun : s.Running) (hp : s.blk.pay = some p)
    (htot : p.length + 24 ≤ s.cfg.capBits) (hcod : s.cfg.kRep * (p.length + 24) ≤ s.cfg.capBits)
    (hsize : s.cfg.kRep * (p.length + 24) = s.cfg.ilvR * s.cfg.ilvC) :
    execAll [.crcGen, .tbAppend, .repeatBits, .interleave] s = s.done (s.blk.built s.cfg p) := by
  refine execAll_cons (exec_crcGen_done hrun hp) ?_
  refine execAll_cons (exec_tbAppend_done hrun hp rfl (by simpa using htot)) ?_
  refine execAll_cons (exec_repeatBits_done hrun rfl (by simpa using hcod)) ?_
  exact exec_interleave_done hrun rfl (by simpa using hsize)

/-- `TB_PROCESS` is its four steps (41_transport_block_codec.md R139). -/
theorem execAll_process_steps {s : State} {y : List Bit} (hrun : s.Running) (hy : s.blk.ilv = some y)
    (hsize : y.length = s.cfg.ilvR * s.cfg.ilvC) (hgroups : y.length % s.cfg.kRep = 0) (htot : 24 ≤ y.length / s.cfg.kRep) :
    execAll [.deinterleave, .majority, .tbSplit, .crcVerify] s = s.done (s.blk.processed s.cfg y) := by
  rw [hsize] at hgroups htot
  refine execAll_cons (exec_deinterleave_done hrun hy hsize) ?_
  refine execAll_cons (exec_majority_done hrun rfl (by simpa using hgroups)) ?_
  refine execAll_cons (exec_tbSplit_done hrun rfl (by simpa using htot)) ?_
  exact exec_crcVerify_done hrun rfl

/-! What a step can do to `TBVALID` (41_transport_block_codec.md R140). -/

/-- A step that changes a part no host access names completed a command whose column names it. -/
theorem StepOutcome.completed {c : Cfg} {b b' : Block} {h : HostStep} (ho : StepOutcome c b h b') {p : Part}
    (hp : ¬Part.Same b b' p) (hhost : p ∉ hostWrites h) :
    ∃ i b₁, commandWord h = some (encode i) ∧ p ∈ writes i ∧ commandBody c b i = .ok b₁ ∧ b' = b₁.withCode .ok := by
  cases ho with
  | word hw ho =>
    cases ho with
    | refused => exact absurd (same_withCode_iff.2 (same_refl b p)) hp
    | raised => exact absurd (same_raise b _ p) hp
    | @completed i b₁ hi _ hb =>
      refine ⟨i, b₁, by rw [hw, encode_of_decode hi], ?_, hb, rfl⟩
      by_contra hn
      exact hp (same_withCode_iff.2 (((commandBody_writesOnly c b i).of_ok hb).same p hn))
  | kept => exact absurd (same_refl b p) hp
  | hwr hb => exact absurd ((hwr_writesOnly hb).2.same p hhost) hp
  | csrw n v => exact absurd ((csrw_writesOnly b n v).2.same p hhost) hp

theorem tbvalid_not_mem_hostWrites (h : HostStep) : .tbvalid ∉ hostWrites h := by
  cases h with
  | hwr id off seq => simp only [hostWrites]; split <;> simp
  | csrw n v => simp only [hostWrites]; split <;> simp
  | cmd w => simp [hostWrites]
  | hrd id off n => simp [hostWrites]
  | csrr n => simp [hostWrites]

theorem writer_tbvalid {i : Instr} (h : .tbvalid ∈ writes i) :
    i = .txReset ∨ i = .runReset ∨ i = .crcVerify ∨ i = .tbProcess := by
  cases i with
  | txReset | runReset | crcVerify | tbProcess => simp
  | _ => simp [writes] at h

/-- `TBVALID` says whether `TOT` holds total bits that verify. -/
def Block.TbvalidIsCrcOf (v : CrcVariant) (b : Block) : Prop :=
  ∃ tot, b.tot = some tot ∧ (b.tbvalid = true ↔ crcNat v tot = 0)

theorem tbvalidIsCrcOf_withValidity {c : Cfg} {b : Block} {t : List Bit} (h : b.tot = some t) :
    ((b.withValidity (crcOk c t)).withCode .ok).TbvalidIsCrcOf c.crcVariant :=
  ⟨t, h, by simp [crcOk_eq]⟩

theorem crcVerify_tbvalidIsCrcOf {c : Cfg} {b b₁ : Block} (h : crcVerifyBody c b = .ok b₁) :
    (b₁.withCode .ok).TbvalidIsCrcOf c.crcVariant := by
  obtain ⟨t, ht, rfl⟩ := (crcVerifyBody_endsIn c b).of_ok h
  exact tbvalidIsCrcOf_withValidity ht

theorem tbProcess_tbvalidIsCrcOf {c : Cfg} {b b₁ : Block} (h : tbProcessBody c b = .ok b₁) :
    (b₁.withCode .ok).TbvalidIsCrcOf c.crcVariant := by
  obtain ⟨y, d, t, -, -, -, -, -, -, rfl⟩ := (tbProcessBody_endsIn c b).of_ok h
  exact tbvalidIsCrcOf_withValidity rfl

end Sys2Proof.Machine
end

section
/-! Obligations of 41_transport_block_codec.md: the CRC commands, repetition and majority, the interleaver, the two pipelines and
their round trip, and what can change `TBVALID`. -/

namespace Sys2Proof.Machine

/-- Settles O21: the step completed a command whose column names `TBVALID`, and these are the resets and the two CRC checks. -/
theorem tbvalidIsTheCrcResult : Obligations.TbvalidIsTheCrcResult := by
  intro s t ht hne
  obtain ⟨h, hf, ho, -⟩ := step_outcome ht
  obtain ⟨i, b, hw, hi, hb, hblk⟩ := ho.completed (p := .tbvalid) hne (tbvalid_not_mem_hostWrites h)
  refine ⟨h, hf, ?_⟩
  rw [hblk, hw]
  rcases writer_tbvalid hi with rfl | rfl | rfl | rfl
  · cases hb; exact .inl ⟨.inl rfl, rfl⟩
  · cases hb; exact .inl ⟨.inr rfl, rfl⟩
  · exact .inr ⟨.inl rfl, crcVerify_tbvalidIsCrcOf hb⟩
  · exact .inr ⟨.inr rfl, tbProcess_tbvalidIsCrcOf hb⟩

/-- Settles O25: the register of the model is the number of the rule, so its bits are that number's. -/
theorem crcGen : Obligations.CrcGen := by
  refine ⟨spells_encode (i := .crcGen) trivial, fun s hrun => ⟨exec_crcGen_empty hrun, fun p hp => ?_⟩⟩
  refine ⟨_, exec_crcGen_done hrun hp, crcBits_length _, fun i hi => ?_⟩
  rw [crcBits_bitAt _ hi, ← crc24_toNat, BitVec.testBit_toNat]

/-- Settles O26: the check of the model is the test of the rule's number for zero. -/
theorem crcVerify : Obligations.CrcVerify := by
  refine ⟨spells_encode (i := .crcVerify) trivial, fun s hrun => ⟨exec_crcVerify_empty hrun, fun t ht => ?_⟩⟩
  rw [exec_crcVerify_done hrun ht, crcOk_eq]
  simp [Block.withValidity, Status.withCrcFail]

/-- Settles O27: the CRC bits bring the register to zero, and a flipped bit adds a difference that never dies out. -/
theorem crcDetectsSingleErrors : Obligations.CrcDetectsSingleErrors := by
  refine ⟨fun v p => ?_, fun s p hrun hp hcap => ?_⟩
  · have hzero := crc24_append_crcBits v p
    simp only [← crcBits_crc24, ← crc24_eq_zero_iff, ne_eq]
    exact ⟨hzero, fun i hi => crc24_flipBit_ne_zero hzero hi⟩
  · refine ⟨_, _, execAll_crcGen_tbAppend hrun hp hcap, rfl, totalBits_length _ p, ?_, fun i hi => ?_⟩
    · exact ⟨_, exec_crcVerify_done hrun rfl, crcOk_totalBits s.cfg p, by simp [Block.withValidity, crcOk_totalBits]⟩
    · have hbad := crcOk_flipBit_totalBits (c := s.cfg) hi
      exact ⟨_, exec_crcVerify_done hrun rfl, rfl, hbad, by simp [Block.withValidity, hbad]⟩

/-- Settles O28. -/
theorem tbAppendAndTbSplit : Obligations.TbAppendAndTbSplit := by
  refine ⟨spells_encode (i := .tbAppend) trivial, spells_encode (i := .tbSplit) trivial, fun s hrun =>
    ⟨exec_tbAppend_empty hrun, fun p r hp hr => ⟨exec_tbAppend_over_capacity hrun hp hr, exec_tbAppend_done hrun hp hr⟩,
      exec_tbSplit_empty hrun, fun t ht => ⟨exec_tbSplit_short hrun ht, fun h => ?_⟩⟩⟩
  exact ⟨_, _, exec_tbSplit_done hrun ht h, payloadPart_append_crcPart t, crcPart_length h⟩

/-- Settles O29. -/
theorem Codec.repeat : Obligations.Repeat :=
  ⟨spells_encode (i := .repeatBits) trivial, fun _ hrun => ⟨exec_repeatBits_empty hrun, fun t ht =>
    ⟨exec_repeatBits_over_capacity hrun ht, fun h =>
      ⟨_, exec_repeatBits_done hrun ht h, repeatK_length _ t, fun _ _ _ hj => repeatK_bitAt hj⟩⟩⟩⟩

/-- Settles O30. -/
theorem majority : Obligations.Majority :=
  ⟨spells_encode (i := .majority) trivial, fun _ hrun => ⟨exec_majority_empty hrun, fun y hy =>
    ⟨exec_majority_partial_group hrun hy, fun h =>
      ⟨_, exec_majority_done hrun hy h, majorityK_length _ y, fun _ hi => majorityK_bitAt hi⟩⟩⟩⟩

/-- Settles O31: each group's wrong copies are outvoted. -/
theorem majorityCorrectsMinorities : Obligations.MajorityCorrectsMinorities := by
  intro s x y hrun hk hy hlen hwrong
  have hgroups : y.length % s.cfg.kRep = 0 := by rw [hlen, Nat.mul_mod_right]
  rw [exec_majority_done hrun hy hgroups, majorityK_eq_of_minorities_wrong hk hlen hwrong]

/-- Settles O32. -/
theorem Codec.interleave : Obligations.Interleave :=
  ⟨spells_encode (i := .interleave) trivial, fun s hrun => ⟨exec_interleave_empty hrun, fun x hx =>
    ⟨exec_interleave_wrong_size hrun hx, fun h =>
      ⟨_, exec_interleave_done hrun hx h, interleave_length s.cfg x, fun _ _ hr hc => interleave_bitAt s.cfg x hr hc⟩⟩⟩⟩

/-- Settles O33. -/
theorem Codec.deinterleave : Obligations.Deinterleave :=
  ⟨spells_encode (i := .deinterleave) trivial, fun s hrun => ⟨exec_deinterleave_empty hrun, fun y hy =>
    ⟨exec_deinterleave_wrong_size hrun hy, fun h =>
      ⟨_, exec_deinterleave_done hrun hy h, deinterleave_length s.cfg y, fun _ _ hr hc => deinterleave_bitAt s.cfg y hr hc⟩⟩⟩⟩

/-- Settles O34: the second command undoes what the first one wrote. -/
theorem interleaverRoundTrip : Obligations.InterleaverRoundTrip := fun _ _ hrun hx =>
  ⟨fun hcod => ⟨_, execAll_interleave_deinterleave hrun hx hcod⟩, fun hilv => ⟨_, execAll_deinterleave_interleave hrun hx hilv⟩⟩

/-- Settles O35: the one command and the four end in the same block. -/
theorem tbBuildIsItsSteps : Obligations.TbBuildIsItsSteps := by
  refine ⟨spells_encode (i := .tbBuild) trivial, fun s hrun => ⟨exec_tbBuild_empty hrun, fun p hp =>
    ⟨exec_tbBuild_over_capacity hrun hp, fun htot hcod =>
      ⟨exec_tbBuild_wrong_size hrun hp htot hcod, fun hsize => ?_⟩⟩⟩⟩
  have hdone := exec_tbBuild_done hrun hp htot hcod hsize
  exact ⟨_, _, _, _, hdone, (execAll_build_steps hrun hp htot hcod hsize).trans hdone.symm⟩

/-- Settles O36: the one command and the four end in the same block, whatever the CRC. -/
theorem tbProcessIsItsSteps : Obligations.TbProcessIsItsSteps := by
  refine ⟨spells_encode (i := .tbProcess) trivial, fun s hrun => ⟨exec_tbProcess_empty hrun, fun y hy =>
    ⟨exec_tbProcess_wrong_size hrun hy, fun hsize =>
      ⟨exec_tbProcess_size hrun hy hsize, fun hgroups htot => ?_⟩⟩⟩⟩
  have hdone := exec_tbProcess_done hrun hy hsize hgroups htot
  exact ⟨_, _, _, _, _, hdone, (execAll_process_steps hrun hy hsize hgroups htot).trans hdone.symm⟩

/-- Settles O37: `TB_PROCESS` finds in `ILV` what `TB_BUILD` made of the payload. -/
theorem transportBlockRoundTrip : Obligations.TransportBlockRoundTrip := by
  intro s p hrun hp hk hcap hsize
  have htot : p.length + 24 ≤ s.cfg.capBits := (Nat.le_mul_of_pos_left _ hk).trans hcap
  exact ⟨_, _, exec_tbBuild_done hrun hp htot hcap hsize, exec_tbProcess_of_sent hrun hk hsize rfl,
    rfl, rfl, rfl, rfl, rfl, rfl, rfl, rfl, rfl, rfl, rfl⟩

end Sys2Proof.Machine
end

section
/-! SUPPORT. The spiral points as complex numbers (42_constellation.md R151 to R153, R157): what each point is, its modulus, the
mean power of all of them, and that no two coincide. -/

namespace Sys2Proof.Machine

@[simp] theorem angleStep_val : Config.angleStep.val = goldenAngle := by
  simp [Config.angleStep, Config.goldenRatio, goldenAngle, Num.val_root_of_nonneg, div_eq_inv_mul]

/-- The scaled radius `sqrt(2(i+1)/(m+1))` of point `i` of `m` (42_constellation.md R152). -/
noncomputable def spiralRadius (m i : Nat) : ℝ := Real.sqrt (2 * ((i : ℝ) + 1) / ((m : ℝ) + 1))

theorem spiralRadius_nonneg (m i : Nat) : 0 ≤ spiralRadius m i := Real.sqrt_nonneg _

theorem spiralPoint_val (m i : Nat) :
    (spiralPoint m i).val = spiralRadius m i * Complex.exp (((((i : ℝ) + 1) * goldenAngle : ℝ) : ℂ) * Complex.I) := by
  simp [spiralPoint, spiralRadius]

/-- The modulus of a point is its radius, because its direction has modulus 1. -/
theorem norm_spiralPoint (m i : Nat) : ‖(spiralPoint m i).val‖ = spiralRadius m i := by
  rw [spiralPoint_val, norm_mul, Complex.norm_exp_ofReal_mul_I, mul_one, Complex.norm_of_nonneg (spiralRadius_nonneg m i)]

theorem spiralRadius_strictMono (m : Nat) : StrictMono (spiralRadius m) := by
  intro i j hij
  have hij' : (i : ℝ) < j := by exact_mod_cast hij
  exact Real.sqrt_lt_sqrt (by positivity) (by gcongr)

theorem spiralRadius_sq (m i : Nat) : spiralRadius m i ^ 2 = 2 / ((m : ℝ) + 1) * ((i : ℝ) + 1) := by
  rw [spiralRadius, Real.sq_sqrt (by positivity)]
  ring

/-- The squared radii of the first `n` points of the spiral of `m`, summed. -/
theorem sum_spiralRadius_sq (m n : Nat) :
    ∑ i ∈ Finset.range n, spiralRadius m i ^ 2 = (n : ℝ) * (n + 1) / (m + 1) := by
  induction n with
  | zero => simp
  | succ n ih =>
    rw [Finset.sum_range_succ, ih, spiralRadius_sq]
    push_cast
    ring

/-- The scale of 42_constellation.md R152: the squared radii of all `m` points sum to `m`. -/
theorem sum_spiralRadius_sq_self (m : Nat) : ∑ i ∈ Finset.range m, spiralRadius m i ^ 2 = (m : ℝ) := by
  rw [sum_spiralRadius_sq, mul_div_assoc, div_self (by positivity), mul_one]

/-! The record `CONST_BUILD` writes. -/

theorem sampleAt_buildConst (c : Cfg) {b i : Nat} (hi : i < 2 ^ b) : sampleAt (buildConst c b).pt i = spiralPoint (2 ^ b) i :=
  sampleAt_map_range hi

theorem norm_cval_buildConst (c : Cfg) {b i : Nat} (hi : i < 2 ^ b) :
    ‖cval (buildConst c b).pt i‖ = spiralRadius (2 ^ b) i := by
  rw [cval, sampleAt_buildConst c hi, norm_spiralPoint]

theorem norm_cval_buildConst_strictMonoOn (c : Cfg) (b : Nat) :
    StrictMonoOn (fun i => ‖cval (buildConst c b).pt i‖) (Set.Iio (2 ^ b)) := by
  intro i hi j hj hij
  simp only [norm_cval_buildConst c hi, norm_cval_buildConst c hj]
  exact spiralRadius_strictMono _ hij

/-- The points are distinct, because their moduli are (42_constellation.md R157). -/
theorem cval_buildConst_injOn (c : Cfg) (b : Nat) :
    Set.InjOn (cval (buildConst c b).pt) (Set.Iio (buildConst c b).pt.length) := by
  rw [buildConst_pt_length]
  exact (norm_cval_buildConst_strictMonoOn c b).injOn.of_comp

end Sys2Proof.Machine
end

section
/-! SUPPORT. The bit mapper and the nearest-point demapper group by group, and that the second undoes the first
(42_constellation.md R154 to R157). -/

namespace Sys2Proof.Machine

/-! Groups of a sequence (00_scope.md R13). -/

theorem slice_length_of_group {α : Type} {xs : List α} {w g : Nat} (hg : g < xs.length / w) :
    (slice xs (g * w) w).length = w := by
  have h : g * w + w ≤ xs.length :=
    (Nat.succ_mul g w).ge.trans ((Nat.mul_le_mul_right w hg).trans (Nat.div_mul_le_self _ _))
  rw [slice_length]
  omega

/-- A sequence of whole groups is its groups joined end to end. -/
theorem flatMap_slices {α : Type} {xs : List α} {w : Nat} (h : xs.length % w = 0) :
    ((List.range (xs.length / w)).flatMap fun g => slice xs (g * w) w) = xs := by
  have hrow : ∀ g < xs.length / w, (slice xs (g * w) w).length = w := fun g hg => slice_length_of_group hg
  have hlen : xs.length / w * w = xs.length := Nat.div_mul_cancel (Nat.dvd_of_mod_eq_zero h)
  refine List.ext_getElem? fun i => ?_
  rcases Nat.lt_or_ge i xs.length with hi | hi
  · obtain ⟨g, j, hg, hj, rfl⟩ := exists_cell (hi.trans_eq hlen.symm)
    rw [rows_getElem? hrow hg hj, slice_getElem? xs hj]
  · rw [List.getElem?_eq_none ((rows_length hrow).trans hlen |>.trans_le hi), List.getElem?_eq_none hi]

/-- Group `l` of rows joined end to end is row `l`. -/
theorem slice_flatMap {α β : Type} {f : α → List β} {w : Nat} {xs : List α} (h : ∀ x ∈ xs, (f x).length = w) {l : Nat}
    (hl : l < xs.length) : slice (xs.flatMap f) (l * w) w = f xs[l] := by
  have hrow : (f xs[l]).length = w := h _ (List.getElem_mem hl)
  refine List.ext_getElem? fun i => ?_
  rcases Nat.lt_or_ge i w with hi | hi
  · rw [slice_getElem? _ hi, flatMap_getElem? xs h hi, List.getElem?_eq_getElem hl, Option.bind_some]
  · rw [List.getElem?_eq_none (by simp; omega), List.getElem?_eq_none (hrow.trans_le hi)]

/-! The table (42_constellation.md R153). -/

section
variable {k : Const}

/-- Tuple `i` of the record, with its length b. -/
def Const.Ok.vector (h : k.Ok) (i : Fin k.tup.length) : List.Vector Bit k.b :=
  ⟨k.tup[i], h.tup_bits _ (List.getElem_mem i.isLt)⟩

theorem Const.Ok.vector_injective (h : k.Ok) : Function.Injective h.vector := fun _ _ hij =>
  Fin.ext (h.tup_distinct.getElem_inj_iff.1 (congrArg Subtype.val hij))

/-- There are 2^b sequences of b bits and as many distinct tuples, so the tuples are all of them. -/
theorem Const.Ok.vector_bijective (h : k.Ok) : Function.Bijective h.vector :=
  (Fintype.bijective_iff_injective_and_card _).2
    ⟨h.vector_injective, by rw [Fintype.card_fin, card_vector, Fintype.card_bool, h.tup_size]⟩

theorem Const.Ok.mem_tup (h : k.Ok) {grp : List Bit} (hgrp : grp.length = k.b) : grp ∈ k.tup := by
  obtain ⟨i, hi⟩ := h.vector_bijective.2 ⟨grp, hgrp⟩
  have htup : k.tup[i] = grp := congrArg Subtype.val hi
  exact htup ▸ List.getElem_mem i.isLt

/-- The index the mapper looks up is that of the group's own tuple (42_constellation.md R154). -/
theorem Const.Ok.tup_tupleIndex (h : k.Ok) {grp : List Bit} (hgrp : grp.length = k.b) :
    tupleIndex k grp < 2 ^ k.b ∧ k.tup[tupleIndex k grp]? = some grp := by
  have hlt : tupleIndex k grp < k.tup.length :=
    List.findIdx_lt_length_of_exists ⟨grp, h.mem_tup hgrp, beq_self_eq_true grp⟩
  refine ⟨h.tup_size ▸ hlt, ?_⟩
  exact (List.getElem?_eq_getElem hlt).trans (congrArg some (beq_iff_eq.1 (List.findIdx_getElem (w := hlt))))

/-! The mapper (42_constellation.md R154). -/

theorem modulateBits_getElem? (h : k.Ok) {bits : List Bit} {g : Nat} (hg : g < bits.length / k.b) :
    (modulateBits k bits)[g]? = k.pt[tupleIndex k (slice bits (g * k.b) k.b)]? := by
  have hlt : tupleIndex k (slice bits (g * k.b) k.b) < k.pt.length :=
    h.pt_size ▸ (h.tup_tupleIndex (slice_length_of_group hg)).1
  simp [modulateBits, hg, sampleAt_of_lt hlt, hlt]

/-! The demapper (42_constellation.md R155). -/

theorem Const.Ok.pt_pos (h : k.Ok) : 0 < k.pt.length := by rw [h.pt_size]; positivity

/-- The demapper emits the tuple of the point it chooses. -/
theorem Const.Ok.tup_nearest (h : k.Ok) (y : Cplx) : k.tup[nearest k.pt y]? = some (k.tup.getD (nearest k.pt y) []) := by
  have hlt : nearest k.pt y < k.tup.length := h.tup_size ▸ h.pt_size ▸ nearest_lt h.pt_pos y
  simp [hlt]

theorem Const.Ok.tup_nearest_length (h : k.Ok) (y : Cplx) : (k.tup.getD (nearest k.pt y) []).length = k.b :=
  h.tup_bits _ (List.mem_of_getElem? (h.tup_nearest y))

theorem slice_demodulateSyms (h : k.Ok) {ys : List Cplx} {g : Nat} (hg : g < ys.length) :
    slice (demodulateSyms k ys) (g * k.b) k.b = k.tup.getD (nearest k.pt (sampleAt ys g)) [] := by
  rw [demodulateSyms, slice_flatMap (fun y _ => h.tup_nearest_length y) hg, sampleAt_of_lt hg]

/-! The demapper after the mapper (42_constellation.md R157). -/

theorem distR_eq_normSq (y p : ℂ) : distR y p = Complex.normSq (y - p) := by
  simp [distR, Complex.normSq_apply, pow_two]

theorem distR_self (y : ℂ) : distR y y = 0 := by simp [distR]

theorem distR_nonneg (y p : ℂ) : 0 ≤ distR y p := distR_eq_normSq y p ▸ Complex.normSq_nonneg _

theorem distR_pos {y p : ℂ} (h : y ≠ p) : 0 < distR y p :=
  distR_eq_normSq y p ▸ Complex.normSq_pos.2 (sub_ne_zero.2 h)

/-- A point is nearest to itself alone, where no two points coincide. -/
theorem nearest_sampleAt {pt : List Cplx} (hpt : Set.InjOn (cval pt) (Set.Iio pt.length)) {i : Nat} (hi : i < pt.length) :
    nearest pt (sampleAt pt i) = i := by
  have hself : distR (sampleAt pt i).val (cval pt i) = 0 := distR_self _
  refine nearest_eq hi (fun j _ => hself.trans_le (distR_nonneg _ _)) fun j hj => hself.trans_lt (distR_pos fun heq => ?_)
  exact hj.ne (hpt (hj.trans hi) hi heq.symm)

/-- A sent point is demapped to the group it was sent for. -/
theorem tup_nearest_tupleIndex (h : k.Ok) (hpt : Set.InjOn (cval k.pt) (Set.Iio k.pt.length)) {grp : List Bit}
    (hgrp : grp.length = k.b) : k.tup.getD (nearest k.pt (sampleAt k.pt (tupleIndex k grp))) [] = grp := by
  obtain ⟨hlt, htup⟩ := h.tup_tupleIndex hgrp
  rw [nearest_sampleAt hpt (h.pt_size ▸ hlt), List.getD_eq_getElem?_getD, htup, Option.getD_some]

theorem demodulateSyms_modulateBits (h : k.Ok) (hpt : Set.InjOn (cval k.pt) (Set.Iio k.pt.length)) {bits : List Bit}
    (hbits : bits.length % k.b = 0) : demodulateSyms k (modulateBits k bits) = bits :=
  calc demodulateSyms k (modulateBits k bits)
    _ = (List.range (bits.length / k.b)).flatMap fun g => slice bits (g * k.b) k.b := by
      rw [demodulateSyms, modulateBits, List.flatMap_map]
      exact List.flatMap_congr fun g hg => tup_nearest_tupleIndex h hpt (slice_length_of_group (List.mem_range.1 hg))
    _ = bits := flatMap_slices hbits

end

/-! The commands: each error with its condition, and the completion (42_constellation.md R153 to R155). -/

section
variable {s : State} {b : Nat} {bits : List Bit} {ys : List Cplx} {k : Const}

theorem exec_constBuild_out_of_range (hrun : s.Running) (h : s.cfg.supports b = false) :
    exec (.constBuild b) s = s.raised .bpsRange :=
  exec_error hrun (by simp) (by simp [commandBody, constBuildBody, h])

theorem exec_constBuild_done (hrun : s.Running) (h : s.cfg.supports b = true) :
    exec (.constBuild b) s = s.done { s.blk with const := some (buildConst s.cfg b) } :=
  exec_ok hrun (by simp) (by simp [commandBody, constBuildBody, h])

theorem exec_modulate_empty (hrun : s.Running) (h : s.blk.ilv = none ∨ s.blk.const = none) :
    exec .modulate s = s.raised .empty := by
  refine exec_error hrun (by simp) ?_
  simp only [commandBody, modulateBody]
  split
  · simp_all
  · rfl

theorem exec_modulate_partial_group (hrun : s.Running) (hb : s.blk.ilv = some bits) (hk : s.blk.const = some k)
    (h : bits.length % k.b ≠ 0) : exec .modulate s = s.raised .modLen :=
  exec_error hrun (by simp) (by simp [commandBody, modulateBody, hb, hk, h])

theorem exec_modulate_over_capacity (hrun : s.Running) (hb : s.blk.ilv = some bits) (hk : s.blk.const = some k)
    (hgroups : bits.length % k.b = 0) (h : s.cfg.capSyms < bits.length / k.b) : exec .modulate s = s.raised .capacity :=
  exec_error hrun (by simp) (by simp [commandBody, modulateBody, hb, hk, hgroups, h])

theorem exec_modulate_done (hrun : s.Running) (hb : s.blk.ilv = some bits) (hk : s.blk.const = some k)
    (hgroups : bits.length % k.b = 0) (h : bits.length / k.b ≤ s.cfg.capSyms) :
    exec .modulate s = s.done { s.blk with syms := some (modulateBits k bits) } :=
  exec_ok hrun (by simp) (by simp [commandBody, modulateBody, hb, hk, hgroups, h])

theorem exec_demodulate_empty (hrun : s.Running) (h : s.blk.syms = none ∨ s.blk.const = none) :
    exec .demodulate s = s.raised .empty := by
  refine exec_error hrun (by simp) ?_
  simp only [commandBody, demodulateBody]
  split
  · simp_all
  · rfl

theorem exec_demodulate_over_capacity (hrun : s.Running) (hy : s.blk.syms = some ys) (hk : s.blk.const = some k)
    (h : s.cfg.capBits < k.b * ys.length) : exec .demodulate s = s.raised .capacity :=
  exec_error hrun (by simp) (by simp [commandBody, demodulateBody, hy, hk, h])

theorem exec_demodulate_done (hrun : s.Running) (hy : s.blk.syms = some ys) (hk : s.blk.const = some k)
    (h : k.b * ys.length ≤ s.cfg.capBits) :
    exec .demodulate s = s.done { s.blk with ilv := some (demodulateSyms k ys) } :=
  exec_ok hrun (by simp) (by simp [commandBody, demodulateBody, hy, hk, h])

end

end Sys2Proof.Machine
end

section
/-! Obligations of 42_constellation.md: the constellation, the mapper and the demapper, and their round trip. -/

namespace Sys2Proof.Machine

/-- Settles O38: the radius and the direction of each point are those of the rule. -/
theorem constBuild : Obligations.ConstBuild := by
  refine ⟨fun b hb => ⟨encode_constBuild hb, decode_ofNat (i := .constBuild b) hb⟩, fun s b hwf hrun =>
    ⟨fun hb => ?_, fun hb => ?_⟩⟩
  · exact exec_constBuild_out_of_range hrun (by simpa using mt (supports_iff_of_wf hwf b).1 hb)
  · refine ⟨_, exec_constBuild_done hrun ((supports_iff_of_wf hwf b).2 hb), rfl, rfl, buildConst_pt_length _ b,
      fun i hi => ?_⟩
    rw [cval, sampleAt_buildConst _ hi, spiralPoint_val, Complex.exp_mul_I, spiralRadius]
    push_cast
    rfl

/-- Settles O39: the squared moduli are the squared radii, which sum to the number of points. -/
theorem constellationMeanPower : Obligations.ConstellationMeanPower := by
  intro s t b hwf hrun hb ht
  rw [exec_constBuild_done hrun ((supports_iff_of_wf hwf b).2 hb)] at ht
  obtain rfl := State.done_inj ht
  refine ⟨_, rfl, ?_, fun i j hij hj => norm_cval_buildConst_strictMonoOn s.cfg b (hij.trans hj) hj hij⟩
  have hsum : ∑ i ∈ Finset.range (2 ^ b), ‖cval (buildConst s.cfg b).pt i‖ ^ 2 = (2 : ℝ) ^ b := by
    rw [Finset.sum_congr rfl fun i hi => by rw [norm_cval_buildConst s.cfg (Finset.mem_range.1 hi)], sum_spiralRadius_sq_self]
    simp
  rw [hsum, one_div_mul_cancel (by positivity)]

/-- Settles O40: the table holds every group, so the lookup finds the group's own tuple. -/
theorem modulate : Obligations.Modulate := by
  refine ⟨spells_encode (i := .modulate) trivial, fun s hrun => ⟨exec_modulate_empty hrun, fun bits k hb hk hok =>
    ⟨exec_modulate_partial_group hrun hb hk, exec_modulate_over_capacity hrun hb hk, fun hgroups h =>
      ⟨_, exec_modulate_done hrun hb hk hgroups h, modulateBits_length k bits, fun g hg => ?_⟩⟩⟩⟩
  rw [modulateBits_length] at hg
  obtain ⟨hlt, htup⟩ := hok.tup_tupleIndex (slice_length_of_group hg)
  exact ⟨_, hlt, htup, modulateBits_getElem? hok hg⟩

/-- Settles O41: the ascending scan finds the lowest index of the least distance. -/
theorem demodulate : Obligations.Demodulate := by
  refine ⟨spells_encode (i := .demodulate) trivial, fun s hrun => ⟨exec_demodulate_empty hrun, fun ys k hy hk hok =>
    ⟨exec_demodulate_over_capacity hrun hy hk, fun h =>
      ⟨_, exec_demodulate_done hrun hy hk h, (demodulateSyms_length hok ys).trans (Nat.mul_comm _ _), fun g hg => ?_⟩⟩⟩⟩
  obtain ⟨hlt, hleast, hlowest⟩ := nearest_spec hok.pt_pos (sampleAt ys g)
  rw [hok.pt_size] at hlt hleast
  refine ⟨_, hlt, ?_, hleast, hlowest⟩
  rw [slice_demodulateSyms hok hg, hok.tup_nearest]

/-- Settles O42: the demapper undoes the mapper, because the points of the spiral are distinct. -/
theorem modulationRoundTrip : Obligations.ModulationRoundTrip := by
  intro s b bits hwf hrun hb hbits hgroups hsyms hcap
  have hsup := (supports_iff_of_wf hwf b).2 hb
  have hlen : b * (modulateBits (buildConst s.cfg b) bits).length ≤ s.cfg.capBits := by
    rw [modulateBits_length, buildConst_b, Nat.mul_div_cancel' (Nat.dvd_of_mod_eq_zero hgroups)]
    exact hcap
  refine ⟨_, _, execAll_cons (exec_constBuild_done hrun hsup) (exec_modulate_done hrun hbits rfl hgroups hsyms),
    exec_demodulate_done hrun rfl rfl hlen, ?_, rfl⟩
  exact congrArg some (demodulateSyms_modulateBits (buildConst_ok hsup) (cval_buildConst_injOn s.cfg b) hgroups)

end Sys2Proof.Machine
end

section
/-! SUPPORT. The data subcarriers and the traversal order `RE` (43_resource_grid.md R171): each data cell has one position, and
row-major order of cells is the order of positions. -/

namespace Sys2Proof.Machine

/-! Cells of a row-major array (10_state.md R23). -/

theorem cell_lt {n w l k : Nat} (hl : l < n) (hk : k < w) : l * w + k < n * w :=
  calc l * w + k < l * w + w := Nat.add_lt_add_left hk _
    _ = (l + 1) * w := (Nat.succ_mul l w).symm
    _ ≤ n * w := Nat.mul_le_mul_right w hl

theorem cell_div {w k : Nat} (l : Nat) (hk : k < w) : (l * w + k) / w = l := by
  rw [Nat.mul_comm, Nat.mul_add_div (by omega), Nat.div_eq_of_lt hk, Nat.add_zero]

theorem cell_mod {w k : Nat} (l : Nat) (hk : k < w) : (l * w + k) % w = k := Nat.mul_add_mod_of_lt hk

theorem cell_inj {w l k l' k' : Nat} (hk : k < w) (hk' : k' < w) (h : l * w + k = l' * w + k') : l = l' ∧ k = k' :=
  ⟨by rw [← cell_div l hk, h, cell_div l' hk'], by rw [← cell_mod l hk, h, cell_mod l' hk']⟩

/-- The order of the flat indices is row-major. -/
theorem cell_lt_cell {w l k l' k' : Nat} (h : l * w + k < l' * w + k') (hk' : k' < w) :
    l < l' ∨ (l = l' ∧ k < k') := by
  rcases Nat.lt_trichotomy l l' with hl | rfl | hl
  · exact .inl hl
  · exact .inr ⟨rfl, by omega⟩
  · have := cell_lt hl hk'
    omega

theorem sampleAt_rowAt (xs : List Cplx) {w i : Nat} (l : Nat) (hi : i < w) :
    sampleAt (rowAt xs w l) i = sampleAt xs (l * w + i) :=
  sampleAt_map_range hi

theorem ext_sampleAt {xs ys : List Cplx} (hlen : xs.length = ys.length)
    (h : ∀ i < xs.length, sampleAt xs i = sampleAt ys i) : xs = ys := by
  refine List.ext_getElem hlen fun i hx hy => ?_
  rw [← sampleAt_of_lt hx, ← sampleAt_of_lt hy, h i hx]

/-! `DATA_IDX` (43_resource_grid.md R171). -/

section
variable {c : Cfg}

theorem mem_dataIdx {k : Nat} : k ∈ c.dataIdx ↔ k < c.nSc ∧ k ∉ c.pilotIdx := by simp [Cfg.dataIdx]

theorem dataIdx_ascending (c : Cfg) : c.dataIdx.Pairwise (· < ·) := List.pairwise_lt_range.filter _

theorem pilotIdx_nodup (h : c.Wf) : c.pilotIdx.Nodup := h.pilots_ascending.imp fun hlt => hlt.ne

/-- The subcarriers are the pilots and the data subcarriers, so their numbers add up. -/
theorem dataIdx_length (h : c.Wf) : c.dataIdx.length = c.nD := by
  have hsplit : c.dataIdx.toFinset = Finset.range c.nSc \ c.pilotIdx.toFinset := by
    ext k
    simp [mem_dataIdx]
  have hsub : c.pilotIdx.toFinset ⊆ Finset.range c.nSc := fun k hk => by simpa using h.pilots_below k (by simpa using hk)
  calc c.dataIdx.length = c.dataIdx.toFinset.card :=
        (List.toFinset_card_of_nodup ((dataIdx_ascending c).imp fun hlt => hlt.ne)).symm
    _ = c.nD := by
      rw [hsplit, Finset.card_sdiff_of_subset hsub, Finset.card_range, List.toFinset_card_of_nodup (pilotIdx_nodup h)]
      rfl

theorem getD_dataIdx_mem (h : c.Wf) {i : Nat} (hi : i < c.nD) : c.dataIdx.getD i 0 ∈ c.dataIdx := by
  rw [List.getD_eq_getElem _ _ ((dataIdx_length h).symm ▸ hi)]
  exact List.getElem_mem _

theorem getD_dataIdx_strictMono (h : c.Wf) {i j : Nat} (hij : i < j) (hj : j < c.nD) :
    c.dataIdx.getD i 0 < c.dataIdx.getD j 0 := by
  rw [← dataIdx_length h] at hj
  rw [List.getD_eq_getElem _ _ (hij.trans hj), List.getD_eq_getElem _ _ hj]
  exact List.pairwise_iff_getElem.1 (dataIdx_ascending c) i j _ hj hij

/-! `RE` (43_resource_grid.md R171). -/

/-- Position `l·N_D + i` is data subcarrier `i` of row `l`. -/
theorem reCell_cell (l : Nat) {i : Nat} (hi : i < c.nD) : reCell c (l * c.nD + i) = (l, c.dataIdx.getD i 0) := by
  rw [reCell, cell_div l hi, cell_mod l hi]

theorem reCell_mem (h : c.Wf) {q : Nat} (hq : q < c.cap) : (reCell c q).1 < c.nSym ∧ (reCell c q).2 ∈ c.dataIdx := by
  obtain ⟨l, i, hl, hi, rfl⟩ := exists_cell hq
  rw [reCell_cell l hi]
  exact ⟨hl, getD_dataIdx_mem h hi⟩

theorem reCell_surj (h : c.Wf) {l k : Nat} (hl : l < c.nSym) (hk : k ∈ c.dataIdx) : ∃ q < c.cap, reCell c q = (l, k) := by
  obtain ⟨i, hi, rfl⟩ := List.mem_iff_getElem.1 hk
  have hi' : i < c.nD := dataIdx_length h ▸ hi
  exact ⟨l * c.nD + i, cell_lt hl hi', by rw [reCell_cell l hi', List.getD_eq_getElem _ _ hi]⟩

theorem reCell_rowMajor (h : c.Wf) {q q' : Nat} (hqq' : q < q') (hq' : q' < c.cap) :
    (reCell c q).1 < (reCell c q').1 ∨ ((reCell c q).1 = (reCell c q').1 ∧ (reCell c q).2 < (reCell c q').2) := by
  obtain ⟨l, i, -, hi, rfl⟩ := exists_cell (hqq'.trans hq')
  obtain ⟨l', i', -, hi', rfl⟩ := exists_cell hq'
  rw [reCell_cell l hi, reCell_cell l' hi']
  exact (cell_lt_cell hqq' hi').imp_right fun ⟨hl, hlt⟩ => ⟨hl, getD_dataIdx_strictMono h hlt hi'⟩

/-- The flat index of `RE(q)` names its cell. -/
theorem reIdx_eq_iff (h : c.Wf) {q l k : Nat} (hq : q < c.cap) (hk : k < c.nSc) :
    reIdx c q = l * c.nSc + k ↔ reCell c q = (l, k) := by
  refine ⟨fun he => Prod.ext_iff.2 (cell_inj (mem_dataIdx.1 (reCell_mem h hq).2).1 hk he), fun he => ?_⟩
  rw [reIdx, he, flatIdx]

theorem reIdx_lt (h : c.Wf) {q : Nat} (hq : q < c.cap) : reIdx c q < c.nSym * c.nSc :=
  cell_lt (reCell_mem h hq).1 (mem_dataIdx.1 (reCell_mem h hq).2).1

/-- No two positions name one cell. -/
theorem reIdx_ne (h : c.Wf) {q q' : Nat} (hqq' : q < q') (hq' : q' < c.cap) : reIdx c q ≠ reIdx c q' := fun he => by
  have hcell : reCell c q = reCell c q' :=
    (reIdx_eq_iff h (hqq'.trans hq') (mem_dataIdx.1 (reCell_mem h hq').2).1).1 he
  have hlt := reCell_rowMajor h hqq' hq'
  simp [hcell] at hlt

end

end Sys2Proof.Machine
end

section
/-! SUPPORT. What `GRID_MAP` and `GRID_EXTRACT` do to the data array, cell by cell, and that the second undoes the first
(43_resource_grid.md R173, R174). -/

namespace Sys2Proof.Machine

/-- The data array after the first `n` symbols are written. -/
def mapFirst (c : Cfg) (syms : List Cplx) (n : Nat) (data : List Cplx) : List Cplx :=
  (List.range n).foldl (fun d q => d.set (reIdx c q) (sampleAt syms q)) data

theorem mapSyms_eq_mapFirst (c : Cfg) (syms data : List Cplx) : mapSyms c syms data = mapFirst c syms syms.length data := rfl

theorem mapFirst_succ (c : Cfg) (syms : List Cplx) (n : Nat) (data : List Cplx) :
    mapFirst c syms (n + 1) data = (mapFirst c syms n data).set (reIdx c n) (sampleAt syms n) := by
  simp [mapFirst, List.range_succ]

@[simp] theorem mapFirst_length (c : Cfg) (syms : List Cplx) (n : Nat) (data : List Cplx) :
    (mapFirst c syms n data).length = data.length := by
  induction n with
  | zero => rfl
  | succ n ih => rw [mapFirst_succ, List.length_set, ih]

theorem sampleAt_set_self {xs : List Cplx} {i : Nat} (hi : i < xs.length) (z : Cplx) : sampleAt (xs.set i z) i = z := by
  simp [sampleAt, hi]

theorem sampleAt_set_ne (xs : List Cplx) {i j : Nat} (h : j ≠ i) (z : Cplx) : sampleAt (xs.set j z) i = sampleAt xs i := by
  simp [sampleAt, h]

theorem sampleAt_mapFirst_of_ne {c : Cfg} {syms data : List Cplx} {n i : Nat} (h : ∀ q < n, reIdx c q ≠ i) :
    sampleAt (mapFirst c syms n data) i = sampleAt data i := by
  induction n with
  | zero => rfl
  | succ n ih =>
    rw [mapFirst_succ, sampleAt_set_ne _ (h n (Nat.lt_succ_self n)), ih fun q hq => h q (Nat.lt_succ_of_lt hq)]

/-- A written cell is not written again, because no later position names it. -/
theorem sampleAt_mapFirst_reIdx {c : Cfg} {syms data : List Cplx} {n q : Nat} (h : c.Wf)
    (hdata : data.length = c.nSym * c.nSc) (hn : n ≤ c.cap) (hq : q < n) :
    sampleAt (mapFirst c syms n data) (reIdx c q) = sampleAt syms q := by
  induction n with
  | zero => exact absurd hq (Nat.not_lt_zero q)
  | succ n ih =>
    rw [mapFirst_succ]
    rcases Nat.lt_succ_iff_lt_or_eq.1 hq with hlt | rfl
    · rw [sampleAt_set_ne _ (reIdx_ne h hlt hn).symm, ih (Nat.le_of_succ_le hn) hlt]
    · exact sampleAt_set_self (by rw [mapFirst_length, hdata]; exact reIdx_lt h hn) _

theorem sampleAt_extractSyms (c : Cfg) (data : List Cplx) {n q : Nat} (hq : q < n) :
    sampleAt (extractSyms c n data) q = sampleAt data (reIdx c q) := sampleAt_map_range hq

theorem extractSyms_mapSyms {c : Cfg} {syms data : List Cplx} (h : c.Wf) (hdata : data.length = c.nSym * c.nSc)
    (hn : syms.length ≤ c.cap) : extractSyms c syms.length (mapSyms c syms data) = syms := by
  refine ext_sampleAt (extractSyms_length c _ _) fun q hq => ?_
  rw [extractSyms_length] at hq
  rw [sampleAt_extractSyms c _ hq, mapSyms_eq_mapFirst, sampleAt_mapFirst_reIdx h hdata hn hq]

end Sys2Proof.Machine
end

section
/-! SUPPORT. The DFT pair over the complex numbers: the model's transforms compute it, and the forward one undoes the inverse one
(43_resource_grid.md R176, R177, R180). -/

namespace Sys2Proof.Machine

/-- `IDFT_N(X)[n]` over the complex numbers (43_resource_grid.md R176). -/
noncomputable def inverseDft (N : ℕ) (X : ℕ → ℂ) (n : ℕ) : ℂ :=
  (1 / (Real.sqrt N : ℂ)) * ∑ k ∈ Finset.range N, X k * Complex.exp (2 * Real.pi * k * n / N * Complex.I)

/-- `DFT_N(x)[m]` over the complex numbers (43_resource_grid.md R177). -/
noncomputable def forwardDft (N : ℕ) (x : ℕ → ℂ) (m : ℕ) : ℂ :=
  (1 / (Real.sqrt N : ℂ)) * ∑ n ∈ Finset.range N, x n * Complex.exp (-(2 * Real.pi * m * n / N * Complex.I))

theorem inverseDft_congr {N : ℕ} {X Y : ℕ → ℂ} (h : ∀ k < N, X k = Y k) (n : ℕ) :
    inverseDft N X n = inverseDft N Y n := by
  rw [inverseDft, inverseDft, Finset.sum_congr rfl fun k hk => by rw [h k (Finset.mem_range.1 hk)]]

theorem forwardDft_congr {N : ℕ} {x y : ℕ → ℂ} (h : ∀ n < N, x n = y n) (m : ℕ) :
    forwardDft N x m = forwardDft N y m := by
  rw [forwardDft, forwardDft, Finset.sum_congr rfl fun n hn => by rw [h n (Finset.mem_range.1 hn)]]

/-! The model's transforms. -/

theorem val_sum_range (f : Nat → Cplx) (n : Nat) :
    (Cplx.sum ((List.range n).map f)).val = ∑ k ∈ Finset.range n, (f k).val := by
  rw [Cplx.val_sum, List.map_map]
  rfl

theorem val_dftNorm (n : Nat) : ((dftNorm n).val : ℂ) = 1 / (Real.sqrt n : ℂ) := by simp [dftNorm]

theorem idftAt_val (xs : List Cplx) (n : Nat) : (idftAt xs n).val = inverseDft xs.length (cval xs) n := by
  rw [idftAt, Cplx.val_scale, val_dftNorm, val_sum_range, inverseDft]
  refine congrArg _ (Finset.sum_congr rfl fun k _ => ?_)
  rw [Cplx.val_times, Cplx.val_cis, Num.val_pi, cval]
  congr 3
  push_cast
  ring

theorem dftAt_val (xs : List Cplx) (m : Nat) : (dftAt xs m).val = forwardDft xs.length (cval xs) m := by
  rw [dftAt, Cplx.val_scale, val_dftNorm, val_sum_range, forwardDft]
  refine congrArg _ (Finset.sum_congr rfl fun n _ => ?_)
  rw [Cplx.val_times, Cplx.val_cis, Num.val_pi, cval]
  congr 2
  push_cast
  ring

theorem cval_idft {xs : List Cplx} {n : Nat} (hn : n < xs.length) :
    cval (idft xs) n = inverseDft xs.length (cval xs) n := by
  rw [cval, idft, sampleAt_map_range hn, idftAt_val]

theorem cval_dft {xs : List Cplx} {m : Nat} (hm : m < xs.length) :
    cval (dft xs) m = forwardDft xs.length (cval xs) m := by
  rw [cval, dft, sampleAt_map_range hm, dftAt_val]

/-! Inversion: the sum of the N-th roots of unity `e^{j2π(k−m)n/N}` over n vanishes for k ≠ m. -/

/-- The two factors of a term as powers of one root of unity. -/
theorem exp_mul_exp_eq_pow (N k m n : ℕ) :
    Complex.exp (2 * Real.pi * k * n / N * Complex.I) * Complex.exp (-(2 * Real.pi * m * n / N * Complex.I)) =
      (Complex.exp (2 * Real.pi * Complex.I / N) ^ k / Complex.exp (2 * Real.pi * Complex.I / N) ^ m) ^ n := by
  rw [← Complex.exp_nat_mul, ← Complex.exp_nat_mul, ← Complex.exp_sub, ← Complex.exp_nat_mul, ← Complex.exp_add]
  congr 1
  ring

theorem sum_exp_mul_exp {N k m : ℕ} (hk : k < N) (hm : m < N) :
    ∑ n ∈ Finset.range N,
        Complex.exp (2 * Real.pi * k * n / N * Complex.I) * Complex.exp (-(2 * Real.pi * m * n / N * Complex.I)) =
      if k = m then (N : ℂ) else 0 := by
  have hroot := Complex.isPrimitiveRoot_exp N (by omega)
  simp only [exp_mul_exp_eq_pow]
  generalize Complex.exp (2 * Real.pi * Complex.I / N) = ζ at hroot
  have hζ : ζ ^ m ≠ 0 := pow_ne_zero m (hroot.ne_zero (by omega))
  split
  · next heq => simp [heq, div_self hζ]
  · next hne =>
    have hx : ζ ^ k / ζ ^ m ≠ 1 := fun h => hne (hroot.pow_inj hk hm ((div_eq_one_iff_eq hζ).1 h))
    have hpow : (ζ ^ k / ζ ^ m) ^ N = 1 := by
      rw [div_pow, pow_right_comm, pow_right_comm ζ m, hroot.pow_eq_one, one_pow, one_pow, div_one]
    rw [geom_sum_eq hx, hpow, sub_self, zero_div]

theorem norm_factor_sq {N : ℕ} (hN : 1 ≤ N) : (1 / (Real.sqrt N : ℂ)) * ((1 / (Real.sqrt N : ℂ)) * N) = 1 := by
  have hsq : (Real.sqrt N : ℂ) * (Real.sqrt N : ℂ) = N := by
    rw [← Complex.ofReal_mul, Real.mul_self_sqrt (Nat.cast_nonneg N), Complex.ofReal_natCast]
  have hne : (Real.sqrt N : ℂ) ≠ 0 := by
    rw [Complex.ofReal_ne_zero]
    exact (Real.sqrt_pos.2 (by exact_mod_cast hN)).ne'
  rw [← hsq]
  field_simp

/-- The forward transform undoes the inverse transform (43_resource_grid.md R180). -/
theorem forwardDft_inverseDft {N m : ℕ} (X : ℕ → ℂ) (hm : m < N) : forwardDft N (inverseDft N X) m = X m := by
  set r : ℂ := 1 / (Real.sqrt N : ℂ) with hr
  calc forwardDft N (inverseDft N X) m
      = r * ∑ n ∈ Finset.range N, ∑ k ∈ Finset.range N, r * X k *
          (Complex.exp (2 * Real.pi * k * n / N * Complex.I) * Complex.exp (-(2 * Real.pi * m * n / N * Complex.I))) := by
        simp only [forwardDft, inverseDft, ← hr, Finset.mul_sum, Finset.sum_mul, mul_assoc]
    _ = r * ∑ k ∈ Finset.range N, r * X k * if k = m then (N : ℂ) else 0 := by
        rw [Finset.sum_comm]
        refine congrArg _ (Finset.sum_congr rfl fun k hk => ?_)
        rw [← Finset.mul_sum, sum_exp_mul_exp (Finset.mem_range.1 hk) hm]
    _ = r * (r * N) * X m := by
        simp only [mul_ite, mul_zero, Finset.sum_ite_eq', Finset.mem_range, hm, if_true]
        ring
    _ = X m := by rw [hr, norm_factor_sq (by omega), one_mul]

theorem cval_dft_idft {xs : List Cplx} {m : Nat} (hm : m < xs.length) : cval (dft (idft xs)) m = cval xs m :=
  calc cval (dft (idft xs)) m = forwardDft xs.length (cval (idft xs)) m := by
        rw [cval_dft (by rwa [idft_length]), idft_length]
    _ = forwardDft xs.length (inverseDft xs.length (cval xs)) m := forwardDft_congr (fun _ hn => cval_idft hn) m
    _ = cval xs m := forwardDft_inverseDft _ hm

end Sys2Proof.Machine
end

section
/-! SUPPORT. The grid in the frequency domain and its transforms, cell by cell (43_resource_grid.md R175, R178 to R180). -/

namespace Sys2Proof.Machine

section
variable {c : Cfg}

/-! Pilot subcarriers (43_resource_grid.md R171). -/

theorem isPilot_iff {k : Nat} : isPilot c k = true ↔ k ∈ c.pilotIdx := List.contains_iff_mem

theorem getD_pilotIdx_mem {p : Nat} (hp : p < c.nPil) : c.pilotIdx.getD p 0 ∈ c.pilotIdx := by
  rw [List.getD_eq_getElem _ _ hp]
  exact List.getElem_mem _

theorem idxOf_pilotIdx (h : c.Wf) {p : Nat} (hp : p < c.nPil) : c.pilotIdx.idxOf (c.pilotIdx.getD p 0) = p := by
  rw [List.getD_eq_getElem _ _ hp]
  exact (pilotIdx_nodup h).idxOf_getElem p hp

/-! The frequency vector (43_resource_grid.md R175). -/

theorem carrier_data (g : Grid) (l : Nat) {k : Nat} (hk : k ∉ c.pilotIdx) :
    carrier c g l k = sampleAt g.data (l * c.nSc + k) := if_neg (mt isPilot_iff.1 hk)

theorem carrier_pilot (h : c.Wf) (g : Grid) (l : Nat) {p : Nat} (hp : p < c.nPil) :
    carrier c g l (c.pilotIdx.getD p 0) = sampleAt g.pilot (l * c.nPil + p) := by
  rw [carrier, if_pos (isPilot_iff.2 (getD_pilotIdx_mem hp)), idxOf_pilotIdx h hp]
  rfl

theorem sampleAt_freqVector_carrier (h : c.Wf) (g : Grid) (l : Nat) {k : Nat} (hk : k < c.nSc) :
    sampleAt (freqVector c g l) (c.scOffset + k) = carrier c g l k := by
  have hfits := h.sc_fits
  rw [freqVector, sampleAt_map_range (by omega), Nat.add_sub_cancel_left, if_pos ⟨Nat.le_add_right _ _, hk⟩]

theorem sampleAt_freqVector_guard (g : Grid) (l : Nat) {m : Nat} (hm : m < c.nFft)
    (hout : m < c.scOffset ∨ c.scOffset + c.nSc ≤ m) : sampleAt (freqVector c g l) m = Cplx.zero := by
  rw [freqVector, sampleAt_map_range hm, if_neg (by omega)]

/-- The placement determines every bin of the vector: below `N_FFT` a bin is a data subcarrier's, a pilot's, or a guard bin. -/
theorem cval_freqVector_eq (h : c.Wf) (g : Grid) (l : Nat) {X : ℕ → ℂ}
    (hdata : ∀ k < c.nSc, k ∉ c.pilotIdx → X (c.scOffset + k) = cval g.data (l * c.nSc + k))
    (hpilot : ∀ p < c.nPil, X (c.scOffset + c.pilotIdx.getD p 0) = cval g.pilot (l * c.nPil + p))
    (hguard : ∀ m < c.nFft, m < c.scOffset ∨ c.scOffset + c.nSc ≤ m → X m = 0) {m : ℕ} (hm : m < c.nFft) :
    cval (freqVector c g l) m = X m := by
  by_cases hin : c.scOffset ≤ m ∧ m < c.scOffset + c.nSc
  · obtain ⟨k, rfl⟩ := Nat.exists_eq_add_of_le hin.1
    have hk : k < c.nSc := by omega
    rw [cval, sampleAt_freqVector_carrier h g l hk]
    by_cases hp : k ∈ c.pilotIdx
    · obtain ⟨p, hlt, rfl⟩ := List.mem_iff_getElem.1 hp
      have := hpilot p hlt
      rw [← List.getD_eq_getElem _ 0 hlt, carrier_pilot h g l hlt, this, cval]
    · rw [carrier_data g l hp, hdata k hk hp, cval]
  · have hout : m < c.scOffset ∨ c.scOffset + c.nSc ≤ m := by omega
    rw [cval, sampleAt_freqVector_guard g l hm hout, Cplx.val_zero, hguard m hm hout]

/-! `GRID2TD` (43_resource_grid.md R178). -/

theorem sampleAt_gridToTime (g : Grid) {l n : Nat} (hl : l < c.nSym) (hn : n < c.nFft) :
    sampleAt (gridToTime c g) (l * c.nFft + n) = sampleAt (idft (freqVector c g l)) n :=
  sampleAt_rows (fun _ _ => by simp) hl hn

theorem cval_gridToTime (g : Grid) {l n : Nat} (hl : l < c.nSym) (hn : n < c.nFft) :
    cval (gridToTime c g) (l * c.nFft + n) = inverseDft c.nFft (cval (freqVector c g l)) n := by
  rw [cval, sampleAt_gridToTime g hl hn, ← cval, cval_idft (by rwa [freqVector_length]), freqVector_length]

theorem rowAt_gridToTime (g : Grid) {l : Nat} (hl : l < c.nSym) :
    rowAt (gridToTime c g) c.nFft l = idft (freqVector c g l) := by
  refine ext_sampleAt (by simp) fun n hn => ?_
  rw [rowAt_length] at hn
  rw [sampleAt_rowAt _ l hn, sampleAt_gridToTime g hl hn]

/-! `TD2GRID` (43_resource_grid.md R179). -/

theorem sampleAt_timeToGrid_data (td : List Cplx) {l k : Nat} (hl : l < c.nSym) (hk : k < c.nSc) :
    sampleAt (timeToGrid c td).data (l * c.nSc + k) =
      if isPilot c k then Cplx.zero else sampleAt (dft (rowAt td c.nFft l)) (c.scOffset + k) :=
  (sampleAt_rows (fun _ _ => by simp) hl hk).trans (sampleAt_map_range hk)

theorem sampleAt_timeToGrid_data_pilot (td : List Cplx) {l k : Nat} (hl : l < c.nSym) (hk : k < c.nSc)
    (hp : k ∈ c.pilotIdx) : sampleAt (timeToGrid c td).data (l * c.nSc + k) = Cplx.zero := by
  rw [sampleAt_timeToGrid_data td hl hk, if_pos (isPilot_iff.2 hp)]

theorem cval_timeToGrid_data (td : List Cplx) {l k : Nat} (hl : l < c.nSym) (hk : k < c.nSc) (hp : k ∉ c.pilotIdx) :
    cval (timeToGrid c td).data (l * c.nSc + k) = cval (dft (rowAt td c.nFft l)) (c.scOffset + k) := by
  rw [cval, sampleAt_timeToGrid_data td hl hk, if_neg (mt isPilot_iff.1 hp), cval]

theorem cval_timeToGrid_pilot (td : List Cplx) {l p : Nat} (hl : l < c.nSym) (hp : p < c.nPil) :
    cval (timeToGrid c td).pilot (l * c.nPil + p) =
      cval (dft (rowAt td c.nFft l)) (c.scOffset + c.pilotIdx.getD p 0) := by
  rw [cval, timeToGrid, sampleAt_rows (fun _ _ => by simp [Cfg.nPil]) hl hp, cval]
  have hp' : p < c.pilotIdx.length := hp
  simp [sampleAt, hp']

theorem cval_dft_rowAt (td : List Cplx) (l : Nat) {m : Nat} (hm : m < c.nFft) :
    cval (dft (rowAt td c.nFft l)) m = forwardDft c.nFft (fun n => cval td (l * c.nFft + n)) m := by
  rw [cval_dft (by rwa [rowAt_length]), rowAt_length]
  exact forwardDft_congr (fun n hn => congrArg Cplx.val (sampleAt_rowAt td l hn)) m

/-! The two one after the other (43_resource_grid.md R180). -/

theorem cval_dft_rowAt_gridToTime (h : c.Wf) (g : Grid) {l k : Nat} (hl : l < c.nSym) (hk : k < c.nSc) :
    cval (dft (rowAt (gridToTime c g) c.nFft l)) (c.scOffset + k) = (carrier c g l k).val := by
  have hfits := h.sc_fits
  rw [rowAt_gridToTime g hl, cval_dft_idft (by rw [freqVector_length]; omega), cval, sampleAt_freqVector_carrier h g l hk]

theorem cval_timeToGrid_gridToTime_data (h : c.Wf) (g : Grid) {l k : Nat} (hl : l < c.nSym) (hk : k < c.nSc) :
    cval (timeToGrid c (gridToTime c g)).data (l * c.nSc + k) =
      if k ∈ c.pilotIdx then 0 else cval g.data (l * c.nSc + k) := by
  split
  · next hp => rw [cval, sampleAt_timeToGrid_data_pilot _ hl hk hp, Cplx.val_zero]
  · next hp => rw [cval_timeToGrid_data _ hl hk hp, cval_dft_rowAt_gridToTime h g hl hk, carrier_data g l hp, cval]

theorem cval_timeToGrid_gridToTime_pilot (h : c.Wf) (g : Grid) {l p : Nat} (hl : l < c.nSym) (hp : p < c.nPil) :
    cval (timeToGrid c (gridToTime c g)).pilot (l * c.nPil + p) = cval g.pilot (l * c.nPil + p) := by
  have hbelow := h.pilots_below _ (getD_pilotIdx_mem hp)
  rw [cval_timeToGrid_pilot _ hl hp, cval_dft_rowAt_gridToTime h g hl hbelow, carrier_pilot h g l hp, cval]

theorem vals_ext {xs ys : List Cplx} (hlen : xs.length = ys.length) (h : ∀ i < xs.length, cval xs i = cval ys i) :
    Cplx.vals xs = Cplx.vals ys := by
  refine List.ext_getElem (by simpa [Cplx.vals] using hlen) fun i hx hy => ?_
  rw [Cplx.vals, List.length_map] at hx hy
  simpa [Cplx.vals, cval, sampleAt_of_lt hx, sampleAt_of_lt hy] using h i hx

theorem vals_timeToGrid_gridToTime_pilot (h : c.Wf) {g : Grid} (hg : g.pilot.length = c.nSym * c.nPil) :
    Cplx.vals (timeToGrid c (gridToTime c g)).pilot = Cplx.vals g.pilot := by
  refine vals_ext (by rw [timeToGrid_pilot_length, hg]) fun i hi => ?_
  rw [timeToGrid_pilot_length] at hi
  obtain ⟨l, p, hl, hp, rfl⟩ := exists_cell hi
  exact cval_timeToGrid_gridToTime_pilot h g hl hp

end

/-! The commands: each error with its condition, and the completion (43_resource_grid.md R172 to R174, R178, R179). -/

section
variable {s : State} {n : Nat} {x ys : List Cplx} {g : Grid}

theorem exec_gridInit_done (hrun : s.Running) :
    exec .gridInit s = s.done { s.blk with grid := some (freshGrid s.cfg) } :=
  exec_ok hrun (by simp) rfl

theorem exec_gridMap_empty (hrun : s.Running) (h : s.blk.syms = none ∨ s.blk.grid = none) :
    exec .gridMap s = s.raised .empty := by
  refine exec_error hrun (by simp) ?_
  simp only [commandBody, gridMapBody]
  split
  · simp_all
  · rfl

theorem exec_gridMap_over_capacity (hrun : s.Running) (hy : s.blk.syms = some ys) (hg : s.blk.grid = some g)
    (h : s.cfg.cap < ys.length) : exec .gridMap s = s.raised .gridCapacity :=
  exec_error hrun (by simp) (by simp [commandBody, gridMapBody, hy, hg, h])

theorem exec_gridMap_done (hwf : s.cfg.Wf) (hrun : s.Running) (hy : s.blk.syms = some ys) (hg : s.blk.grid = some g)
    (h : ys.length ≤ s.cfg.cap) :
    exec .gridMap s = s.done { s.blk with grid := some { g with data := mapSyms s.cfg ys g.data } } :=
  exec_ok hrun (by simp) (by simp [commandBody, gridMapBody, hy, hg, h, pilotsOk_of_wf hwf])

theorem exec_gridExtract_empty (hrun : s.Running) (h : s.blk.grid = none) : exec (.gridExtract n) s = s.raised .empty :=
  exec_error hrun (by simp) (by simp [commandBody, gridExtractBody, h])

theorem exec_gridExtract_over_grid (hrun : s.Running) (hg : s.blk.grid = some g) (h : s.cfg.cap < n) :
    exec (.gridExtract n) s = s.raised .gridCapacity :=
  exec_error hrun (by simp) (by simp [commandBody, gridExtractBody, hg, h])

theorem exec_gridExtract_over_capacity (hrun : s.Running) (hg : s.blk.grid = some g) (hn : n ≤ s.cfg.cap)
    (h : s.cfg.capSyms < n) : exec (.gridExtract n) s = s.raised .capacity :=
  exec_error hrun (by simp) (by simp [commandBody, gridExtractBody, hg, h, hn])

theorem exec_gridExtract_done (hwf : s.cfg.Wf) (hrun : s.Running) (hg : s.blk.grid = some g) (hn : n ≤ s.cfg.cap)
    (h : n ≤ s.cfg.capSyms) :
    exec (.gridExtract n) s = s.done { s.blk with syms := some (extractSyms s.cfg n g.data) } :=
  exec_ok hrun (by simp) (by simp [commandBody, gridExtractBody, hg, Nat.not_lt.2 hn, Nat.not_lt.2 h, pilotsOk_of_wf hwf])

theorem exec_grid2td_empty (hrun : s.Running) (h : s.blk.grid = none) : exec .grid2td s = s.raised .empty :=
  exec_error hrun (by simp) (by simp [commandBody, grid2tdBody, h])

theorem exec_grid2td_done (hwf : s.cfg.Wf) (hrun : s.Running) (hg : s.blk.grid = some g) :
    exec .grid2td s = s.done { s.blk with td := some (gridToTime s.cfg g) } :=
  exec_ok hrun (by simp) (by simp [commandBody, grid2tdBody, hg, pilotsOk_of_wf hwf, binsOk_of_wf hwf])

theorem exec_td2grid_empty (hrun : s.Running) (h : s.blk.td = none) : exec .td2grid s = s.raised .empty :=
  exec_error hrun (by simp) (by simp [commandBody, td2gridBody, h])

theorem exec_td2grid_done (hwf : s.cfg.Wf) (hrun : s.Running) (hx : s.blk.td = some x) :
    exec .td2grid s = s.done { s.blk with grid := some (timeToGrid s.cfg x) } :=
  exec_ok hrun (by simp) (by simp [commandBody, td2gridBody, hx, pilotsOk_of_wf hwf, binsOk_of_wf hwf])

end

end Sys2Proof.Machine
end

section
/-! Obligations of 43_resource_grid.md: the traversal order, the mapper and the extractor, and the transforms with their round
trip. -/

namespace Sys2Proof.Machine

/-- Settles O43: position `l·N_D + i` is data subcarrier `i` of row `l`. -/
theorem traversalOrder : Obligations.TraversalOrder := fun c h =>
  ⟨dataIdx_length h, dataIdx_ascending c, fun _ => mem_dataIdx, fun _ hq => reCell_mem h hq,
    fun _ _ hl hk => reCell_surj h hl hk, fun _ _ hqq' hq' => reCell_rowMajor h hqq' hq'⟩

/-- Settles O44. -/
theorem gridInit : Obligations.GridInit :=
  ⟨spells_encode (i := .gridInit) trivial, fun _ hrun => exec_gridInit_done hrun⟩

/-- Settles O45: each symbol's write is the only one to its cell, and a cell that no position names is not written. -/
theorem gridMap : Obligations.GridMap := by
  refine ⟨spells_encode (i := .gridMap) trivial, fun s hwf hrun => ⟨exec_gridMap_empty hrun, fun ys g hy hg hsize =>
    ⟨exec_gridMap_over_capacity hrun hy hg, fun hcap =>
      ⟨_, exec_gridMap_done hwf hrun hy hg hcap, mapSyms_length _ _ _, fun l k hl hk =>
        ⟨fun q hq hcell => ?written, fun hcells => ?kept⟩⟩⟩⟩⟩
  case written =>
    rw [mapSyms_eq_mapFirst, ← (reIdx_eq_iff hwf (hq.trans_le hcap) hk).2 hcell, sampleAt_mapFirst_reIdx hwf hsize hcap hq]
  case kept =>
    exact sampleAt_mapFirst_of_ne fun q hq => mt (reIdx_eq_iff hwf (hq.trans_le hcap) hk).1 (hcells q hq)

/-- Settles O46. -/
theorem gridExtract : Obligations.GridExtract :=
  ⟨fun n hn => ⟨encode_eq_ofNat (i := .gridExtract n) hn, decode_ofNat (i := .gridExtract n) hn⟩, fun s _ hwf hrun =>
    ⟨exec_gridExtract_empty hrun, fun g hg =>
      ⟨exec_gridExtract_over_grid hrun hg, exec_gridExtract_over_capacity hrun hg, fun hn h =>
        ⟨_, exec_gridExtract_done hwf hrun hg hn h, extractSyms_length _ _ _, fun _ hq =>
          sampleAt_extractSyms s.cfg g.data hq⟩⟩⟩⟩

/-- Settles O47: the extractor reads the cells in the order in which the mapper wrote them. -/
theorem gridMapThenExtract : Obligations.GridMapThenExtract := by
  intro s ys g hwf hrun hy hg hsize hcap hsyms
  refine ⟨_, mapSyms s.cfg ys g.data, exec_gridMap_done hwf hrun hy hg hcap, hy, ?_⟩
  refine Eq.trans (exec_gridExtract_done hwf hrun rfl hcap hsyms) ?_
  rw [extractSyms_mapSyms hwf hsize hcap]
  rfl

/-- Settles O48: the placement determines the frequency vector, and `TD` holds its inverse transform. -/
theorem grid2Td : Obligations.Grid2Td := by
  refine ⟨spells_encode (i := .grid2td) trivial, fun s hwf hrun => ⟨exec_grid2td_empty hrun, fun g hg =>
    ⟨_, exec_grid2td_done hwf hrun hg, gridToTime_length _ _, fun X hdata hpilot hguard l n hl hn => ?_⟩⟩⟩
  rw [cval_gridToTime g hl hn]
  exact inverseDft_congr (fun _ hm => cval_freqVector_eq hwf g l (fun k => hdata l k hl) (fun p => hpilot l p hl)
    (fun m => hguard l m hl) hm) n

/-- Settles O49: each row's forward transform, read at the bins of the subcarriers. -/
theorem td2Grid : Obligations.Td2Grid := by
  refine ⟨spells_encode (i := .td2grid) trivial, fun s hwf hrun => ⟨exec_td2grid_empty hrun, fun x hx =>
    ⟨_, exec_td2grid_done hwf hrun hx, timeToGrid_data_length _ _, timeToGrid_pilot_length _ _, fun F hF l hl =>
      ⟨fun k hk hp => ?data, fun k hp => ?zero, fun p hp => ?pilot⟩⟩⟩⟩
  all_goals have hfits := hwf.sc_fits
  case data => rw [cval_timeToGrid_data x hl hk hp, cval_dft_rowAt x l (by omega), hF, forwardDft]
  case zero => exact sampleAt_timeToGrid_data_pilot x hl (hwf.pilots_below k hp) hp
  case pilot =>
    have hbelow := hwf.pilots_below _ (getD_pilotIdx_mem hp)
    rw [cval_timeToGrid_pilot x hl hp, cval_dft_rowAt x l (by omega), hF, forwardDft]

/-- Settles O50: the forward transform undoes the inverse one, and the extractor reads the bins that the placement filled. -/
theorem gridTransformRoundTrip : Obligations.GridTransformRoundTrip := by
  intro s g hwf hrun hg hsize
  exact ⟨_, _, execAll_cons (exec_grid2td_done hwf hrun hg) (exec_td2grid_done hwf hrun rfl),
    vals_timeToGrid_gridToTime_pilot hwf hsize, fun l k hl hk => cval_timeToGrid_gridToTime_data hwf g hl hk⟩

end Sys2Proof.Machine
end

section
/-! SUPPORT. The score of the frame-start search over the complex numbers (44_frame_framer.md R200 to R203): the model's score is
it, it lies in [0, 1], and it is 1 where the segment is a copy of the preamble. -/

namespace Sys2Proof.Machine

/-- `corr(d)` over the complex numbers (44_frame_framer.md R200). -/
noncomputable def correlation (l : Nat) (r p : List Cplx) (d : Nat) : ℂ :=
  ∑ i ∈ Finset.range l, cval r (d + i) * (starRingEnd ℂ) (cval p i)

/-- `E_r(d)`, and `E_p` at `d = 0`, over the reals (44_frame_framer.md R200). -/
noncomputable def energy (l : Nat) (x : List Cplx) (d : Nat) : ℝ := ∑ i ∈ Finset.range l, ‖cval x (d + i)‖ ^ 2

section
variable {l : Nat} {r p : List Cplx} {d : Nat}

theorem energy_nonneg (l : Nat) (x : List Cplx) (d : Nat) : 0 ≤ energy l x d := Finset.sum_nonneg fun _ _ => sq_nonneg _

theorem energy_congr {x y : List Cplx} {e : Nat} (h : ∀ i < l, cval x (d + i) = cval y (e + i)) :
    energy l x d = energy l y e :=
  Finset.sum_congr rfl fun i hi => by rw [h i (Finset.mem_range.1 hi)]

theorem scoreR_eq (l : Nat) (r p : List Cplx) (d : Nat) :
    scoreR l r p d =
      if 0 < energy l r d * energy l p 0 then ‖correlation l r p d‖ / Real.sqrt (energy l r d * energy l p 0) else 0 := by
  simp only [scoreR, correlation, energy, Nat.zero_add]

/-! The model's terms. -/

theorem corrAt_val (l : Nat) (r p : List Cplx) (d : Nat) : (corrAt l r p d).val = correlation l r p d := by
  rw [corrAt, val_sum_range, correlation]
  refine Finset.sum_congr rfl fun i _ => ?_
  rw [Cplx.val_times, Cplx.val_conj, cval, cval]

theorem energyAt_val (l : Nat) (x : List Cplx) (d : Nat) : (energyAt l x d).val = energy l x d := by
  have hsum : (energyAt l x d).val = ∑ i ∈ Finset.range l, (sampleAt x (d + i)).normSq.val := by
    rw [energyAt, Num.val_sum, List.map_map]
    rfl
  rw [hsum, energy]
  refine Finset.sum_congr rfl fun i _ => ?_
  rw [Cplx.val_normSq, Complex.normSq_eq_norm_sq, cval]

theorem scoreAt_val (l : Nat) (r p : List Cplx) (d : Nat) : (scoreAt l r p d).val = scoreR l r p d := by
  have hpos : Num.lt Num.zero ((energyAt l r d).times (energyAt l p 0)) = true ↔ 0 < energy l r d * energy l p 0 := by
    rw [Num.lt_iff, Num.val_zero, Num.val_times, energyAt_val, energyAt_val]
  rw [scoreR_eq, scoreAt]
  simp only [hpos]
  split
  · rw [Num.val_div, Cplx.val_abs, Num.val_root2, Num.val_times, corrAt_val, energyAt_val, energyAt_val]
  · exact Num.val_zero

/-! The bound of the score. -/

/-- The Cauchy-Schwarz inequality for the correlation. -/
theorem norm_correlation_le (l : Nat) (r p : List Cplx) (d : Nat) :
    ‖correlation l r p d‖ ≤ Real.sqrt (energy l r d * energy l p 0) :=
  calc ‖correlation l r p d‖
      ≤ ∑ i ∈ Finset.range l, ‖cval r (d + i)‖ * ‖cval p (0 + i)‖ := by
        refine (norm_sum_le _ _).trans_eq (Finset.sum_congr rfl fun i _ => ?_)
        rw [norm_mul, RCLike.norm_conj, Nat.zero_add]
    _ ≤ Real.sqrt (energy l r d) * Real.sqrt (energy l p 0) := Real.sum_mul_le_sqrt_mul_sqrt _ _ _
    _ = Real.sqrt (energy l r d * energy l p 0) := (Real.sqrt_mul (energy_nonneg l r d) _).symm

theorem scoreR_nonneg (l : Nat) (r p : List Cplx) (d : Nat) : 0 ≤ scoreR l r p d := by
  rw [scoreR_eq]
  split
  · positivity
  · exact le_rfl

theorem scoreR_le_one (l : Nat) (r p : List Cplx) (d : Nat) : scoreR l r p d ≤ 1 := by
  rw [scoreR_eq]
  split
  · next hpos => exact (div_le_one (Real.sqrt_pos.2 hpos)).2 (norm_correlation_le l r p d)
  · exact zero_le_one

/-- A segment that is a copy of the preamble correlates with it to the preamble's energy. -/
theorem correlation_of_copy (h : ∀ i < l, cval r (d + i) = cval p i) : correlation l r p d = (energy l p 0 : ℂ) := by
  rw [correlation, energy]
  push_cast
  refine Finset.sum_congr rfl fun i hi => ?_
  rw [h i (Finset.mem_range.1 hi), Complex.mul_conj', Nat.zero_add]

/-- A copy of the preamble, of positive energy, reaches the bound. -/
theorem scoreR_of_copy (h : ∀ i < l, cval r (d + i) = cval p i) (hpos : 0 < energy l p 0) : scoreR l r p d = 1 := by
  have henergy : energy l r d = energy l p 0 := energy_congr fun i hi => by rw [h i hi, Nat.zero_add]
  rw [scoreR_eq, henergy, if_pos (mul_pos hpos hpos), correlation_of_copy h, Complex.norm_of_nonneg hpos.le,
    Real.sqrt_mul_self hpos.le, div_self hpos.ne']

end

/-! The search in a frame (44_frame_framer.md R201, R203). -/

section
variable {c : Cfg} {r p : List Cplx}

theorem detect_of_short (h : r.length ≤ c.lPre) : detect c r p = ⟨none, Num.zero⟩ := by
  rw [detect, Nat.sub_eq_zero_of_le h]
  rfl

/-- A frame longer than the preamble is searched to the lowest offset of the greatest score. -/
theorem detect_of_long (h : c.lPre < r.length) :
    ∃ d < r.length - c.lPre, detect c r p = ⟨some d, scoreAt c.lPre r p d⟩ ∧
      (∀ d' < r.length - c.lPre, scoreR c.lPre r p d' ≤ scoreR c.lPre r p d) ∧
      ∀ d' < d, scoreR c.lPre r p d' < scoreR c.lPre r p d := by
  simpa only [detect, scoreAt_val] using search_spec (scoreAt c.lPre r p) (Nat.sub_pos_of_lt h)

/-- No later offset beats a score of 1 at the first one. -/
theorem detect_of_score_one (h : c.lPre < r.length) (hscore : scoreR c.lPre r p 0 = 1) :
    detect c r p = ⟨some 0, scoreAt c.lPre r p 0⟩ := by
  obtain ⟨d, -, hdetect, -, hlowest⟩ := detect_of_long (p := p) h
  rcases Nat.eq_zero_or_pos d with rfl | hd
  · exact hdetect
  · exact absurd ((hlowest 0 hd).trans_le (scoreR_le_one _ _ _ d)) (by rw [hscore]; exact lt_irrefl 1)

/-- What the search reports is 0 or the score of an offset. -/
theorem detect_smax_bounds (c : Cfg) (r p : List Cplx) : 0 ≤ (detect c r p).smax.val ∧ (detect c r p).smax.val ≤ 1 := by
  rcases search_cases (scoreAt c.lPre r p) (r.length - c.lPre) with ⟨-, hs⟩ | ⟨d, -, hs⟩
  · rw [detect, hs]
    simp
  · rw [detect, hs, scoreAt_val]
    exact ⟨scoreR_nonneg _ _ _ _, scoreR_le_one _ _ _ _⟩

/-! The writes of `FRAME_DETECT` (44_frame_framer.md R202, R203, R205). -/

theorem withDetection_score (c : Cfg) (b : Block) (f : Found) : (b.withDetection c f).score = f.smax := by
  rcases withDetection_cases c b f with ⟨d, -, -, h⟩ | ⟨-, h⟩
  · rw [h]
  · rw [h]

theorem detThresh_lt_iff {x : Num} : Num.lt Config.detThresh x = true ↔ 7 / 10 < x.val := by
  rw [Num.lt_iff, Config.detThresh, Num.val_rat]
  norm_num

theorem withDetection_found (c : Cfg) (b : Block) (d : Nat) {x : Num} (h : 7 / 10 < x.val) :
    b.withDetection c ⟨some d, x⟩ =
      { b with start := d + c.lPre, score := x, status := b.status.withDetFallback false } :=
  if_pos (detThresh_lt_iff.2 h)

theorem withDetection_weak (c : Cfg) (b : Block) (d : Nat) {x : Num} (h : x.val ≤ 7 / 10) :
    b.withDetection c ⟨some d, x⟩ =
      { b with start := c.fallbackStart, score := x, status := b.status.withDetFallback true } :=
  if_neg (mt detThresh_lt_iff.1 h.not_gt)

theorem withDetection_none (c : Cfg) (b : Block) (x : Num) :
    b.withDetection c ⟨none, x⟩ =
      { b with start := c.fallbackStart, score := x, status := b.status.withDetFallback true } := rfl

end

/-! What can change `SCORE` (10_state.md R30). -/

theorem score_not_mem_hostWrites (h : HostStep) : .score ∉ hostWrites h := by
  cases h with
  | hwr | csrw => simp only [hostWrites]; split <;> simp
  | cmd | hrd | csrr => simp [hostWrites]

theorem writer_score {i : Instr} (h : .score ∈ writes i) : i = .txReset ∨ i = .runReset ∨ i = .frameDetect := by
  cases i with
  | txReset | runReset | frameDetect => simp
  | _ => simp [writes] at h

theorem scoreBounded_of_eq {b b' : Block} (h : b'.score = b.score) (hb : b.ScoreBounded) : b'.ScoreBounded := by
  rwa [Block.ScoreBounded, h]

theorem scoreBounded_of_eq_zero {b : Block} (h : b.score = Num.zero) : b.ScoreBounded := by
  simp [Block.ScoreBounded, h]

/-- A command that writes `SCORE` clears it or writes a maximum of scores. -/
theorem commandBody_scoreBounded {c : Cfg} {b b' : Block} {i : Instr} (hi : .score ∈ writes i)
    (hb : commandBody c b i = .ok b') : b'.ScoreBounded := by
  rcases writer_score hi with rfl | rfl | rfl
  · cases hb
    exact scoreBounded_of_eq_zero b.txReset_score
  · cases hb
    exact scoreBounded_of_eq_zero b.runReset_score
  · obtain ⟨p, r, -, -, rfl⟩ := (frameDetectBody_endsIn c b).of_ok hb
    rw [Block.ScoreBounded, withDetection_score]
    exact detect_smax_bounds c r p

end Sys2Proof.Machine
end

section
/-! SUPPORT. The samples of the preamble, the cyclic-prefixed symbols and the frame, and the commands of the Frame Framer: each error
with its condition, and the completion (44_frame_framer.md R191 to R210). -/

namespace Sys2Proof.Machine

/-! Samples of joined and cut sequences (00_scope.md R13). -/

theorem sampleAt_append_left {xs : List Cplx} (ys : List Cplx) {i : Nat} (h : i < xs.length) :
    sampleAt (xs ++ ys) i = sampleAt xs i := by
  simp [sampleAt, List.getElem?_append_left h]

theorem sampleAt_append_right (xs ys : List Cplx) (i : Nat) : sampleAt (xs ++ ys) (xs.length + i) = sampleAt ys i := by
  simp [sampleAt, List.getElem?_append_right]

theorem sampleAt_drop (xs : List Cplx) (a i : Nat) : sampleAt (xs.drop a) i = sampleAt xs (a + i) := by
  simp [sampleAt]

theorem sampleAt_slice (xs : List Cplx) (a : Nat) {n i : Nat} (h : i < n) : sampleAt (slice xs a n) i = sampleAt xs (a + i) := by
  simp [sampleAt, slice_getElem? xs h]

/-- The part after a first part of length `n` is the second part. -/
theorem slice_append_right {α : Type} {xs ys : List α} {n m : Nat} (hn : xs.length = n) (hm : ys.length = m) :
    slice (xs ++ ys) n m = ys := by
  subst hn hm
  simp [slice]

/-! The preamble (44_frame_framer.md R191). -/

theorem preSample_val (bit : Bit) : (preSample bit).val = if bit then 1 else -1 := by cases bit <;> simp [preSample]

theorem cval_preamble (c : Cfg) {i : Nat} (hi : i < c.lPre) :
    cval (preamble c) i = if bitAt c.syncBits i then 1 else -1 := by
  have hbit : i < c.syncBits.length := hi
  rw [cval, sampleAt_of_lt (by rwa [preamble_length]), bitAt_of_lt hbit, ← preSample_val]
  simp only [preamble, List.getElem_map]

theorem norm_cval_preamble (c : Cfg) {i : Nat} (hi : i < c.lPre) : ‖cval (preamble c) i‖ = 1 := by
  rw [cval_preamble c hi]
  split <;> simp

theorem energy_preamble (c : Cfg) : energy c.lPre (preamble c) 0 = c.lPre := by
  rw [energy, Finset.sum_congr rfl fun i hi => by
    rw [Nat.zero_add, norm_cval_preamble c (Finset.mem_range.1 hi), one_pow]]
  simp

/-- A frame that begins with the preamble has score 1 at its first offset (44_frame_framer.md R210). -/
theorem scoreR_built {c : Cfg} (h : 1 ≤ c.lPre) (y : List Cplx) : scoreR c.lPre (preamble c ++ y) (preamble c) 0 = 1 := by
  refine scoreR_of_copy (fun i hi => ?_) ?_
  · rw [Nat.zero_add, cval, sampleAt_append_left y (by rwa [preamble_length]), cval]
  · rw [energy_preamble]
    exact_mod_cast h

theorem detect_built {c : Cfg} (h : 1 ≤ c.lPre) {y : List Cplx} (hy : 1 ≤ y.length) :
    detect c (preamble c ++ y) (preamble c) = ⟨some 0, scoreAt c.lPre (preamble c ++ y) (preamble c) 0⟩ :=
  detect_of_score_one (by rw [List.length_append, preamble_length]; omega) (scoreR_built h y)

/-! `CP_ADD` and `CP_REMOVE` (44_frame_framer.md R193 to R195). -/

section
variable {c : Cfg} {x y td cps : List Cplx} {l i : Nat}

theorem dropped_length (h : c.nCp ≤ c.nFft) (hx : x.length = c.nFft) : (x.drop (c.nFft - c.nCp)).length = c.nCp := by
  rw [List.length_drop, hx, Nat.sub_sub_self h]

theorem sampleAt_addCp_prefix (h : c.nCp ≤ c.nFft) (hx : x.length = c.nFft) (hi : i < c.nCp) :
    sampleAt (addCp c x) i = sampleAt x (c.nFft - c.nCp + i) := by
  rw [addCp, sampleAt_append_left _ (by rwa [dropped_length h hx]), sampleAt_drop]

theorem sampleAt_addCp_symbol (h : c.nCp ≤ c.nFft) (hx : x.length = c.nFft) (i : Nat) :
    sampleAt (addCp c x) (c.nCp + i) = sampleAt x i := by
  have hsample := sampleAt_append_right (x.drop (c.nFft - c.nCp)) x i
  rwa [dropped_length h hx] at hsample

/-- Symbol `l` of `CPS` is symbol `l` of `TD` behind its last `N_CP` samples. -/
theorem sampleAt_addCps (h : c.nCp ≤ c.nFft) (hl : l < c.nSym) (hi : i < c.lSym) :
    sampleAt (addCps c td) (l * c.lSym + i) = sampleAt (addCp c (rowAt td c.nFft l)) i := by
  refine sampleAt_rows (fun k _ => ?_) hl hi
  rw [addCp_length (rowAt_length td c.nFft k), Nat.min_eq_left h, Cfg.lSym, Nat.add_comm]

theorem sampleAt_addCps_prefix (h : c.nCp ≤ c.nFft) (hl : l < c.nSym) (hi : i < c.nCp) :
    sampleAt (addCps c td) (l * c.lSym + i) = sampleAt td (l * c.nFft + (c.nFft - c.nCp + i)) := by
  rw [sampleAt_addCps h hl (by unfold Cfg.lSym; omega), sampleAt_addCp_prefix h (rowAt_length _ _ _) hi,
    sampleAt_rowAt td l (by omega)]

theorem sampleAt_addCps_symbol (h : c.nCp ≤ c.nFft) (hl : l < c.nSym) (hi : i < c.nFft) :
    sampleAt (addCps c td) (l * c.lSym + c.nCp + i) = sampleAt td (l * c.nFft + i) := by
  rw [Nat.add_assoc, sampleAt_addCps h hl (by unfold Cfg.lSym; omega), sampleAt_addCp_symbol h (rowAt_length _ _ _),
    sampleAt_rowAt td l hi]

theorem sampleAt_remCp (hi : i < c.nFft) : sampleAt (remCp c y) i = sampleAt y (c.nCp + i) := sampleAt_slice y c.nCp hi

theorem remCp_length (h : y.length = c.lSym) : (remCp c y).length = c.nFft := by
  rw [remCp, slice_length, h]
  unfold Cfg.lSym
  omega

theorem sampleAt_removeCps (h : cps.length = c.lPl) (hl : l < c.nSym) (hi : i < c.nFft) :
    sampleAt (removeCps c cps) (l * c.nFft + i) = sampleAt cps (l * c.lSym + c.nCp + i) := by
  have hrow : ∀ k < c.nSym, (remCp c (slice cps (k * c.lSym) c.lSym)).length = c.nFft := fun k hk =>
    remCp_length (by have := row_fits hk; rw [slice_length, h]; omega)
  rw [removeCps, sampleAt_rows hrow hl hi, sampleAt_remCp hi, sampleAt_slice cps _ (by unfold Cfg.lSym; omega),
    Nat.add_assoc]

end

/-! The commands. -/

section
variable {s : State} {p r x y : List Cplx}

theorem exec_preGen_done (hrun : s.Running) : exec .preGen s = s.done { s.blk with pre := some (preamble s.cfg) } :=
  exec_ok hrun (by simp) rfl

theorem exec_cpAdd_empty (hrun : s.Running) (h : s.blk.td = none) : exec .cpAdd s = s.raised .empty :=
  exec_error hrun (by simp) (by simp [commandBody, cpAddBody, h])

theorem exec_cpAdd_over_capacity (hrun : s.Running) (hx : s.blk.td = some x) (h : s.cfg.capFrame < s.cfg.lPl) :
    exec .cpAdd s = s.raised .capacity :=
  exec_error hrun (by simp) (by simp [commandBody, cpAddBody, hx, h])

theorem exec_cpAdd_done (hwf : s.cfg.Wf) (hrun : s.Running) (hx : s.blk.td = some x) (h : s.cfg.lPl ≤ s.cfg.capFrame) :
    exec .cpAdd s = s.done { s.blk with cps := some (addCps s.cfg x) } :=
  exec_ok hrun (by simp) (by simp [commandBody, cpAddBody, hx, h, prefixOk_of_wf hwf])

theorem exec_cpRemove_empty (hrun : s.Running) (h : s.blk.cps = none) : exec .cpRemove s = s.raised .empty :=
  exec_error hrun (by simp) (by simp [commandBody, cpRemoveBody, h])

theorem exec_cpRemove_wrong_size (hrun : s.Running) (hy : s.blk.cps = some y) (h : y.length ≠ s.cfg.lPl) :
    exec .cpRemove s = s.raised .size :=
  exec_error hrun (by simp) (by simp [commandBody, cpRemoveBody, hy, h])

theorem exec_cpRemove_done (hrun : s.Running) (hy : s.blk.cps = some y) (h : y.length = s.cfg.lPl) :
    exec .cpRemove s = s.done { s.blk with td := some (removeCps s.cfg y) } :=
  exec_ok hrun (by simp) (by simp [commandBody, cpRemoveBody, hy, h])

theorem exec_frameBuild_empty (hrun : s.Running) (h : s.blk.pre = none ∨ s.blk.cps = none) :
    exec .frameBuild s = s.raised .empty := by
  refine exec_error hrun (by simp) ?_
  rcases h with h | h
  · simp [commandBody, frameBuildBody, h]
  · simp [commandBody, frameBuildBody, h]

theorem exec_frameBuild_wrong_size (hrun : s.Running) (hp : s.blk.pre = some p) (hy : s.blk.cps = some y)
    (h : y.length ≠ s.cfg.lPl) : exec .frameBuild s = s.raised .size :=
  exec_error hrun (by simp) (by simp [commandBody, frameBuildBody, hp, hy, h])

theorem exec_frameBuild_over_capacity (hrun : s.Running) (hp : s.blk.pre = some p) (hy : s.blk.cps = some y)
    (hsize : y.length = s.cfg.lPl) (h : s.cfg.capFrame < s.cfg.lFrame) : exec .frameBuild s = s.raised .capacity :=
  exec_error hrun (by simp) (by simp [commandBody, frameBuildBody, hp, hy, hsize, h])

theorem exec_frameBuild_done (hrun : s.Running) (hp : s.blk.pre = some p) (hy : s.blk.cps = some y)
    (hsize : y.length = s.cfg.lPl) (h : s.cfg.lFrame ≤ s.cfg.capFrame) :
    exec .frameBuild s = s.done { s.blk with frame := some (p ++ y) } :=
  exec_ok hrun (by simp) (by simp [commandBody, frameBuildBody, hp, hy, hsize, h])

theorem exec_frameDetect_empty (hrun : s.Running) (h : s.blk.pre = none ∨ s.blk.frame = none) :
    exec .frameDetect s = s.raised .empty := by
  refine exec_error hrun (by simp) ?_
  rcases h with h | h
  · simp [commandBody, frameDetectBody, h]
  · simp [commandBody, frameDetectBody, h]

theorem exec_frameDetect_done (hrun : s.Running) (hp : s.blk.pre = some p) (hr : s.blk.frame = some r) :
    exec .frameDetect s = s.done (s.blk.withDetection s.cfg (detect s.cfg r p)) :=
  exec_ok hrun (by simp) (by simp [commandBody, frameDetectBody, hp, hr])

theorem exec_frameExtract_empty (hrun : s.Running) (h : s.blk.frame = none) : exec .frameExtract s = s.raised .empty :=
  exec_error hrun (by simp) (by simp [commandBody, frameExtractBody, h])

theorem exec_frameExtract_short (hrun : s.Running) (hr : s.blk.frame = some r)
    (h : r.length < s.blk.start + s.cfg.lPl) : exec .frameExtract s = s.raised .frameShort :=
  exec_error hrun (by simp) (by simp [commandBody, frameExtractBody, hr, h])

theorem exec_frameExtract_done (hrun : s.Running) (hr : s.blk.frame = some r)
    (h : s.blk.start + s.cfg.lPl ≤ r.length) :
    exec .frameExtract s = s.done { s.blk with cps := some (slice r s.blk.start s.cfg.lPl) } :=
  exec_ok hrun (by simp) (by simp [commandBody, frameExtractBody, hr, h])

end

/-! Detection on a built frame (44_frame_framer.md R210). -/

/-- The block after `PRE_GEN`, `FRAME_BUILD` and `FRAME_DETECT` on a `CPS` that holds `y`. -/
def Block.builtAndDetected (c : Cfg) (b : Block) (y : List Cplx) : Block :=
  { b with
    pre := some (preamble c), frame := some (preamble c ++ y), start := c.lPre
    score := scoreAt c.lPre (preamble c ++ y) (preamble c) 0, status := b.status.withDetFallback false }

theorem execAll_detect_built {s : State} {y : List Cplx} (hwf : s.cfg.Wf) (hrun : s.Running) (hy : s.blk.cps = some y)
    (hsize : y.length = s.cfg.lPl) (hcap : s.cfg.lFrame ≤ s.cfg.capFrame) (hpos : 1 ≤ s.cfg.lPl) :
    execAll [.preGen, .frameBuild, .frameDetect] s = s.done (s.blk.builtAndDetected s.cfg y) := by
  have hone : 7 / 10 < (scoreAt s.cfg.lPre (preamble s.cfg ++ y) (preamble s.cfg) 0).val := by
    rw [scoreAt_val, scoreR_built hwf.lPre_pos]
    norm_num
  refine execAll_cons (exec_preGen_done hrun) ?_
  refine execAll_cons (exec_frameBuild_done hrun rfl hy hsize hcap) ?_
  refine Eq.trans (exec_frameDetect_done hrun rfl rfl) ?_
  rw [State.withBlk_cfg, State.withBlk_cfg, detect_built hwf.lPre_pos (hsize ▸ hpos), withDetection_found _ _ _ hone,
    Nat.zero_add]
  rfl

end Sys2Proof.Machine
end

section
/-! Obligations of 44_frame_framer.md: the bound of `SCORE`, the preamble, `CP_ADD` and `CP_REMOVE`, frame build and extraction, the
frame-start search, and the round trip. -/

namespace Sys2Proof.Machine

/-- Settles O16: `SCORE` changes only where a command clears it or writes what the search found, which Cauchy-Schwarz bounds. -/
theorem stepKeepsScoreBounded : Obligations.StepKeepsScoreBounded := by
  intro s t hs ht
  obtain ⟨h, -, ho, -⟩ := step_outcome ht
  by_cases hsame : Part.Same s.blk t.blk .score
  · exact scoreBounded_of_eq hsame hs
  · obtain ⟨i, b, -, hi, hb, hblk⟩ := ho.completed hsame (score_not_mem_hostWrites h)
    rw [hblk]
    exact scoreBounded_of_eq (b.withCode_score .ok) (commandBody_scoreBounded hi hb)

/-- Settles O51: the preamble depends on the configuration only. -/
theorem preGen : Obligations.PreGen := by
  refine ⟨spells_encode (i := .preGen) trivial, fun s hrun =>
    ⟨⟨_, exec_preGen_done hrun, preamble_length _, fun i hi => cval_preamble s.cfg hi⟩, ?_⟩⟩
  exact ⟨_, _, exec_preGen_done hrun, exec_preGen_done hrun, exec_txReset _, rfl⟩

/-- Settles O52. -/
theorem cyclicPrefix : Obligations.CyclicPrefix := by
  refine ⟨spells_encode (i := .cpAdd) trivial, spells_encode (i := .cpRemove) trivial, fun s hwf hrun =>
    ⟨exec_cpAdd_empty hrun, fun x hx _ => ⟨exec_cpAdd_over_capacity hrun hx, fun hcap => ?add⟩,
      exec_cpRemove_empty hrun, fun y hy => ⟨exec_cpRemove_wrong_size hrun hy, fun hsize => ?remove⟩⟩⟩
  case add =>
    exact ⟨_, exec_cpAdd_done hwf hrun hx hcap, addCps_length hwf.nCp_le x, fun l hl =>
      ⟨fun i hi => sampleAt_addCps_prefix hwf.nCp_le hl hi, fun i hi => sampleAt_addCps_symbol hwf.nCp_le hl hi⟩⟩
  case remove =>
    exact ⟨_, exec_cpRemove_done hrun hy hsize, removeCps_length hsize, fun l n hl hn => sampleAt_removeCps hsize hl hn⟩

/-- Settles O53. -/
theorem frameBuildAndExtract : Obligations.FrameBuildAndExtract := by
  refine ⟨spells_encode (i := .frameBuild) trivial, spells_encode (i := .frameExtract) trivial, fun s hrun =>
    ⟨exec_frameBuild_empty hrun, fun p y hp hy => ⟨exec_frameBuild_wrong_size hrun hp hy,
        exec_frameBuild_over_capacity hrun hp hy, exec_frameBuild_done hrun hp hy⟩,
      exec_frameExtract_empty hrun, fun r hr => ⟨exec_frameExtract_short hrun hr, fun h => ?_⟩⟩⟩
  exact ⟨_, exec_frameExtract_done hrun hr h, by rw [slice_length]; omega, fun i hi => sampleAt_slice r _ hi⟩

/-- Settles O54: the ascending scan finds the lowest offset of the greatest score, and the threshold decides what is written. -/
theorem frameDetect : Obligations.FrameDetect := by
  refine ⟨spells_encode (i := .frameDetect) trivial, fun s hrun => ⟨exec_frameDetect_empty hrun, fun p r hp hr => ?_⟩⟩
  have hdone := exec_frameDetect_done hrun hp hr
  rcases Nat.lt_or_ge s.cfg.lPre r.length with hlong | hshort
  · obtain ⟨d, hd, hdetect, hmax, hlowest⟩ := detect_of_long (p := p) hlong
    rw [hdetect] at hdone
    rcases lt_or_ge (7 / 10) (scoreR s.cfg.lPre r p d) with hstrong | hweak
    · rw [withDetection_found _ _ _ (by rwa [scoreAt_val])] at hdone
      exact ⟨_, _, _, hdone, fun h => absurd hlong h.not_gt, fun _ => ⟨d, hd, scoreAt_val _ _ _ _, hmax, hlowest,
        fun _ => ⟨rfl, rfl⟩, fun h => absurd hstrong h.not_gt⟩⟩
    · rw [withDetection_weak _ _ _ (by rwa [scoreAt_val])] at hdone
      exact ⟨_, _, _, hdone, fun h => absurd hlong h.not_gt, fun _ => ⟨d, hd, scoreAt_val _ _ _ _, hmax, hlowest,
        fun h => absurd hweak h.not_ge, fun _ => ⟨rfl, rfl⟩⟩⟩
  · rw [detect_of_short hshort, withDetection_none] at hdone
    exact ⟨_, _, _, hdone, fun _ => ⟨rfl, Num.val_zero, rfl⟩, fun h => absurd h hshort.not_gt⟩

/-- Settles O55: the preamble at the front of the frame is found first, and what follows it is `CPS`. -/
theorem frameRoundTrip : Obligations.FrameRoundTrip := by
  intro s y hwf hrun hy hsize hcap hpos
  refine ⟨_, _, execAll_detect_built hwf hrun hy hsize hcap hpos, rfl, ?score, rfl,
    exec_frameExtract_done hrun rfl ?fits, ?same, rfl⟩
  case score => exact (scoreAt_val _ _ _ _).trans (scoreR_built hwf.lPre_pos y)
  case fits => exact (List.length_append.trans (by rw [preamble_length, hsize]; rfl)).ge
  case same => exact congrArg some (slice_append_right (preamble_length _) hsize)

end Sys2Proof.Machine
end

section
/-! SUPPORT. The numbers of the Synchronization Trackers over the reals: the two comparisons, the means of phases, the filter, and the
rotation of the grid (46_sync_trackers.md R231 to R241). -/

namespace Sys2Proof.Machine

/-! The comparisons (46_sync_trackers.md R231, R240). -/

theorem validPilot_iff {z : Cplx} : validPilot z = true ↔ 1 / 10 < ‖z.val‖ := by
  rw [validPilot, Num.lt_iff, Cplx.val_abs, Config.pilMagThresh, Num.val_rat]
  norm_num

theorem nearZero_iff {c : Cfg} {θ : Num} : nearZero c θ = true ↔ |θ.val| < c.epsCorr.val := by
  rw [nearZero, Num.lt_iff, Num.val_magnitude]

theorem nearZero_of_epsCorr_zero {c : Cfg} (θ : Num) (h : c.epsCorr.val = 0) : nearZero c θ = false :=
  Bool.eq_false_iff.2 fun hz => (abs_nonneg θ.val).not_gt (h ▸ nearZero_iff.1 hz)

/-! The estimates (46_sync_trackers.md R232, R235 to R237). -/

theorem mean_val {α : Type} {f : α → Num} {F : α → ℝ} (h : ∀ x, (f x).val = F x) (xs : List α) :
    (mean (xs.map f)).val = meanR (xs.map F) := by
  have hF : Num.val ∘ f = F := funext h
  rw [mean, Num.val_div, Num.val_sum, Num.val_ofNat, List.map_map, hF, meanR, List.length_map, List.length_map]

theorem pilotPhase_val (c : Cfg) (z : Cplx) : (pilotPhase c z).val = phaseR c z := by
  rw [pilotPhase, Cplx.val_arg, Cplx.val_times, Cplx.val_conj, phaseR]

theorem cfoEstimate_val (c : Cfg) (g : Grid) : (cfoEstimate c g).val = meanR ((validPilots g).map (phaseR c)) :=
  mean_val (pilotPhase_val c) _

theorem cpeEstimate_val (c : Cfg) (g : Grid) :
    (cpeEstimate c g).val =
      ((usableSymbols c g).map fun v => Complex.exp (meanR (v.map (phaseR c)) * Complex.I)).sum.arg := by
  rw [cpeEstimate, Cplx.val_arg, Cplx.val_sum, List.map_map]
  congr 3
  funext v
  rw [Function.comp_apply, Cplx.val_cis, mean_val (pilotPhase_val c)]

theorem scoEstimate_val (cur prev : List Cplx) :
    (scoEstimate cur prev).val = meanR ((validPairs cur prev).map fun z => (z.1.val * (starRingEnd ℂ) z.2.val).arg) :=
  mean_val (fun z => by rw [Cplx.val_arg, Cplx.val_times, Cplx.val_conj]) _

/-! The filter (46_sync_trackers.md R233). -/

theorem smooth_val (α new filt : Num) : (smooth α new filt).val = α.val * new.val + (1 - α.val) * filt.val := by
  simp [smooth]

theorem iir_filtered (α new : Num) (t : Tracker) : Filtered α t (t.iir α new) new.val := by
  refine ⟨rfl, rfl, ?_⟩
  rw [Tracker.iir_filt, ← smooth_val]
  split
  · rfl
  · rfl

/-- The count is no part of the filter. -/
theorem Filtered.withCount {α : Num} {t t' : Tracker} {new : ℝ} (h : Filtered α t t' new) (n : Nat) :
    Filtered α t (t'.withCount n) new := h

theorem Filtered.raw_eq {α : Num} {t t' : Tracker} {new : ℝ} (h : Filtered α t t' new) : t'.raw.val = new := h.1

theorem Filtered.init_eq {α : Num} {t t' : Tracker} {new : ℝ} (h : Filtered α t t' new) : t'.init = true := h.2.1

/-- An estimate that the filter already holds, or that seeds it, is the filter's value. -/
theorem Filtered.filt_eq {α : Num} {t t' : Tracker} {θ : ℝ} (h : Filtered α t t' θ) (ht : t.init = false ∨ t.filt.val = θ) :
    t'.filt.val = θ := by
  obtain ⟨-, -, hfilt⟩ := h
  rw [hfilt]
  rcases ht with hinit | hθ
  · rw [hinit]
    rfl
  · rw [hθ, ite_eq_right_iff]
    intro
    ring

/-- Under a constant estimate the error of a running filter shrinks by `1 − α` per update (46_sync_trackers.md R244). -/
theorem iterate_iir_error (α c : Num) {t : Tracker} (ht : t.init = true) (n : Nat) :
    ((fun u : Tracker => u.iir α c)^[n] t).filt.val - c.val = (1 - α.val) ^ n * (t.filt.val - c.val) := by
  induction n generalizing t with
  | zero => rw [Function.iterate_zero_apply, pow_zero, one_mul]
  | succ n ih =>
    rw [Function.iterate_succ_apply, ih (t.iir_init α c), Tracker.iir_filt, if_pos ht, smooth_val]
    ring

/-! The rotation (46_sync_trackers.md R235 to R237, R241). -/

theorem unrotate_val (θ : Num) : (unrotate θ).val = unrot θ.val := by
  rw [unrotate, Cplx.val_cis, Num.val_negate, unrot, Complex.ofReal_neg]

theorem scoFactor_val_uniform {c : Cfg} (h : c.scoMode = .uniform) (θ : Num) (k : Nat) :
    (scoFactor c θ k).val = unrot θ.val := by
  simp only [scoFactor, h, unrotate_val]

theorem scoFactor_val_ramp {c : Cfg} (h : c.scoMode = .ramp) (θ : Num) (k : Nat) :
    (scoFactor c θ k).val = unrot (θ.val * (k - c.kCenter.val)) := by
  simp only [scoFactor, h, unrotate_val, Num.val_times, Num.val_minus, Num.val_ofNat]

theorem sampleAt_of_length_le {xs : List Cplx} {i : Nat} (h : xs.length ≤ i) : sampleAt xs i = Cplx.zero :=
  List.getD_eq_default _ _ h

/-- The model's rotation is the one of the rule, cell by cell; beyond the end of a short array there is nothing to rotate. -/
theorem rotateData_dataRotated (c : Cfg) {f : Nat → Cplx} {F : Nat → ℂ} (hf : ∀ k, (f k).val = F k) (data : List Cplx) :
    DataRotated c F data (rotateData c f data) := by
  refine ⟨rotateData_length c f data, fun l k _ hk => ?_⟩
  have hcol : (l * c.nSc + k) % c.nSc = k := by rw [Nat.mul_add_mod_self_right, Nat.mod_eq_of_lt hk]
  rcases Nat.lt_or_ge (l * c.nSc + k) data.length with hin | hout
  · have hcell := rotateData_sampleAt c f hin
    rw [hcol] at hcell
    refine ⟨fun hp => ?pilot, fun hp => ?data⟩
    case pilot => rw [hcell, if_pos (isPilot_iff.2 hp)]
    case data => rw [cval, hcell, if_neg (mt isPilot_iff.1 hp), Cplx.val_times, hf, cval]
  · have hzero := sampleAt_of_length_le hout
    have hzero' := sampleAt_of_length_le (hout.trans' (rotateData_length c f data).le)
    exact ⟨fun _ => by rw [hzero, hzero'], fun _ => by rw [cval, cval, hzero, hzero', Cplx.val_zero, zero_mul]⟩

theorem cval_cfoRotate_pilot (c : Cfg) (θ : Num) {g : Grid} {x : Nat} (hx : x < g.pilot.length) :
    cval (cfoRotate c θ g).pilot x = cval g.pilot x * unrot θ.val := by
  rw [cval, sampleAt_of_lt (by rwa [cfoRotate_pilot_length]), cval, sampleAt_of_lt hx, ← unrotate_val, ← Cplx.val_times]
  simp [cfoRotate]

/-! The usable symbols (46_sync_trackers.md R236). -/

theorem usableSymbols_eq (c : Cfg) (g : Grid) :
    usableSymbols c g =
      ((List.range c.nSym).filter fun l => (symbolPilots c g l).length ≠ 0).map (symbolPilots c g) := by
  rw [usableSymbols, List.filter_map]
  congr 2
  funext l
  rw [Function.comp_apply]
  cases symbolPilots c g l with
  | nil => rfl
  | cons z v => rfl

end Sys2Proof.Machine
end

section
/-! SUPPORT. The three tracker commands: the gate, the accepted record, each error with its condition, and each way to complete
(46_sync_trackers.md R234 to R237). -/

namespace Sys2Proof.Machine

section
variable {c : Cfg} {b : Block} {g : Grid}

/-! CFO residual (46_sync_trackers.md R235). -/

/-- `TRK.CFO` after an accepted estimate. -/
def Block.cfoAccepted (c : Cfg) (b : Block) (g : Grid) : Tracker :=
  (b.cfo.iir c.alphaCfo (cfoEstimate c g)).withCount (validPilots g).length

theorem cfoAccepted_filtered (c : Cfg) (b : Block) (g : Grid) :
    Filtered c.alphaCfo b.cfo (b.cfoAccepted c g) (meanR ((validPilots g).map (phaseR c))) :=
  cfoEstimate_val c g ▸ (iir_filtered c.alphaCfo (cfoEstimate c g) b.cfo).withCount _

theorem cfoGated_iff {n : Nat} : cfoGated c n = true ↔ n = 0 ∨ 3 * n < c.nSym * c.nPil := by simp [cfoGated]

theorem cfoGated_eq_false {n : Nat} (hpos : 0 < n) (hthird : c.nSym * c.nPil ≤ 3 * n) : cfoGated c n = false :=
  Bool.eq_false_iff.2 fun h => by have := cfoGated_iff.1 h; omega

theorem cfoTracked_gated (h : cfoGated c (validPilots g).length = true) :
    b.cfoTracked c g =
      { b with cfo := b.cfo.withCount (validPilots g).length, status := b.status.withCfoSkip true } := if_pos h

/-- What an accepted estimate writes: the record in every case, the rotated grid unless the correction is near zero. -/
theorem cfoTracked_accepted (h : cfoGated c (validPilots g).length = false) :
    b.cfoTracked c g =
      if nearZero c (b.cfoAccepted c g).filt then
        { b with cfo := b.cfoAccepted c g, status := b.status.withCfoSkip true }
      else
        { b with
          cfo := b.cfoAccepted c g, grid := some (cfoRotate c (b.cfoAccepted c g).filt g)
          status := b.status.withCfoSkip false } := if_neg (Bool.eq_false_iff.1 h)

theorem cfoTracked_cfo (h : cfoGated c (validPilots g).length = false) :
    (b.cfoTracked c g).cfo = b.cfoAccepted c g := by
  rw [cfoTracked_accepted h]
  split
  · rfl
  · rfl

/-! Common phase error (46_sync_trackers.md R236). -/

/-- `TRK.CPE` after an accepted estimate. -/
def Block.cpeAccepted (c : Cfg) (b : Block) (g : Grid) : Tracker :=
  (b.cpe.iir c.alphaCpe (cpeEstimate c g)).withCount (cpeCount c g)

theorem cpeAccepted_filtered (c : Cfg) (b : Block) (g : Grid) :
    Filtered c.alphaCpe b.cpe (b.cpeAccepted c g)
      ((usableSymbols c g).map fun v => Complex.exp (meanR (v.map (phaseR c)) * Complex.I)).sum.arg :=
  cpeEstimate_val c g ▸ (iir_filtered c.alphaCpe (cpeEstimate c g) b.cpe).withCount _

theorem cpeGated_iff {n : Nat} : cpeGated c n = true ↔ n = 0 ∨ 2 * n < c.nSym := by simp [cpeGated]

theorem cpeGated_eq_false {n : Nat} (hpos : 0 < n) (hhalf : c.nSym ≤ 2 * n) : cpeGated c n = false :=
  Bool.eq_false_iff.2 fun h => by have := cpeGated_iff.1 h; omega

theorem cpeTracked_gated (h : cpeGated c (usableSymbols c g).length = true) :
    b.cpeTracked c g =
      { b with cpe := b.cpe.withCount (cpeCount c g), status := b.status.withCpeSkip true } := if_pos h

/-- What an accepted estimate writes: the record in every case, the rotated data cells unless the correction is near zero. -/
theorem cpeTracked_accepted (h : cpeGated c (usableSymbols c g).length = false) :
    b.cpeTracked c g =
      if nearZero c (b.cpeAccepted c g).filt then
        { b with cpe := b.cpeAccepted c g, status := b.status.withCpeSkip true }
      else
        { b with
          cpe := b.cpeAccepted c g
          grid := some { g with data := rotateData c (fun _ => unrotate (b.cpeAccepted c g).filt) g.data }
          status := b.status.withCpeSkip false } := if_neg (Bool.eq_false_iff.1 h)

theorem cpeTracked_cpe (h : cpeGated c (usableSymbols c g).length = false) :
    (b.cpeTracked c g).cpe = b.cpeAccepted c g := by
  rw [cpeTracked_accepted h]
  split
  · rfl
  · rfl

/-! Sampling clock offset (46_sync_trackers.md R237). -/

section
variable {prev : List Cplx}

/-- `TRK.SCO` after an accepted estimate against the previous pilots `prev`. -/
def Block.scoAccepted (c : Cfg) (b : Block) (g : Grid) (prev : List Cplx) : ScoTracker :=
  b.sco.accept c (scoEstimate g.pilot prev) (validPairs g.pilot prev).length

theorem scoAccepted_filtered (c : Cfg) (b : Block) (g : Grid) (prev : List Cplx) :
    Filtered c.alphaSco b.sco.trk (b.scoAccepted c g prev).trk
      (meanR ((validPairs g.pilot prev).map fun z => (z.1.val * (starRingEnd ℂ) z.2.val).arg)) :=
  scoEstimate_val g.pilot prev ▸ (iir_filtered c.alphaSco (scoEstimate g.pilot prev) b.sco.trk).withCount _

theorem scoAccepted_acc_val (c : Cfg) (b : Block) (g : Grid) (prev : List Cplx) :
    (b.scoAccepted c g prev).acc.val = b.sco.acc.val + (b.scoAccepted c g prev).trk.filt.val := Num.val_plus _ _

theorem scoGated_iff {n : Nat} : scoGated c n = true ↔ n = 0 ∨ 2 * n < c.nSym * c.nPil := by simp [scoGated]

theorem scoGated_eq_false {n : Nat} (hpos : 0 < n) (hhalf : c.nSym * c.nPil ≤ 2 * n) : scoGated c n = false :=
  Bool.eq_false_iff.2 fun h => by have := scoGated_iff.1 h; omega

theorem scoTracked_first (hprev : b.scoPrev = none) : b.scoTracked c g = b.scoSkipped g (b.sco.withCount 0) := by
  rw [Block.scoTracked, hprev]

theorem scoTracked_gated (hprev : b.scoPrev = some prev) (h : scoGated c (validPairs g.pilot prev).length = true) :
    b.scoTracked c g = b.scoSkipped g (b.sco.withCount (validPairs g.pilot prev).length) := by
  simp only [Block.scoTracked, hprev, h, if_true]

/-- What an accepted estimate writes: the record and the current pilots in every case, the rotated data cells unless the
correction is near zero. -/
theorem scoTracked_accepted (hprev : b.scoPrev = some prev) (h : scoGated c (validPairs g.pilot prev).length = false) :
    b.scoTracked c g =
      if nearZero c (b.scoAccepted c g prev).acc then b.scoSkipped g (b.scoAccepted c g prev)
      else
        { b with
          sco := b.scoAccepted c g prev, scoPrev := some g.pilot
          grid := some { g with data := rotateData c (scoFactor c (b.scoAccepted c g prev).acc) g.data }
          status := b.status.withScoSkip false } := by
  rw [Block.scoTracked, hprev]
  exact if_neg (Bool.eq_false_iff.1 h)

theorem scoTracked_sco (hprev : b.scoPrev = some prev) (h : scoGated c (validPairs g.pilot prev).length = false) :
    (b.scoTracked c g).sco = b.scoAccepted c g prev := by
  rw [scoTracked_accepted hprev h]
  split
  · rfl
  · rfl

/-- The pilots are stored in every case. -/
theorem scoTracked_scoPrev (c : Cfg) (b : Block) (g : Grid) : (b.scoTracked c g).scoPrev = some g.pilot := by
  obtain ⟨t, -, h | h⟩ := scoTracked_cases c b g
  · rw [h, Block.scoSkipped_scoPrev]
  · rw [h]

end

end

/-! The commands. -/

section
variable {s : State} {g : Grid}

theorem exec_cfoTrack_empty (hrun : s.Running) (h : s.blk.grid = none) : exec .cfoTrack s = s.raised .empty :=
  exec_error hrun (by simp) (by simp [commandBody, cfoTrackBody, h])

theorem exec_cfoTrack_done (hwf : s.cfg.Wf) (hrun : s.Running) (hg : s.blk.grid = some g) :
    exec .cfoTrack s = s.done (s.blk.cfoTracked s.cfg g) :=
  exec_ok hrun (by simp) (by simp [commandBody, cfoTrackBody, hg, pilotsOk_of_wf hwf])

theorem exec_cpeTrack_empty (hrun : s.Running) (h : s.blk.grid = none) : exec .cpeTrack s = s.raised .empty :=
  exec_error hrun (by simp) (by simp [commandBody, cpeTrackBody, h])

theorem exec_cpeTrack_done (hwf : s.cfg.Wf) (hrun : s.Running) (hg : s.blk.grid = some g) :
    exec .cpeTrack s = s.done (s.blk.cpeTracked s.cfg g) :=
  exec_ok hrun (by simp) (by simp [commandBody, cpeTrackBody, hg, pilotsOk_of_wf hwf])

theorem exec_scoTrack_empty (hrun : s.Running) (h : s.blk.grid = none) : exec .scoTrack s = s.raised .empty :=
  exec_error hrun (by simp) (by simp [commandBody, scoTrackBody, h])

theorem exec_scoTrack_done (hwf : s.cfg.Wf) (hrun : s.Running) (hg : s.blk.grid = some g) :
    exec .scoTrack s = s.done (s.blk.scoTracked s.cfg g) :=
  exec_ok hrun (by simp) (by simp [commandBody, scoTrackBody, hg, pilotsOk_of_wf hwf])

end

end Sys2Proof.Machine
end

section
/-! SUPPORT. The estimates under a constant phase, and under a constant advance since the previous frame (46_sync_trackers.md R244). -/

namespace Sys2Proof.Machine

/-! Arguments and means. -/

theorem arg_ofReal_mul_exp {r θ : ℝ} (hr : 0 < r) (hθ : θ ∈ Set.Ioc (-Real.pi) Real.pi) :
    ((r : ℂ) * Complex.exp (θ * Complex.I)).arg = θ := by
  rw [Complex.exp_mul_I]
  exact Complex.arg_mul_cos_add_sin_mul_I hr hθ

/-- The phase of a pilot against the value it was rotated from is the angle of the rotation. -/
theorem arg_rotated_mul_conj {w : ℂ} {θ : ℝ} (hw : w ≠ 0) (hθ : θ ∈ Set.Ioc (-Real.pi) Real.pi) :
    (w * Complex.exp (θ * Complex.I) * (starRingEnd ℂ) w).arg = θ := by
  rw [mul_right_comm, Complex.mul_conj]
  exact arg_ofReal_mul_exp (Complex.normSq_pos.2 hw) hθ

theorem meanR_map_eq {α : Type} {f : α → ℝ} {xs : List α} {θ : ℝ} (hpos : 0 < xs.length) (h : ∀ x ∈ xs, f x = θ) :
    meanR (xs.map f) = θ := by
  have hne : (xs.length : ℝ) ≠ 0 := by exact_mod_cast hpos.ne'
  rw [meanR, List.map_congr_left h, List.length_map, List.map_const', List.sum_replicate, nsmul_eq_mul,
    mul_div_cancel_left₀ θ hne]

/-! Rows of the pilot array. -/

theorem mem_of_mem_rowAt {xs : List Cplx} {n w l : Nat} {z : Cplx} (hlen : xs.length = n * w) (hl : l < n)
    (hz : z ∈ rowAt xs w l) : z ∈ xs := by
  obtain ⟨i, hi, rfl⟩ := List.mem_map.1 hz
  have hin : l * w + i < xs.length := by
    have hrow : (l + 1) * w ≤ n * w := Nat.mul_le_mul_right w hl
    rw [Nat.succ_mul] at hrow
    have := List.mem_range.1 hi
    omega
  rw [sampleAt_of_lt hin]
  exact List.getElem_mem hin

section
variable {c : Cfg} {g : Grid}

/-- With every pilot valid every symbol is usable, with all its pilots. -/
theorem usableSymbols_of_valid (hpil : 0 < c.nPil) (hsize : g.pilot.length = c.nSym * c.nPil)
    (hvalid : ∀ z ∈ g.pilot, validPilot z = true) :
    usableSymbols c g = (List.range c.nSym).map (rowAt g.pilot c.nPil) := by
  have hrows : ∀ l ∈ List.range c.nSym, symbolPilots c g l = rowAt g.pilot c.nPil l := fun l hl =>
    List.filter_eq_self.2 fun z hz => hvalid z (mem_of_mem_rowAt hsize (List.mem_range.1 hl) hz)
  rw [usableSymbols, List.map_congr_left hrows, List.filter_eq_self]
  intro v hv
  obtain ⟨l, -, rfl⟩ := List.mem_map.1 hv
  rw [Bool.not_eq_true', List.isEmpty_eq_false_iff, ← List.length_pos_iff, rowAt_length]
  exact hpil

/-! The trackers under a constant phase (46_sync_trackers.md R235, R236, R244). -/

section
variable {b : Block} {θ : ℝ}

theorem phaseR_of_rotated (hwf : c.Wf) (hθ : θ ∈ Set.Ioc (-Real.pi) Real.pi) {z : Cplx}
    (hz : z.val = c.pilotVal.val * Complex.exp (θ * Complex.I)) : phaseR c z = θ := by
  rw [phaseR, hz, arg_rotated_mul_conj hwf.pilotVal_ne hθ]

theorem cfoTracked_of_constant_phase (hwf : c.Wf) (hθ : θ ∈ Set.Ioc (-Real.pi) Real.pi) (hpos : 0 < g.pilot.length)
    (hsize : g.pilot.length = c.nSym * c.nPil)
    (hpil : ∀ z ∈ g.pilot, z.val = c.pilotVal.val * Complex.exp (θ * Complex.I) ∧ validPilot z = true) :
    Filtered c.alphaCfo b.cfo (b.cfoTracked c g).cfo θ ∧ (b.cfoTracked c g).cfo.nvalid = c.nSym * c.nPil := by
  have hall : validPilots g = g.pilot := List.filter_eq_self.2 fun z hz => (hpil z hz).2
  have hgate : cfoGated c (validPilots g).length = false := by
    rw [hall]
    exact cfoGated_eq_false hpos (by omega)
  have hfilt := cfoAccepted_filtered c b g
  rw [hall, meanR_map_eq hpos fun z hz => phaseR_of_rotated hwf hθ (hpil z hz).1] at hfilt
  rw [cfoTracked_cfo hgate]
  exact ⟨hfilt, (congrArg List.length hall).trans hsize⟩

theorem cpeTracked_of_constant_phase (hwf : c.Wf) (hθ : θ ∈ Set.Ioc (-Real.pi) Real.pi) (hpos : 0 < g.pilot.length)
    (hsize : g.pilot.length = c.nSym * c.nPil)
    (hpil : ∀ z ∈ g.pilot, z.val = c.pilotVal.val * Complex.exp (θ * Complex.I) ∧ validPilot z = true) :
    Filtered c.alphaCpe b.cpe (b.cpeTracked c g).cpe θ ∧ (b.cpeTracked c g).cpe.nvalid = c.nSym * c.nPil := by
  have hnPil : 0 < c.nPil := Nat.pos_of_mul_pos_left (hsize ▸ hpos)
  have hnSym : (0 : ℝ) < c.nSym := by exact_mod_cast hwf.nSym_pos
  have hall := usableSymbols_of_valid hnPil hsize fun z hz => (hpil z hz).2
  have hgate : cpeGated c (usableSymbols c g).length = false := by
    rw [hall, List.length_map, List.length_range]
    exact cpeGated_eq_false hwf.nSym_pos (by omega)
  have hcount : cpeCount c g = c.nSym * c.nPil := by
    rw [cpeCount, hall, ← List.length_flatten]
    exact rows_length fun l _ => rowAt_length _ _ _
  have hunit : ∀ v ∈ usableSymbols c g,
      Complex.exp (meanR (v.map (phaseR c)) * Complex.I) = Complex.exp (θ * Complex.I) := fun v hv => by
    rw [hall] at hv
    obtain ⟨l, hl, rfl⟩ := List.mem_map.1 hv
    rw [meanR_map_eq (by rwa [rowAt_length]) fun z hz =>
      phaseR_of_rotated hwf hθ (hpil z (mem_of_mem_rowAt hsize (List.mem_range.1 hl) hz)).1]
  have hfilt := cpeAccepted_filtered c b g
  rw [List.map_congr_left hunit, hall, List.map_const', List.length_map, List.length_range, List.sum_replicate,
    nsmul_eq_mul, ← Complex.ofReal_natCast, arg_ofReal_mul_exp hnSym hθ] at hfilt
  rw [cpeTracked_cpe hgate]
  exact ⟨hfilt, hcount⟩

end

/-! The tracker under a constant advance (46_sync_trackers.md R237, R244). -/

section
variable {b : Block} {prev : List Cplx} {δ : ℝ}

theorem validPilot_of_rotated {z y : Cplx} (hz : z.val = y.val * Complex.exp (δ * Complex.I))
    (hy : validPilot y = true) : validPilot z = true := by
  rw [validPilot_iff, hz, norm_mul, Complex.norm_exp_ofReal_mul_I, mul_one]
  exact validPilot_iff.1 hy

theorem val_ne_zero_of_validPilot {z : Cplx} (hz : validPilot z = true) : z.val ≠ 0 :=
  norm_pos_iff.1 ((by norm_num : (0 : ℝ) < 1 / 10).trans (validPilot_iff.1 hz))

/-- Position by position, what holds of the two values holds of the pair. -/
theorem mem_zip_rotated {cur : List Cplx} (h : ∀ x < prev.length, cval cur x = cval prev x * Complex.exp (δ * Complex.I))
    {z : Cplx × Cplx} (hz : z ∈ cur.zip prev) : z.2 ∈ prev ∧ z.1.val = z.2.val * Complex.exp (δ * Complex.I) := by
  obtain ⟨x, hx, rfl⟩ := List.mem_iff_getElem.1 hz
  rw [List.length_zip] at hx
  have hpair := h x (by omega)
  rw [cval, cval, sampleAt_of_lt (by omega), sampleAt_of_lt (by omega)] at hpair
  rw [List.getElem_zip]
  exact ⟨List.getElem_mem _, hpair⟩

theorem scoTracked_of_constant_advance (hprev : b.scoPrev = some prev) (hδ : |δ| < Real.pi) (hpos : 0 < g.pilot.length)
    (hsize : g.pilot.length = c.nSym * c.nPil) (hlen : prev.length = g.pilot.length)
    (hvalid : ∀ z ∈ prev, validPilot z = true)
    (hcur : ∀ x < prev.length, cval g.pilot x = cval prev x * Complex.exp (δ * Complex.I)) :
    Filtered c.alphaSco b.sco.trk (b.scoTracked c g).sco.trk δ ∧
      (b.scoTracked c g).sco.trk.nvalid = c.nSym * c.nPil ∧
      (b.scoTracked c g).sco.acc.val = b.sco.acc.val + (b.scoTracked c g).sco.trk.filt.val ∧
      (b.scoTracked c g).sco.nupd = b.sco.nupd + 1 := by
  have hIoc : δ ∈ Set.Ioc (-Real.pi) Real.pi := ⟨(abs_lt.1 hδ).1, (abs_lt.1 hδ).2.le⟩
  have hall : validPairs g.pilot prev = g.pilot.zip prev := List.filter_eq_self.2 fun z hz => by
    obtain ⟨hmem, hrot⟩ := mem_zip_rotated hcur hz
    rw [hvalid _ hmem, validPilot_of_rotated hrot (hvalid _ hmem), Bool.and_self]
  have hcount : (validPairs g.pilot prev).length = c.nSym * c.nPil := by rw [hall, List.length_zip]; omega
  have hphase : ∀ z ∈ validPairs g.pilot prev, (z.1.val * (starRingEnd ℂ) z.2.val).arg = δ := fun z hz => by
    obtain ⟨hmem, hrot⟩ := mem_zip_rotated hcur (hall ▸ hz)
    rw [hrot, arg_rotated_mul_conj (val_ne_zero_of_validPilot (hvalid _ hmem)) hIoc]
  have hfilt := scoAccepted_filtered c b g prev
  rw [meanR_map_eq (by omega) hphase] at hfilt
  rw [scoTracked_sco hprev (scoGated_eq_false (by omega) (by omega))]
  exact ⟨hfilt, hcount, scoAccepted_acc_val c b g prev, rfl⟩

end

end

end Sys2Proof.Machine
end

section
/-! Obligations of 46_sync_trackers.md: the two comparisons, the three trackers, and their convergence. -/

namespace Sys2Proof.Machine

/-- Settles O56. -/
theorem thresholds : Obligations.Thresholds :=
  ⟨fun _ => validPilot_iff, fun _ _ => nearZero_iff, fun _ θ h => nearZero_of_epsCorr_zero θ h⟩

/-- Settles O57: the gate, then the near-zero test on the filtered phase, decide which of the three completions it is. -/
theorem cfoTrack : Obligations.CfoTrack := by
  refine ⟨spells_encode (i := .cfoTrack) trivial, fun s hwf hrun => ⟨exec_cfoTrack_empty hrun, fun g hg =>
    ⟨fun hgate => ?gated, fun hpos hthird => ?accepted⟩⟩⟩
  all_goals have hdone := exec_cfoTrack_done hwf hrun hg
  case gated =>
    rw [cfoTracked_gated (cfoGated_iff.2 hgate)] at hdone
    exact hdone
  case accepted =>
    rw [cfoTracked_accepted (cfoGated_eq_false hpos hthird)] at hdone
    refine ⟨s.blk.cfoAccepted s.cfg g, cfoAccepted_filtered _ _ _, rfl, fun hz => ?near, fun hz => ?rotated⟩
    all_goals rw [hz] at hdone
    case near => exact hdone
    case rotated =>
      exact ⟨_, hdone, rotateData_dataRotated _ (fun _ => unrotate_val _) _, cfoRotate_pilot_length _ _ _, fun x hx =>
        cval_cfoRotate_pilot _ _ hx⟩

/-- Settles O58: the usable symbols are those with a valid pilot, and only the data array is rotated. -/
theorem cpeTrack : Obligations.CpeTrack := by
  refine ⟨spells_encode (i := .cpeTrack) trivial, fun s hwf hrun => ⟨exec_cpeTrack_empty hrun, fun g hg => ?_⟩⟩
  intro v usable n
  have hdone := exec_cpeTrack_done hwf hrun hg
  have hsymbols : usableSymbols s.cfg g = usable.map v := usableSymbols_eq s.cfg g
  have hlen : (usableSymbols s.cfg g).length = usable.length := by rw [hsymbols, List.length_map]
  have hcount : cpeCount s.cfg g = n := by rw [cpeCount, hsymbols, List.map_map]; rfl
  refine ⟨fun hgate => ?gated, fun hpos hhalf => ?accepted⟩
  case gated =>
    rw [cpeTracked_gated (cpeGated_iff.2 (hlen ▸ hgate)), hcount] at hdone
    exact hdone
  case accepted =>
    rw [cpeTracked_accepted (cpeGated_eq_false (hlen ▸ hpos) (hlen ▸ hhalf))] at hdone
    have hfilt := cpeAccepted_filtered s.cfg s.blk g
    rw [hsymbols, List.map_map] at hfilt
    refine ⟨s.blk.cpeAccepted s.cfg g, hfilt, hcount, fun hz => ?near, fun hz => ?rotated⟩
    all_goals rw [hz] at hdone
    case near => exact hdone
    case rotated => exact ⟨_, hdone, rotateData_dataRotated _ (fun _ => unrotate_val _) _⟩

/-- Settles O59: without previous pilots there is nothing to compare; with them the gate, then the near-zero test on the
accumulated offset, decide which of the three completions it is. -/
theorem scoTrack : Obligations.ScoTrack := by
  refine ⟨spells_encode (i := .scoTrack) trivial, fun s hwf hrun => ⟨exec_scoTrack_empty hrun, fun g hg =>
    ⟨fun hnone => ?first, fun prev hprev => ⟨fun hgate => ?gated, fun hpos hhalf => ?accepted⟩⟩⟩⟩
  all_goals have hdone := exec_scoTrack_done hwf hrun hg
  case first =>
    rw [scoTracked_first hnone] at hdone
    exact hdone
  case gated =>
    rw [scoTracked_gated hprev (scoGated_iff.2 hgate)] at hdone
    exact hdone
  case accepted =>
    rw [scoTracked_accepted hprev (scoGated_eq_false hpos hhalf)] at hdone
    refine ⟨s.blk.scoAccepted s.cfg g prev, scoAccepted_filtered _ _ _ _, rfl, scoAccepted_acc_val _ _ _ _, rfl,
      fun hz => ?near, fun hz => ?rotated⟩
    all_goals rw [hz] at hdone
    case near => exact hdone
    case rotated =>
      exact ⟨_, hdone, fun hmode => rotateData_dataRotated _ (scoFactor_val_uniform hmode _) _, fun hmode =>
        rotateData_dataRotated _ (scoFactor_val_ramp hmode _) _⟩

/-- Settles O60: the filter's error is geometric, and a constant phase or advance is every pilot's, so their mean's. -/
theorem trackerConvergence : Obligations.TrackerConvergence := by
  refine ⟨fun α new c t n hinit => ?filter, fun s g θ hwf hrun hg hθ hpos hsize hpil =>
    ⟨fun hfresh => ?cfo, fun hfresh => ?cpe⟩,
    fun s g prev δ hwf hrun hg hprev hδ hpos hsize hlen hvalid hcur hfresh => ?sco⟩
  case filter =>
    rw [iterate_iir_error α c (t.iir_init α new), Tracker.iir_filt, hinit]
    rfl
  case cfo =>
    obtain ⟨hf, hcount⟩ := cfoTracked_of_constant_phase (b := s.blk) hwf hθ hpos hsize hpil
    exact ⟨_, exec_cfoTrack_done hwf hrun hg, hf.raw_eq, hf.filt_eq hfresh, hf.init_eq, hcount, rfl⟩
  case cpe =>
    obtain ⟨hf, hcount⟩ := cpeTracked_of_constant_phase (b := s.blk) hwf hθ hpos hsize hpil
    exact ⟨_, exec_cpeTrack_done hwf hrun hg, hf.raw_eq, hf.filt_eq hfresh, hf.init_eq, hcount, rfl⟩
  case sco =>
    obtain ⟨hf, hcount, hacc, hnupd⟩ := scoTracked_of_constant_advance hprev hδ hpos hsize hlen hvalid hcur
    rw [hf.filt_eq hfresh] at hacc
    exact ⟨_, exec_scoTrack_done hwf hrun hg, hf.raw_eq, hf.filt_eq hfresh, hacc, hnupd, hcount,
      scoTracked_scoPrev s.cfg s.blk g, rfl⟩

end Sys2Proof.Machine
end

section
/-! SUPPORT. The table of 60_exceptions.md R262 is what the bodies of the commands raise, and `STATUS` plays no part in a host
access (60_exceptions.md R265, R266). -/

namespace Sys2Proof.Machine

/-! The error a body raises. -/

/-- The error a body raises, if it raises one. -/
def raisedCode : Except Code Block → Option Code
  | .ok _ => none
  | .error e => some e

@[simp] theorem raisedCode_ok (b : Block) : raisedCode (.ok b) = none := rfl
@[simp] theorem raisedCode_error (e : Code) : raisedCode (.error e) = some e := rfl

theorem raisedCode_eq_some {body : Except Code Block} {e : Code} (h : raisedCode body = some e) : body = .error e := by
  cases body with
  | ok b => cases h
  | error e' => exact congrArg _ (Option.some.inj h)

theorem raisedCode_eq_none {body : Except Code Block} (h : raisedCode body = none) : ∃ b, body = .ok b := by
  cases body with
  | ok b => exact ⟨b, rfl⟩
  | error e => cases h

/-- A check of a body raises its own error, or leaves what is raised to the rest. -/
@[simp] theorem raisedCode_ite (p : Prop) [Decidable p] (x y : Except Code Block) :
    raisedCode (if p then x else y) = if p then raisedCode x else raisedCode y := apply_ite raisedCode p x y

@[simp] theorem raisedCode_ifConsistent (ok : Bool) (b : Block) :
    raisedCode (ifConsistent ok b) = if !ok then some .size else none := by cases ok <;> rfl

/-! The rows of the table. -/

@[simp] theorem firstError_nil : firstError [] = none := rfl

@[simp] theorem firstError_cons (p : Bool) (e : Code) (rows : List (Bool × Code)) :
    firstError ((p, e) :: rows) = if p then some e else firstError rows := rfl

@[simp] theorem lenOf_some {α : Type} (xs : List α) : lenOf (some xs) = xs.length := rfl

theorem errorOf_tbBuild (c : Cfg) (b : Block) : errorOf c b .tbBuild = raisedCode (tbBuildBody c b) := by
  cases hp : b.pay with
  | none => simp [errorOf, tbBuildBody, hp]
  | some p => simp [errorOf, tbBuildBody_some hp, hp]

theorem errorOf_tbProcess (c : Cfg) (b : Block) : errorOf c b .tbProcess = raisedCode (tbProcessBody c b) := by
  cases hy : b.ilv with
  | none => simp [errorOf, tbProcessBody, hy]
  | some y =>
    by_cases hsize : y.length = c.ilvR * c.ilvC
    · rw [tbProcessBody_some hy hsize]
      simp [errorOf, hy, hsize]
    · simp [errorOf, tbProcessBody, hy, hsize]

/-- The table of 60_exceptions.md R262 gives the error that the body of the command raises: `ERR_EMPTY` where a buffer that the
command reads is invalid, else that of the first check on the buffers' lengths that fails. -/
theorem errorOf_eq_raisedCode (c : Cfg) (b : Block) (i : Instr) : errorOf c b i = raisedCode (commandBody c b i) := by
  cases i with
  | nop | txReset | runReset | gridInit | preGen => rfl
  | constBuild n => cases h : c.supports n <;> simp [errorOf, commandBody, constBuildBody, h]
  | tbBuild => exact errorOf_tbBuild c b
  | tbProcess => exact errorOf_tbProcess c b
  | crcGen => cases h : b.pay <;> simp [errorOf, commandBody, crcGenBody, h]
  | crcVerify | tbSplit | repeatBits =>
    cases h : b.tot <;> simp [errorOf, commandBody, crcVerifyBody, tbSplitBody, repeatBody, h]
  | majority | interleave => cases h : b.cod <;> simp [errorOf, commandBody, majorityBody, interleaveBody, h]
  | deinterleave => cases h : b.ilv <;> simp [errorOf, commandBody, deinterleaveBody, h]
  | gridExtract | grid2td => cases h : b.grid <;> simp [errorOf, commandBody, gridExtractBody, grid2tdBody, h]
  | cfoTrack | cpeTrack | scoTrack =>
    cases h : b.grid <;> simp [errorOf, commandBody, cfoTrackBody, cpeTrackBody, scoTrackBody, h]
  | td2grid | cpAdd => cases h : b.td <;> simp [errorOf, commandBody, td2gridBody, cpAddBody, h]
  | cpRemove => cases h : b.cps <;> simp [errorOf, commandBody, cpRemoveBody, h]
  | frameExtract => cases h : b.frame <;> simp [errorOf, commandBody, frameExtractBody, h]
  | tbAppend => cases hp : b.pay <;> cases hr : b.crcb <;> simp [errorOf, commandBody, tbAppendBody, hp, hr]
  | modulate => cases hb : b.ilv <;> cases hk : b.const <;> simp [errorOf, commandBody, modulateBody, hb, hk]
  | demodulate => cases hy : b.syms <;> cases hk : b.const <;> simp [errorOf, commandBody, demodulateBody, hy, hk]
  | gridMap => cases hy : b.syms <;> cases hg : b.grid <;> simp [errorOf, commandBody, gridMapBody, hy, hg]
  | frameBuild => cases hp : b.pre <;> cases hy : b.cps <;> simp [errorOf, commandBody, frameBuildBody, hp, hy]
  | frameDetect => cases hp : b.pre <;> cases hr : b.frame <;> simp [errorOf, commandBody, frameDetectBody, hp, hr]

/-- A command whose body raises nothing completes; a reset does so also while aborted. -/
theorem exec_done_of_body_ok {s : State} {i : Instr} {b : Block} (hrun : s.Running ∨ IsReset i)
    (hb : commandBody s.cfg s.blk i = .ok b) : exec i s = s.done b := by
  by_cases hi : IsReset i
  · obtain ⟨b', hb', he⟩ := exec_of_isReset hi s
    obtain rfl := Except.ok.inj (hb'.symm.trans hb)
    exact he
  · exact exec_ok (hrun.resolve_right hi) hi hb

/-- A reset raises no error. -/
theorem not_isReset_of_error {c : Cfg} {b : Block} {i : Instr} {e : Code} (h : commandBody c b i = .error e) :
    ¬IsReset i := by
  rintro (rfl | rfl)
  · cases h
  · cases h

/-! A word that ends with an error code (60_exceptions.md R265, R266). -/

theorem Block.refuse_eq_raise {b : Block} (ha : b.status.abort = true) : b.refuse = b.raise .aborted := by
  simp [Block.refuse, Block.withCode, Block.raise, Status.withCode, Status.raised, ha]

/-- A word whose code is not `OK` raised that code, a refused one included. -/
theorem WordOutcome.eq_raise {c : Cfg} {b b' : Block} {w : CmdWord} (h : WordOutcome c b w b') (he : b'.status.code ≠ .ok) :
    b' = b.raise b'.status.code := by
  cases h with
  | refused ha => exact Block.refuse_eq_raise ha
  | raised => rfl
  | completed => exact absurd rfl he

/-! Host accesses do not see `STATUS` (60_exceptions.md R266). -/

theorem hrd_withStatus (b : Block) (st : Status) (id off n : Nat) :
    ({ b with status := st } : Block).hrd id off n = b.hrd id off n := rfl

/-- Two ways to store what a write gives, which differ in `STATUS` only. -/
theorem map_withStatus {α : Type} {f f' : α → Block} {st : Status} (h : ∀ x, f' x = { f x with status := st })
    (o : Option α) : o.map f' = (o.map f).map fun b' => { b' with status := st } := by
  rw [Option.map_map]
  exact congrArg (Option.map · o) (funext h)

theorem hwr_withStatus (c : Cfg) (b : Block) (st : Status) (id off : Nat) (seq : HostData) :
    ({ b with status := st } : Block).hwr c id off seq = (b.hwr c id off seq).map fun b' => { b' with status := st } := by
  unfold Block.hwr
  split
  case h_7 | h_8 =>
    cases b.grid with
    | none => rfl
    | some g => exact map_withStatus (by intro x; rfl) _
  case h_12 => rfl
  all_goals exact map_withStatus (by intro x; rfl) _

end Sys2Proof.Machine
end

section
/-! Obligations of 60_exceptions.md: the refusal while aborted, the table of errors, and what a word that ends with an error code
leaves. -/

namespace Sys2Proof.Machine

/-- Settles O8: a command is refused before its body is looked at, the resets run outside the shell, and no host access reads
`STATUS`. -/
theorem abortedCommandsAreRefused : Obligations.AbortedCommandsAreRefused := by
  refine ⟨fun s w ha htx hrr => State.issue_aborted ha htx hrr, fun s _ => ⟨⟨s.blk.txReset, ?_, rfl⟩, s.blk.runReset, ?_, rfl⟩,
    fun c b st id off n seq => ⟨hrd_withStatus b st id off n, hwr_withStatus c b st id off seq⟩⟩
  · exact (State.issue_legal (decode_encode (i := .txReset) trivial) s).trans (exec_done_of_body_ok (.inr (.inl rfl)) rfl)
  · exact (State.issue_legal (decode_encode (i := .runReset) trivial) s).trans (exec_done_of_body_ok (.inr (.inr rfl)) rfl)

/-- Settles O9: the table gives what the body of the command raises, and the shell makes that the outcome of the command. -/
theorem errorTable : Obligations.ErrorTable := by
  refine ⟨fun s i hrun => ⟨fun e he => ?_, fun hnone => ?_⟩, fun s i ha htx hrr => exec_aborted ha (not_or.2 ⟨htx, hrr⟩)⟩
  · rw [errorOf_eq_raisedCode] at he
    have hbody := raisedCode_eq_some he
    exact exec_error hrun (not_isReset_of_error hbody) hbody
  · rw [errorOf_eq_raisedCode] at hnone
    obtain ⟨b, hb⟩ := raisedCode_eq_none hnone
    exact ⟨b, exec_done_of_body_ok (.inl hrun) hb⟩

/-- Settles O10: a command word replaces the block only, and the block is the old one with the code raised. -/
theorem raiseChangesOnlyStatus : Obligations.RaiseChangesOnlyStatus := by
  intro s t w h he
  obtain ⟨b, hb⟩ := s.issue_replaces_blk w
  obtain rfl := Host.Outcome.next.inj (hb.symm.trans h)
  exact congrArg s.withBlk ((issue_outcome h).eq_raise he)

end Sys2Proof.Machine
end
